-- ==== Sys2Proof/Word.lean ====
section
/-! DEFINITION. The widths of the block's values: bytes, 16-bit counters, 32-bit registers, bus offsets and 32-byte
strong hashes (spec/00_scope.md R7, R8, R9; spec/10_state.md R15). -/

namespace Sys2Proof

/-- A byte operand, unsigned 0..255 (R53). -/
abbrev Byte := BitVec 8

/-- A 16-bit unsigned counter of the RC unit, modulo 2^16 (R7, R16). -/
abbrev Half := BitVec 16

/-- A 32-bit register or command word (R7, R31, R52). -/
abbrev Word := BitVec 32

/-- A 64-bit unsigned position or length of the host's chunks (R7). -/
abbrev Long := BitVec 64

/-- An offset from `BASE` inside the 256-byte register window (R31, R35). -/
abbrev Offset := BitVec 8

/-- A 32-byte strong hash, byte 0 first (R7, R21). -/
abbrev Hash := Vector Byte 32

/-- 32 zero bytes, the reset value of DIGEST, HIN and RES_HASH (R34). -/
def zeroHash : Hash := Vector.replicate 32 0

end Sys2Proof
end

