-- ==== Sys2Proof/Syntax.lean ====
section
/-! DEFINITION. The commands of SRME-1, one constructor per row of spec/opcode_table.json (spec/30_encoding.md R54), the
names of the block's registers (spec/10_state.md R31), and what the outside world can do to the block: a bus access
(spec/20_memory.md R40) or a pulse of the reset input (spec/70_reset_and_hazards.md R103). -/

namespace Sys2Proof

/-- Where ix.append, ix.lookup and ix.match take the weak checksum and the strong hash from: `rc` is SRC = 0 (the block's
own RC_SUM and DIGEST), `host` is SRC = 1 (ARG0 and HIN) (R53, R58). -/
inductive Src
  | rc
  | host
  deriving DecidableEq, Repr

/-- A command of SRME-1 (R54). Byte operands are bytes, `chk` is the bit CHK and `src` the bit SRC (R53). -/
inductive Instr
  | nop
  | rcClear
  | rcFeed (b : Byte)
  | rcRoll (out inc : Byte)
  | xfeed (b : Byte)
  | shStart
  | shFeed (b : Byte)
  | shFinal
  | ixClear
  | ixSetbl (chk : Bool)
  | ixAppend (src : Src)
  | ixLookup (src : Src)
  | ixMatch (src : Src)
  | ixRead
  deriving DecidableEq, Repr

/-- The registers of the window (R31). `hin k`, `digest k` and `resHash k` are word k of the eight-register groups. -/
inductive Reg
  | cmd
  | status
  | ctrl
  | errInfo
  | arg0
  | arg1
  | hin (k : Fin 8)
  | rcA
  | rcB
  | rcCount
  | rcSum
  | shLen
  | digest (k : Fin 8)
  | ixN
  | ixBlockLen
  | ixCap
  | resId
  | resWeak
  | resHash (k : Fin 8)
  deriving DecidableEq, Repr

/-- What a bus access does: read a register, or write a value to it (R40). -/
inductive AccessKind
  | read
  | write (v : Word)
  deriving DecidableEq, Repr

/-- A bus access of the host: its kind, its width in bits and its offset from `BASE` (R10, R40). -/
structure Access where
  kind : AccessKind
  width : Nat
  off : Offset
  deriving DecidableEq, Repr

/-- What reaches the block from outside: a bus access of the host, or a pulse of the reset input (R103). -/
inductive Event
  | bus (a : Access)
  | resetLine
  deriving DecidableEq, Repr

/-- An event with its place in time. `early` says that it arrives while the command in flight, if there is one, is not
complete; what that changes is R47's business, decided in Machine/Bus.lean (log 1). -/
structure Input where
  early : Bool
  event : Event
  deriving DecidableEq, Repr

end Sys2Proof
end

