-- ==== Sys2Proof/WellFormed.lean ====
section
/-! DEFINITION. Well-formedness of the syntax. Every check on a command's operands (a byte is 0..255, a flag is one bit,
spec/30_encoding.md R53) is carried by the constructors' types, so every command is well formed; the word-level checks (assigned
opcode, reserved bits zero) are the decoder's. A bus access has two checks of form (spec/20_memory.md R40). -/

namespace Sys2Proof

/-- Every command term is well formed: its operands fit their fields by their types (R53, R54). -/
def Instr.wellFormed : Instr → Bool
  | .nop => true
  | .rcClear => true
  | .rcFeed _ => true
  | .rcRoll _ _ => true
  | .xfeed _ => true
  | .shStart => true
  | .shFeed _ => true
  | .shFinal => true
  | .ixClear => true
  | .ixSetbl _ => true
  | .ixAppend _ => true
  | .ixLookup _ => true
  | .ixMatch _ => true
  | .ixRead => true

/-- A supported access moves one 32-bit word (R37, R40). -/
def Access.wordWide (a : Access) : Bool := a.width == 32

/-- A supported access is at an offset that is a multiple of 4 (R40). -/
def Access.aligned (a : Access) : Bool := a.off.toNat % 4 == 0

/-- The form R40 supports: a 32-bit access at an aligned offset. -/
def Access.wellFormed (a : Access) : Bool := a.wordWide && a.aligned

end Sys2Proof
end

