-- ==== Sys2Proof/Decode.lean ====
section
/-! DEFINITION. The decoder of command words (spec/30_encoding.md R52 to R57), total on all 2^32 words and rejecting by the
name of the error R55 raises, and after it the encoder, written from the words of R58. -/

namespace Sys2Proof

/-- The opcode field OP of a command word (R52). -/
def fieldOp (w : Word) : Byte := w.extractLsb' 24 8

/-- The field B1: byte operand 1, or flag bits (R52). -/
def fieldB1 (w : Word) : Byte := w.extractLsb' 16 8

/-- The field B2: byte operand 2 (R52). -/
def fieldB2 (w : Word) : Byte := w.extractLsb' 8 8

/-- The flag SRC or CHK, bit 0 of B1 (R53). -/
def flagB1 (w : Word) : Bool := (fieldB1 w).getLsbD 0

/-- SRC = 0 is the block's own values, SRC = 1 the host's (R53, R58). -/
def srcOfBit (bit : Bool) : Src := if bit then .host else .rc

/-- The SRC bit of a source. -/
def bitOfSrc (src : Src) : Bool := match src with
  | .rc => false
  | .host => true

/-- What R55 makes of a command word: one of its two decode errors, or a command. -/
inductive Decoded
  | illegalOp
  | rsvdField
  | command (i : Instr)
  deriving DecidableEq, Repr

/-- A row of the opcode map (R54): the mnemonic, match and mask, and the command its operand fields give. -/
structure OpRow where
  mnemonic : String
  pattern : Word
  mask : Word
  command : Word → Instr

/-- The opcode map (R54). -/
def opTable : List OpRow :=
  [ ⟨"nop", 0x00000000, 0xFFFFFFFF, fun _ => .nop⟩,
    ⟨"rc.clear", 0x01000000, 0xFFFFFFFF, fun _ => .rcClear⟩,
    ⟨"rc.feed", 0x02000000, 0xFF00FFFF, fun w => .rcFeed (fieldB1 w)⟩,
    ⟨"rc.roll", 0x03000000, 0xFF0000FF, fun w => .rcRoll (fieldB1 w) (fieldB2 w)⟩,
    ⟨"xfeed", 0x04000000, 0xFF00FFFF, fun w => .xfeed (fieldB1 w)⟩,
    ⟨"sh.start", 0x10000000, 0xFFFFFFFF, fun _ => .shStart⟩,
    ⟨"sh.feed", 0x11000000, 0xFF00FFFF, fun w => .shFeed (fieldB1 w)⟩,
    ⟨"sh.final", 0x12000000, 0xFFFFFFFF, fun _ => .shFinal⟩,
    ⟨"ix.clear", 0x20000000, 0xFFFFFFFF, fun _ => .ixClear⟩,
    ⟨"ix.setbl", 0x21000000, 0xFFFEFFFF, fun w => .ixSetbl (flagB1 w)⟩,
    ⟨"ix.append", 0x22000000, 0xFFFEFFFF, fun w => .ixAppend (srcOfBit (flagB1 w))⟩,
    ⟨"ix.lookup", 0x23000000, 0xFFFEFFFF, fun w => .ixLookup (srcOfBit (flagB1 w))⟩,
    ⟨"ix.match", 0x24000000, 0xFFFEFFFF, fun w => .ixMatch (srcOfBit (flagB1 w))⟩,
    ⟨"ix.read", 0x25000000, 0xFFFFFFFF, fun _ => .ixRead⟩ ]

/-- The row of an opcode: "if op not in {...}" asks whether there is one (R55). -/
def rowOf (op : Byte) : Option OpRow := opTable.find? (fun r => fieldOp r.pattern == op)

/-- A word against the row of its opcode: a nonzero reserved bit is RSVD_FIELD (R55). -/
def decodeRow (w : Word) : Option OpRow → Decoded
  | none => .illegalOp
  | some r => if w &&& r.mask = r.pattern then .command (r.command w) else .rsvdField

/-- Decoding a command word in the order of R55: an opcode outside the map is ILLEGAL_OP, then a nonzero reserved bit is
RSVD_FIELD, else the word is its command. -/
def decode (w : Word) : Decoded := decodeRow w (rowOf (fieldOp w))

/-- The command of a word, if it has one. -/
def Decoded.toOption : Decoded → Option Instr
  | .illegalOp => none
  | .rsvdField => none
  | .command i => some i

/-- The host's reading of a table row's bits: SRME words are single 32-bit words (R52, R57), so the bits are the word. -/
def decodeTableWord (nbits w : Nat) : Option Instr :=
  (decode (BitVec.ofNat 32 (w % 2 ^ nbits))).toOption

/-- Four bytes as a word, `b3 ++ b2 ++ b1 ++ b0`: the first forms the high bits (R8). -/
def wordOfBytes (b3 b2 b1 b0 : Byte) : Word :=
  b3.setWidth 32 <<< 24 ||| b2.setWidth 32 <<< 16 ||| b1.setWidth 32 <<< 8 ||| b0.setWidth 32

/-- A command word from its fields OP, B1 and B2, with Z = 0 (R52). -/
def cmdWord (op b1 b2 : Byte) : Word := wordOfBytes op b1 b2 0

/-- A flag operand as the field B1, with bits [7:1] zero (R54). -/
def flagByte (bit : Bool) : Byte := if bit then 1 else 0

/-- The word of a command (R58). -/
def encode : Instr → Word
  | .nop => cmdWord 0x00 0 0
  | .rcClear => cmdWord 0x01 0 0
  | .rcFeed b => cmdWord 0x02 b 0
  | .rcRoll out inc => cmdWord 0x03 out inc
  | .xfeed b => cmdWord 0x04 b 0
  | .shStart => cmdWord 0x10 0 0
  | .shFeed b => cmdWord 0x11 b 0
  | .shFinal => cmdWord 0x12 0 0
  | .ixClear => cmdWord 0x20 0 0
  | .ixSetbl chk => cmdWord 0x21 (flagByte chk) 0
  | .ixAppend src => cmdWord 0x22 (flagByte (bitOfSrc src)) 0
  | .ixLookup src => cmdWord 0x23 (flagByte (bitOfSrc src)) 0
  | .ixMatch src => cmdWord 0x24 (flagByte (bitOfSrc src)) 0
  | .ixRead => cmdWord 0x25 0 0

end Sys2Proof
end

