-- ==== Sys2Proof/Config.lean ====
section
/-! DEFINITION. The implementation parameters of spec/00_scope.md R6. No source fixes them, so none has a body a proof could
use: a claim about the model holds for every legal value (logs 5, 6, 7, 8). -/

namespace Sys2Proof.Config

/-- The delegated digest: a total function from byte sequences to 32-byte values, and no more is assumed of it (R6, R74;
log 5). -/
opaque sha256 : List Byte → Hash

/-- `IX_CAP - 1`, any number below 2^32 - 1. -/
opaque ixCapPred : Fin 4294967295

/-- `IX_CAP`, the number of blocks the IX unit can hold, 1 ≤ IX_CAP ≤ 2^32 - 1 (R6; log 6). -/
def ixCap : Nat := ixCapPred.val + 1

/-- `BASE / 0x100`, any number. -/
opaque basePage : Nat

/-- `BASE`, the bus address of offset 0x000, aligned to 0x100 (R6, R35; log 7). -/
def base : Nat := 0x100 * basePage

/-- `LAT(op) - 1`, any number. -/
opaque latencyPred : Instr → Nat

/-- `LAT(op)`, a positive number of cycles. "The model uses no timing" (R6, R107): nothing reads it (log 8). -/
def latency (i : Instr) : Nat := latencyPred i + 1

/-- How many of the bytes that are there a failing copy of applyDelta has written, where the spec says only that there is no
rollback (R121, I2; log 21). It is used by the host's patch procedure alone. -/
opaque shortCopy : Nat → Nat

end Sys2Proof.Config
end

