-- ==== Sys2Proof/Machine/State.lean ====
section
/-! DEFINITION. The state of the block as spec/10_state.md R15 lists it, with the host's side of the bus as plain data beside
it; the reasons a step can stop; and the state after reset (R34). -/

namespace Sys2Proof.Machine

/-- The error codes STATUS.ERR can hold (spec/60_exceptions.md R91). "Codes 0x09–0xFF are never produced", so the type has no
other value (I10). -/
inductive ErrCode
  | noError
  | illegalOp
  | rsvdField
  | config
  | state
  | full
  | range
  | noDigest
  | shOverflow
  deriving DecidableEq, Repr

/-- PEND (R15, R30): the accepted command word and the operands latched with it (spec/20_memory.md R46). -/
structure Pending where
  word : Word
  arg0 : Word
  arg1 : Word
  hin : Hash
  deriving DecidableEq, Repr

/-- What the bus answers to an access that gets a normal response: an acknowledged write, or the value read (R42). -/
inductive Response
  | ok
  | data (v : Word)
  deriving DecidableEq, Repr

/-- Why a step ends in a fault: the three bus errors. Each is raised by an access of the host in Machine/Bus.lean and changes
no state; "A model treats such an access as a fault of the host's step" (R40). Safe: the model stops where the block would
answer a later access (log 4). -/
inductive Fault
  /-- An access of a width other than 32 bits (R40). Raised by `busAccess`. Safe. -/
  | busWidth
  /-- An access at an offset that is not a multiple of 4 (R40). Raised by `busAccess`. Safe. -/
  | busMisaligned
  /-- An aligned 32-bit access to an unmapped offset (R41). Raised by `busAccess`. Safe. -/
  | busUnmapped
  deriving DecidableEq, Repr

/-- Why the model refuses. -/
inductive Refusal
  /-- An instruction with no meaning yet; raised only in an arm of `exec`, and no arm raises it. Safe. -/
  | notModelled (mnemonic : String)
  /-- A delta scan with BLOCKLEN = 0: "A model refuses such a scan" (spec/48_host_procedures.md R125). Raised by the host
  procedure `computeDelta`, by no command. Safe. -/
  | scanWithZeroBlockLength
  deriving DecidableEq, Repr

/-- The state. The fields down to `pend` are the block's (R15); `inputs` and `responses` are the host's side of the bus
(log 1, log 16). -/
structure State where
  a : Half
  b : Half
  count : Half
  msg : List Byte
  shLen : Word
  digest : Hash
  shValid : Bool
  blockLen : Word
  n : Word
  hashes : List Hash
  map : List (Word × Word)
  arg0 : Word
  arg1 : Word
  hin : Hash
  resId : Word
  resWeak : Word
  resHash : Hash
  busy : Bool
  hit : Bool
  whit : Bool
  lost : Bool
  dropped : Bool
  err : ErrCode
  errInfo : Word
  pend : Option Pending
  inputs : List Input
  responses : List Response
  deriving DecidableEq, Repr

/-- The state after reset (R34), with nothing waiting on the host's side (log 25). -/
def State.reset : State where
  a := 0
  b := 0
  count := 0
  msg := []
  shLen := 0
  digest := zeroHash
  shValid := false
  blockLen := 32
  n := 0
  hashes := []
  map := []
  arg0 := 0
  arg1 := 0
  hin := zeroHash
  resId := 0
  resWeak := 0
  resHash := zeroHash
  busy := false
  hit := false
  whit := false
  lost := false
  dropped := false
  err := .noError
  errInfo := 0
  pend := none
  inputs := []
  responses := []

end Sys2Proof.Machine
end

