-- ==== Sys2Proof/Machine/Ops.lean ====
section
/-! DEFINITION. The shared operations: the functions of spec/00_scope.md R11, the tables of the IX unit, what the RC, SH and IX
units do to the state, taking an error and clearing it (spec/60_exceptions.md R92, R93, R95), accepting and retiring a command
(spec/20_memory.md R45, R46) and resetting the block (spec/70_reset_and_hazards.md R103, R104). -/

namespace Sys2Proof.Machine

/-! ## The functions of R11 -/

/-- `zext_16` of a byte: operands are never sign-extended (R9, R53). -/
def zext16 (x : Byte) : Half := x.setWidth 16

/-- `SUM(a, b)`, the weak checksum `(b << 16) | a` (R11, R19). -/
def sumOf (a b : Half) : Word := b.setWidth 32 <<< 16 ||| a.setWidth 32

/-- The sum of the bytes of a window, before it is taken modulo 2^16 (R11). -/
def byteSum : List Byte → Nat
  | [] => 0
  | x :: xs => x.toNat + byteSum xs

/-- The sum of `(n - i) * s[i]` over a window of n bytes, before it is taken modulo 2^16 (R11): its first byte has weight n,
the length of the window. -/
def weightedSum : List Byte → Nat
  | [] => 0
  | x :: xs => (xs.length + 1) * x.toNat + weightedSum xs

/-- `W(s)`, the closed-form checksum triple (a, b, count) of a window (R11, R61). -/
def weakTriple (window : List Byte) : Half × Half × Half :=
  (BitVec.ofNat 16 (byteSum window), BitVec.ofNat 16 (weightedSum window), BitVec.ofNat 16 window.length)

/-- `HASHWORDS(h)[k]`: byte 4k in bits [31:24] down to byte 4k+3 in bits [7:0] (R11, R38). -/
def hashWord (h : Hash) (k : Fin 8) : Word :=
  wordOfBytes h[4 * k.val] h[4 * k.val + 1] h[4 * k.val + 2] h[4 * k.val + 3]

/-- Writing word k of a hash register: the word's bits [31-8j : 24-8j] become byte 4k+j (R38). -/
def setHashWord (h : Hash) (k : Fin 8) (v : Word) : Hash :=
  (((h.set (4 * k.val) (v.extractLsb' 24 8)).set (4 * k.val + 1) (v.extractLsb' 16 8)).set
    (4 * k.val + 2) (v.extractLsb' 8 8)).set (4 * k.val + 3) (v.extractLsb' 0 8)

/-! ## The tables of the IX unit -/

/-- MAP's canonical form: keys strictly rising, so that equal maps are equal lists (R24; log 19). -/
abbrev mapWf (m : List (Word × Word)) : Prop := m.Pairwise (fun p q => p.1.toNat < q.1.toNat)

/-- `MAP[w]`, if `w` is a key (R24). -/
def mapFind (w : Word) : List (Word × Word) → Option Word
  | [] => none
  | (k, id) :: m => if k = w then some id else mapFind w m

/-- "(MAP without key w) with w -> id" (R78), in canonical form. -/
def mapInsert (w id : Word) : List (Word × Word) → List (Word × Word)
  | [] => [(w, id)]
  | (k, j) :: m =>
    if w.toNat < k.toNat then (w, id) :: (k, j) :: m
    else if k = w then (w, id) :: m
    else (k, j) :: mapInsert w id m

/-- The key that maps to block `id`, if there is one; "at most one such k" (R81, R25; log 10). -/
def mapKeyOf (id : Word) : List (Word × Word) → Option Word
  | [] => none
  | (k, j) :: m => if j = id then some k else mapKeyOf id m

/-- `HASHES[i]`. Only entries below N can be observed (R23); the list holds exactly those (log 9, log 10). -/
def State.hashAt (s : State) (i : Word) : Hash := s.hashes.getD i.toNat zeroHash

/-! ## The RC unit -/

/-- Writing A, B and COUNT. -/
def State.setRc (a b count : Half) (s : State) : State := { s with a := a, b := b, count := count }

/-- Appending a byte at the back of the window: B takes the new A (R63, R65). -/
def State.feedRc (x : Byte) (s : State) : State :=
  s.setRc (s.a + zext16 x) (s.b + (s.a + zext16 x)) (s.count + 1)

/-- Dropping `out` at the front of the window and gaining `inc` at its back, with the unchanged COUNT (R64). -/
def State.rollRc (out inc : Byte) (s : State) : State :=
  s.setRc (s.a - zext16 out + zext16 inc)
    (s.b - s.count * zext16 out + (s.a - zext16 out + zext16 inc)) s.count

/-- RC_SUM (R19). -/
def State.sum (s : State) : Word := sumOf s.a s.b

/-! ## The SH unit -/

/-- "the message already holds 2^32 − 1 bytes" (R71). -/
def State.shFull (s : State) : Bool := s.shLen == 0xFFFFFFFF

/-- Beginning a new message; DIGEST is unchanged (R70). -/
def State.startSh (s : State) : State := { s with msg := [], shLen := 0, shValid := false }

/-- Appending a byte to the message (R71, R65). -/
def State.feedSh (x : Byte) (s : State) : State :=
  { s with msg := s.msg ++ [x], shLen := s.shLen + 1, shValid := false }

/-- Digesting the message, which stays in place (R72). -/
def State.finalSh (s : State) : State := { s with digest := Config.sha256 s.msg, shValid := true }

/-! ## The IX unit -/

/-- Emptying the tables; BLOCKLEN, the results and the flags stay (R76). The entries of HASHES become unobservable (log 9). -/
def State.clearIx (s : State) : State := { s with n := 0, hashes := [], map := [] }

/-- Writing BLOCKLEN (R77). -/
def State.setBlockLen (v : Word) (s : State) : State := { s with blockLen := v }

/-- Appending a block: `HASHES[N] <- h`, the newest id wins in MAP, `RES_ID <- N`, `N <- N +32 1` (R78). -/
def State.appendBlock (w : Word) (h : Hash) (s : State) : State :=
  { s with hashes := s.hashes.take s.n.toNat ++ [h], map := mapInsert w s.n s.map, resId := s.n, n := s.n + 1 }

/-- Writing the results of a read-back: RES_ID, RES_HASH, and RES_WEAK with LOST (R81). A lost entry has weak checksum 0. -/
def State.setReadBack (id : Word) (h : Hash) (key : Option Word) (s : State) : State :=
  { s with resId := id, resHash := h, resWeak := key.getD 0, lost := key.isNone }

/-! ## Errors -/

/-- Error entry: the code and the command word are recorded, "nothing else changes" (R92). -/
def State.raiseError (code : ErrCode) (word : Word) (s : State) : State := { s with err := code, errInfo := word }

/-- A command dropped because ERR ≠ 0 (R93). -/
def State.dropCommand (s : State) : State := { s with dropped := true }

/-- The return from an error: "ERR ← 0 and ERRINFO ← 0" (R95, R32). -/
def State.clearError (s : State) : State := { s with err := .noError, errInfo := 0 }

/-- Clearing DROPPED (R95, R32). -/
def State.clearDropped (s : State) : State := { s with dropped := false }

/-! ## Acceptance, completion and reset -/

/-- Acceptance of a CMD write: the word and the operand registers are latched and BUSY rises (R29, R46). -/
def State.accept (word : Word) (s : State) : State :=
  { s with busy := true, pend := some ⟨word, s.arg0, s.arg1, s.hin⟩ }

/-- Completion: BUSY falls and no command is in flight (R29, R92). -/
def State.retire (s : State) : State := { s with busy := false, pend := none }

/-- A hardware or soft reset: "every piece of state takes the value in 10_state.md rule R34" (R103, R104). The host's accesses
and the answers it has had are not the block's. -/
def State.resetBlock (s : State) : State :=
  { State.reset with inputs := s.inputs, responses := s.responses }

/-- The bus answers the host (log 16). -/
def State.respond (r : Response) (s : State) : State := { s with responses := s.responses ++ [r] }

/-- Writing an operand register (R26, R42). -/
def State.setArg0 (v : Word) (s : State) : State := { s with arg0 := v }

/-- Writing an operand register (R26, R42). -/
def State.setArg1 (v : Word) (s : State) : State := { s with arg1 := v }

/-- Writing word k of HIN (R26, R38, R42). -/
def State.setHin (k : Fin 8) (v : Word) (s : State) : State := { s with hin := setHashWord s.hin k v }

/-- The host's accesses still to come. -/
def State.setInputs (l : List Input) (s : State) : State := { s with inputs := l }

end Sys2Proof.Machine
end

