-- ==== Sys2Proof/Machine/Operands.lean ====
section
/-! DEFINITION. Where a command takes its operands from: the values latched at acceptance (spec/20_memory.md R46) or the
block's own RC_SUM and DIGEST (spec/30_encoding.md R53, spec/42_block_index.md R78 to R81). -/

namespace Sys2Proof.Machine

/-- ARG0 as latched at acceptance; with no command in flight, the register acceptance would latch (R46; log 15). -/
def State.latchedArg0 (s : State) : Word :=
  match s.pend with
  | some p => p.arg0
  | none => s.arg0

/-- ARG1 as latched at acceptance (R46; log 15). -/
def State.latchedArg1 (s : State) : Word :=
  match s.pend with
  | some p => p.arg1
  | none => s.arg1

/-- HIN as latched at acceptance (R46; log 15). -/
def State.latchedHin (s : State) : Hash :=
  match s.pend with
  | some p => p.hin
  | none => s.hin

/-- The weak key `w`: `SUM(A, B)` for SRC = 0, ARG0 for SRC = 1 (R78, R79, R80). -/
def State.weakOperand (src : Src) (s : State) : Word :=
  match src with
  | .rc => s.sum
  | .host => s.latchedArg0

/-- The strong hash `h`: DIGEST for SRC = 0, HIN for SRC = 1 (R78, R80). -/
def State.hashOperand (src : Src) (s : State) : Hash :=
  match src with
  | .rc => s.digest
  | .host => s.latchedHin

/-- "SRC = 0 and SH_VALID = 0": the digest asked for is not that of MSG (R21, R78, R80). -/
def State.digestMissing (src : Src) (s : State) : Bool :=
  match src with
  | .rc => !s.shValid
  | .host => false

end Sys2Proof.Machine
end

