-- ==== Sys2Proof/Machine/Flags.lean ====
section
/-! DEFINITION. The status flags (spec/10_state.md R29, R32): the error codes' numbers, the lookup flags, STATUS as the host
reads it, and what a write to STATUS clears. -/

namespace Sys2Proof.Machine

/-- The number of an error code (spec/60_exceptions.md R91). -/
def ErrCode.code : ErrCode → Byte
  | .noError => 0x00
  | .illegalOp => 0x01
  | .rsvdField => 0x02
  | .config => 0x03
  | .state => 0x04
  | .full => 0x05
  | .range => 0x06
  | .noDigest => 0x07
  | .shOverflow => 0x08

/-- The flags and RES_ID after ix.lookup or ix.match: `found` is MAP at the weak key, `agrees` the strong comparison for
that block id. A miss clears all three (R79, R80). -/
def State.setLookup (found : Option Word) (agrees : Word → Bool) (s : State) : State :=
  match found with
  | some id => { s with whit := true, hit := agrees id, resId := id }
  | none => { s with whit := false, hit := false, resId := 0 }

/-- A flag at bit `i` of a word. -/
def flagAt (i : Nat) (flag : Bool) : Word := (BitVec.ofBool flag).setWidth 32 <<< i

/-- STATUS as a read gives it; reserved bits and ERRCLR read 0 (R32). -/
def State.statusWord (s : State) : Word :=
  flagAt 0 s.busy ||| flagAt 1 s.hit ||| flagAt 2 s.whit ||| flagAt 3 s.lost ||| flagAt 4 s.shValid |||
    flagAt 5 s.dropped ||| s.err.code.setWidth 32 <<< 8

/-- A write to STATUS "changes only DROPPED and ERR/ERRINFO, and only where the written bit is 1": bit 5 clears DROPPED, bit
31 is ERRCLR (R32, R95). -/
def State.writeStatus (v : Word) (s : State) : State :=
  let s := if v.getLsbD 5 then s.clearDropped else s
  if v.getLsbD 31 then s.clearError else s

/-- A write to CTRL: bit 0 is SRST, the other bits are ignored (R33, R104). -/
def State.writeCtrl (v : Word) (s : State) : State := if v.getLsbD 0 then s.resetBlock else s

end Sys2Proof.Machine
end

