-- ==== Sys2Proof/Machine/Bus.lean ====
section
/-! DEFINITION. The host interface: the register map (spec/10_state.md R31 to R33), what a read gives and a write does
(spec/20_memory.md R40 to R43), and which events reach the block while a command is in flight (R47). -/

namespace Sys2Proof.Machine

/-- The word `k` of a group of eight registers at offset `o`, 4 bytes each. -/
def wordIndex (first o : Nat) : Fin 8 := Fin.ofNat 8 ((o - first) / 4)

/-- The register at an offset, or none at an unmapped offset; an offset is looked up only when it is aligned (R31, R41). -/
def regAt (off : Offset) : Option Reg :=
  let o := off.toNat
  if o = 0x000 then some .cmd
  else if o = 0x004 then some .status
  else if o = 0x008 then some .ctrl
  else if o = 0x00C then some .errInfo
  else if o = 0x010 then some .arg0
  else if o = 0x014 then some .arg1
  else if 0x020 ≤ o ∧ o < 0x040 then some (.hin (wordIndex 0x020 o))
  else if o = 0x040 then some .rcA
  else if o = 0x044 then some .rcB
  else if o = 0x048 then some .rcCount
  else if o = 0x04C then some .rcSum
  else if o = 0x050 then some .shLen
  else if 0x060 ≤ o ∧ o < 0x080 then some (.digest (wordIndex 0x060 o))
  else if o = 0x080 then some .ixN
  else if o = 0x084 then some .ixBlockLen
  else if o = 0x088 then some .ixCap
  else if o = 0x090 then some .resId
  else if o = 0x094 then some .resWeak
  else if 0x0A0 ≤ o ∧ o < 0x0C0 then some (.resHash (wordIndex 0x0A0 o))
  else none

/-- The offset of a register (R31). -/
def regOffset : Reg → Offset
  | .cmd => 0x00
  | .status => 0x04
  | .ctrl => 0x08
  | .errInfo => 0x0C
  | .arg0 => 0x10
  | .arg1 => 0x14
  | .hin k => BitVec.ofNat 8 (0x20 + 4 * k.val)
  | .rcA => 0x40
  | .rcB => 0x44
  | .rcCount => 0x48
  | .rcSum => 0x4C
  | .shLen => 0x50
  | .digest k => BitVec.ofNat 8 (0x60 + 4 * k.val)
  | .ixN => 0x80
  | .ixBlockLen => 0x84
  | .ixCap => 0x88
  | .resId => 0x90
  | .resWeak => 0x94
  | .resHash k => BitVec.ofNat 8 (0xA0 + 4 * k.val)

/-- The host's bus address of a register: the window lies at `BASE` (R35). -/
def busAddress (r : Reg) : Nat := Config.base + (regOffset r).toNat

/-- What a read of a register gives (R31 to R33, R42). CMD and CTRL hold nothing that reads back. -/
def readReg (r : Reg) (s : State) : Word :=
  match r with
  | .cmd => 0
  | .status => s.statusWord
  | .ctrl => 0
  | .errInfo => s.errInfo
  | .arg0 => s.arg0
  | .arg1 => s.arg1
  | .hin k => hashWord s.hin k
  | .rcA => s.a.setWidth 32
  | .rcB => s.b.setWidth 32
  | .rcCount => s.count.setWidth 32
  | .rcSum => s.sum
  | .shLen => s.shLen
  | .digest k => hashWord s.digest k
  | .ixN => s.n
  | .ixBlockLen => s.blockLen
  | .ixCap => BitVec.ofNat 32 Config.ixCap
  | .resId => s.resId
  | .resWeak => s.resWeak
  | .resHash k => hashWord s.resHash k

/-- What a write to a register does; a write to a read-only register is ignored (R42, R43). -/
def writeReg (r : Reg) (v : Word) (s : State) : State :=
  match r with
  | .cmd => s.accept v
  | .status => s.writeStatus v
  | .ctrl => s.writeCtrl v
  | .errInfo => s
  | .arg0 => s.setArg0 v
  | .arg1 => s.setArg1 v
  | .hin k => s.setHin k v
  | .rcA => s
  | .rcB => s
  | .rcCount => s
  | .rcSum => s
  | .shLen => s
  | .digest _ => s
  | .ixN => s
  | .ixBlockLen => s
  | .ixCap => s
  | .resId => s
  | .resWeak => s
  | .resHash _ => s

/-- An access to a register the window maps, with its answer to the host (R42, R44). -/
def accessReg (r : Reg) (kind : AccessKind) (s : State) : State :=
  match kind with
  | .read => s.respond (.data (readReg r s))
  | .write v => (writeReg r v s).respond .ok

/-- A bus access, with nothing in flight that holds it. A wrong width, a misaligned offset and an unmapped offset get a bus
error, a fault of the host's step (R40, R41; log 4, log 18). -/
def busAccess (a : Access) (s : State) : Host.Outcome State Fault Refusal :=
  if a.wordWide = false then .fault .busWidth
  else if a.aligned = false then .fault .busMisaligned
  else match regAt a.off with
    | none => .fault .busUnmapped
    | some r => .next (accessReg r a.kind s)

/-- An event takes effect on the block: an access, or the reset input (R103). -/
def takeEvent (e : Event) (s : State) : Host.Outcome State Fault Refusal :=
  match e with
  | .bus a => busAccess a s
  | .resetLine => .next s.resetBlock

/-- The events a command in flight does not hold: "A read of STATUS is answered at once ... A write to CTRL is taken at
once" (R47), and the reset input (R94, R103). -/
def unheld (e : Event) : Bool :=
  match e with
  | .resetLine => true
  | .bus a =>
    a.wellFormed &&
      match regAt a.off, a.kind with
      | some .status, .read => true
      | some .ctrl, .write _ => true
      | _, _ => false

/-- An input that reaches the block while the command in flight is not complete (R47; log 1). -/
def overtakes (i : Input) : Bool := i.early && unheld i.event

/-- The 32-bit access at a register's offset, as a host program makes it (R58). -/
def regAccess (r : Reg) (kind : AccessKind) : Access := ⟨kind, 32, regOffset r⟩

end Sys2Proof.Machine
end

