-- ==== Sys2Proof/Machine/BlockIndex.lean ====
section
/-! DEFINITION. The commands of the IX unit (spec/42_block_index.md R76 to R81). Their own errors come in the order of R94. -/

namespace Sys2Proof.Machine

/-- `ix.clear` (R76). -/
def execIxClear (s : State) : Host.Outcome State Fault Refusal := .next s.clearIx

/-- `ix.setbl chk`: STATE if the table is not empty, then CONFIG if the check is asked for and ARG0 < 32 (R77). -/
def execIxSetbl (chk : Bool) (s : State) : Host.Outcome State Fault Refusal :=
  if s.n ≠ 0 then .next (s.raiseError .state (encode (.ixSetbl chk)))
  else if chk = true ∧ s.latchedArg0.toNat < 32 then .next (s.raiseError .config (encode (.ixSetbl chk)))
  else .next (s.setBlockLen s.latchedArg0)

/-- `ix.append src`: NO_DIGEST, then FULL, else one more block (R78). -/
def execIxAppend (src : Src) (s : State) : Host.Outcome State Fault Refusal :=
  if s.digestMissing src then .next (s.raiseError .noDigest (encode (.ixAppend src)))
  else if s.n.toNat = Config.ixCap then .next (s.raiseError .full (encode (.ixAppend src)))
  else .next (s.appendBlock (s.weakOperand src) (s.hashOperand src))

/-- `ix.lookup src`: the strong hash is not used, so a weak hit is a hit (R79). -/
def execIxLookup (src : Src) (s : State) : Host.Outcome State Fault Refusal :=
  .next (s.setLookup (mapFind (s.weakOperand src) s.map) (fun _ => true))

/-- `ix.match src`: NO_DIGEST, else the weak lookup confirmed by all 32 bytes of the stored hash (R80, R75). -/
def execIxMatch (src : Src) (s : State) : Host.Outcome State Fault Refusal :=
  if s.digestMissing src then .next (s.raiseError .noDigest (encode (.ixMatch src)))
  else .next (s.setLookup (mapFind (s.weakOperand src) s.map) (fun id => s.hashAt id == s.hashOperand src))

/-- `ix.read`: RANGE if there is no block ARG1, else its entry (R81). -/
def execIxRead (s : State) : Host.Outcome State Fault Refusal :=
  if s.n.toNat ≤ s.latchedArg1.toNat then .next (s.raiseError .range (encode .ixRead))
  else .next (s.setReadBack s.latchedArg1 (s.hashAt s.latchedArg1) (mapKeyOf s.latchedArg1 s.map))

end Sys2Proof.Machine
end

