-- ==== Sys2Proof/Machine/Control.lean ====
section
/-! DEFINITION. The control command nop (spec/43_control.md R87). -/

namespace Sys2Proof.Machine

/-- `nop` does nothing (R87). -/
def execNop (s : State) : Host.Outcome State Fault Refusal := .next s

end Sys2Proof.Machine
end

