-- ==== Sys2Proof/Machine/RollingChecksum.lean ====
section
/-! DEFINITION. The commands of the RC unit (spec/40_rolling_checksum.md R62 to R65). -/

namespace Sys2Proof.Machine

/-- `rc.clear`: the checksum of the empty window (R62). -/
def execRcClear (s : State) : Host.Outcome State Fault Refusal := .next (s.setRc 0 0 0)

/-- `rc.feed b` (R63). -/
def execRcFeed (x : Byte) (s : State) : Host.Outcome State Fault Refusal := .next (s.feedRc x)

/-- `rc.roll out, in` (R64). -/
def execRcRoll (out inc : Byte) (s : State) : Host.Outcome State Fault Refusal := .next (s.rollRc out inc)

/-- `xfeed b`: both units, or SH_OVERFLOW before either changes (R65). -/
def execXfeed (x : Byte) (s : State) : Host.Outcome State Fault Refusal :=
  if s.shFull then .next (s.raiseError .shOverflow (encode (.xfeed x)))
  else .next ((s.feedRc x).feedSh x)

end Sys2Proof.Machine
end

