-- ==== Sys2Proof/Machine/StrongHash.lean ====
section
/-! DEFINITION. The commands of the SH unit (spec/41_strong_hash.md R70 to R72). -/

namespace Sys2Proof.Machine

/-- `sh.start` (R70). -/
def execShStart (s : State) : Host.Outcome State Fault Refusal := .next s.startSh

/-- `sh.feed b`, SH_OVERFLOW when the message is at its limit (R71). -/
def execShFeed (x : Byte) (s : State) : Host.Outcome State Fault Refusal :=
  if s.shFull then .next (s.raiseError .shOverflow (encode (.shFeed x)))
  else .next (s.feedSh x)

/-- `sh.final` (R72). -/
def execShFinal (s : State) : Host.Outcome State Fault Refusal := .next s.finalSh

end Sys2Proof.Machine
end

