-- ==== Sys2Proof/Machine/Dispatch.lean ====
section
/-! DEFINITION. One arm per command of spec/30_encoding.md R54. -/

namespace Sys2Proof.Machine

def exec (i : Instr) (s : State) : Host.Outcome State Fault Refusal :=
  match i with
  | .nop => Sys2Proof.Machine.execNop s
  | .rcClear => Sys2Proof.Machine.execRcClear s
  | .rcFeed x => Sys2Proof.Machine.execRcFeed x s
  | .rcRoll out inc => Sys2Proof.Machine.execRcRoll out inc s
  | .xfeed x => Sys2Proof.Machine.execXfeed x s
  | .shStart => Sys2Proof.Machine.execShStart s
  | .shFeed x => Sys2Proof.Machine.execShFeed x s
  | .shFinal => Sys2Proof.Machine.execShFinal s
  | .ixClear => Sys2Proof.Machine.execIxClear s
  | .ixSetbl chk => Sys2Proof.Machine.execIxSetbl chk s
  | .ixAppend src => Sys2Proof.Machine.execIxAppend src s
  | .ixLookup src => Sys2Proof.Machine.execIxLookup src s
  | .ixMatch src => Sys2Proof.Machine.execIxMatch src s
  | .ixRead => Sys2Proof.Machine.execIxRead s

end Sys2Proof.Machine
end

