-- ==== Sys2Proof/Machine/Completion.lean ====
section
/-! DEFINITION. What moves the machine: the completion of the command in flight (spec/30_encoding.md R55, spec/60_exceptions.md
R92, R93), the order of the block's and the host's moves (spec/20_memory.md R45 to R47), and where a command stands when the
machine is about to run it. -/

namespace Sys2Proof.Machine

/-- Doing `f` after an outcome that goes on. -/
def andThen {σ τ φ ρ : Type} (o : Host.Outcome σ φ ρ) (f : σ → Host.Outcome τ φ ρ) : Host.Outcome τ φ ρ :=
  match o with
  | .next s => f s
  | .fault r => .fault r
  | .refused r => .refused r

/-- What an accepted word does before it retires: dropped before decoding while ERR ≠ 0 (R93); else decoded, and a decode error
is raised like any other (R55); else its command is executed. -/
def runWord (word : Word) (s : State) : Host.Outcome State Fault Refusal :=
  if s.err ≠ .noError then .next s.dropCommand
  else match decode word with
    | .illegalOp => .next (s.raiseError .illegalOp word)
    | .rsvdField => .next (s.raiseError .rsvdField word)
    | .command i => exec i s

/-- The command in flight completes: all its effects at once, then BUSY falls (R45; log 3). -/
def completeCommand (p : Pending) (s : State) : Host.Outcome State Fault Refusal :=
  andThen (runWord p.word s) (fun t => .next t.retire)

/-- One move. With a command in flight it completes, unless the host's next access is one that is not held and comes early
(R47). With none in flight the next input takes effect. With nothing to do the block is idle, "with all state retained"
(R102; log 17). -/
def advance (s : State) : Host.Outcome State Fault Refusal :=
  match s.pend, s.inputs with
  | some p, [] => completeCommand p s
  | some p, i :: rest =>
    if overtakes i then takeEvent i.event (s.setInputs rest) else completeCommand p s
  | none, i :: rest => takeEvent i.event (s.setInputs rest)
  | none, [] => .next s

/-- The host's next input, if any, now waits for the command in flight. -/
def holdFirst : List Input → List Input
  | [] => []
  | i :: rest => { i with early := false } :: rest

/-- The state with a command word in the place the next move runs it from: accepted, with its operands latched from the
registers as they stand, and the host's next access behind it (log 2). -/
def placeCommand (word : Word) (s : State) : State :=
  (s.accept word).setInputs (holdFirst s.inputs)

end Sys2Proof.Machine
end

