-- ==== Sys2Proof/Machine/Step.lean ====
section
/-! DEFINITION. The step, and where it takes its next command from (log 2). -/

namespace Sys2Proof.Machine

/-- One step: one move of the block or of the host (spec/00_scope.md R14). -/
def step (s : State) : Host.Outcome State Fault Refusal := advance s

/-- The state in which the very next step runs the word with bits `w`: the block does not fetch (spec/20_memory.md R50), so the
word stands accepted, in PEND. -/
def State.withFetchWord (s : State) (nbits w : Nat) : State :=
  placeCommand (BitVec.ofNat 32 (w % 2 ^ nbits)) s

end Sys2Proof.Machine
end

