-- ==== Sys2Proof/Machine/Assembly.lean ====
section
/-! DEFINITION. Host programs as the spec writes them: the lines of the assembler (spec/30_encoding.md R58), the pseudo-
instructions (R59), and the host's view of the block as running them one at a time, in order (spec/20_memory.md R48). -/

namespace Sys2Proof.Machine

/-- A line of a host program (R58): a command, `.word v`, `wr REG, v`, `rd REG` or `wait`. -/
inductive AsmLine
  | command (i : Instr)
  | word (w : Word)
  | wr (r : Reg) (v : Word)
  | rd (r : Reg)
  | wait
  deriving DecidableEq, Repr

/-- The bus access of a line (R58). `wait` is a STATUS read that is held until the command in flight completes, the last of the
reads its polling makes (R49). -/
def AsmLine.event : AsmLine → Event
  | .command i => .bus (regAccess .cmd (.write (encode i)))
  | .word w => .bus (regAccess .cmd (.write w))
  | .wr r v => .bus (regAccess r (.write v))
  | .rd r => .bus (regAccess r .read)
  | .wait => .bus (regAccess .status .read)

/-- A line as an input of the machine, in program order behind the command in flight. -/
def AsmLine.input (l : AsmLine) : Input := ⟨false, l.event⟩

/-- The text of a flag operand naming a source (R58). -/
def srcText : Src → String
  | .rc => "src=rc"
  | .host => "src=host"

/-- The assembler text of a command, byte operands in decimal (R58). -/
def asmText : Instr → String
  | .nop => "nop"
  | .rcClear => "rc.clear"
  | .rcFeed x => "rc.feed " ++ toString x.toNat
  | .rcRoll out inc => "rc.roll " ++ toString out.toNat ++ ", " ++ toString inc.toNat
  | .xfeed x => "xfeed " ++ toString x.toNat
  | .shStart => "sh.start"
  | .shFeed x => "sh.feed " ++ toString x.toNat
  | .shFinal => "sh.final"
  | .ixClear => "ix.clear"
  | .ixSetbl chk => if chk then "ix.setbl chk=1" else "ix.setbl chk=0"
  | .ixAppend src => "ix.append " ++ srcText src
  | .ixLookup src => "ix.lookup " ++ srcText src
  | .ixMatch src => "ix.match " ++ srcText src
  | .ixRead => "ix.read"

/-! ## The pseudo-instructions of R59 -/

/-- `rc.init s`: the source's `init(window)` (R59, R61). -/
def rcInit (window : List Byte) : List AsmLine :=
  .command .rcClear :: window.map (fun x => .command (.rcFeed x))

/-- `sh.digest s` (R59, R73). -/
def shDigest (window : List Byte) : List AsmLine :=
  .command .shStart :: window.map (fun x => .command (.shFeed x)) ++ [.command .shFinal]

/-- `sh.refeed s`: "same as `sh.digest s`", used after an rc.roll (R59). -/
def shRefeed (window : List Byte) : List AsmLine := shDigest window

/-- `x.init s`: the weak and the strong hash of a window together (R59, R73). -/
def xInit (window : List Byte) : List AsmLine :=
  .command .rcClear :: .command .shStart :: window.map (fun x => .command (.xfeed x)) ++ [.command .shFinal]

/-- `ix.put w, h`: a host-supplied pair of weak checksum and strong hash (R59). -/
def ixPut (w : Word) (h : Hash) : List AsmLine :=
  .wr .arg0 w :: (List.finRange 8).map (fun k => .wr (.hin k) (hashWord h k)) ++ [.command (.ixAppend .host)]

/-! ## One access at a time -/

/-- The command in flight, if any, completes. -/
def settle (s : State) : Host.Outcome State Fault Refusal :=
  match s.pend with
  | some p => completeCommand p s
  | none => .next s

/-- An event, and the command it issues if it is a CMD write, done as one, on a block with no command in flight (R48; log 28). -/
def atomically (e : Event) (s : State) : Host.Outcome State Fault Refusal := andThen (takeEvent e s) settle

/-- Events in the host's program order, each done before the next, "as if the block executed commands and accesses one at a
time in that order" (R48). -/
def runSequential : List Event → State → Host.Outcome State Fault Refusal
  | [], s => .next s
  | e :: es, s => andThen (atomically e s) (runSequential es)

/-- The lines of a host program, done in order, from a block with no command in flight (log 28). -/
def runLines (lines : List AsmLine) (s : State) : Host.Outcome State Fault Refusal :=
  runSequential (lines.map AsmLine.event) s

end Sys2Proof.Machine
end

