-- ==== Sys2Proof/Machine/HostProcedures.lean ====
section
/-! DEFINITION. The host's reference procedures (spec/48_host_procedures.md R108 to R125), software outside the block
(spec/00_scope.md R5 (b)) that drives it only through its register window. They keep the defects the spec keeps (R111, R116).
They begin with no command in flight: in what state a host may begin one, spec/48_host_procedures.md does not say (log 28). -/

namespace Sys2Proof.Machine

/-- The errors of the host's procedures (R122), and the block's errors a host reports (R106 (g), R115; log 27). -/
inductive HostError
  /-- ConfigError: an invalid block length (R108). Raised by `buildSignature`. Safe. -/
  | config
  /-- IOError: a read of a stream or of the basis, a seek or a write that fails, or a seek or copy that falls short (R109,
  R121, R122). Safe. -/
  | io
  /-- CorruptDataError: a truncated field or an unknown tag (R118, R120). Safe. -/
  | corruptData
  /-- The signature does not fit: ERR = FULL (R108). Safe. -/
  | capacity
  /-- Another error of the block (R115). Safe. -/
  | block (code : ErrCode)
  /-- A bus error, which no procedure causes. Safe. -/
  | bus (f : Fault)
  /-- A loop bound was reached, which the bounds chosen rule out (log 20). Safe. -/
  | bound
  deriving DecidableEq, Repr

/-- The outcome of a host procedure. -/
abbrev HostResult (α : Type) := Host.Outcome α HostError Refusal

/-- The outcome of the block's part of a procedure. -/
def fromBlock (o : Host.Outcome State Fault Refusal) : HostResult State :=
  match o with
  | .next s => .next s
  | .fault f => .fault (.bus f)
  | .refused r => .refused r

/-- Running lines on a block with no command in flight and testing STATUS.ERR after them (R105, R106 (g); log 27, log 28). -/
def runChecked (lines : List AsmLine) (s : State) : HostResult State :=
  andThen (fromBlock (runLines lines s)) fun t =>
    match t.err with
    | .noError => .next t
    | .full => .fault .capacity
    | code => .fault (.block code)

/-! ## Streams (R109) -/

/-- A host byte stream: the bytes left, and whether it fails where they stop instead of ending cleanly (R109; log 20). -/
structure Stream where
  bytes : List Byte
  broken : Bool
  deriving DecidableEq, Repr

/-- `read(n)`: "the next min(n, r) bytes", fewer only at end of stream; "any other read failure is IOError" (R109). -/
def Stream.read (n : Nat) (st : Stream) : HostResult (List Byte × Stream) :=
  if n ≤ st.bytes.length then .next (st.bytes.take n, { st with bytes := st.bytes.drop n })
  else if st.broken then .fault .io
  else .next (st.bytes, { st with bytes := [] })

/-- A field of fixed width: fewer bytes than its width are CorruptDataError (R118, R120). -/
def Stream.readField (n : Nat) (st : Stream) : HostResult (List Byte × Stream) :=
  andThen (st.read n) fun p => if p.1.length < n then .fault .corruptData else .next p

/-! ## What can fail below a procedure: seeks, reads and writes (R122) -/

/-- How much an underlying file still does before it fails: a number of units, or without limit (log 22). -/
abbrev Budget := Option Nat

/-- The budget covers `n` units. -/
def Budget.allows (n : Nat) (b : Budget) : Bool :=
  match b with
  | none => true
  | some left => n ≤ left

/-- The budget after `n` units. -/
def Budget.spend (n : Nat) (b : Budget) : Budget := b.map (· - n)

/-- The part of some bytes that the budget covers. -/
def Budget.cut (bytes : List Byte) (b : Budget) : List Byte :=
  match b with
  | none => bytes
  | some left => bytes.take left

/-- A host sink: the bytes it holds, and how many more it takes before a write fails (R122; log 22). -/
structure Sink where
  written : List Byte
  room : Budget
  deriving DecidableEq, Repr

/-- What a sink holds after a write, failed or not: "No partial-output rollback" (R121). -/
def Sink.put (bytes : List Byte) (out : Sink) : Sink :=
  ⟨out.written ++ out.room.cut bytes, out.room.spend bytes.length⟩

/-- A write: IOError if the sink fails before it holds all the bytes (R122). -/
def Sink.write (bytes : List Byte) (out : Sink) : HostResult Sink :=
  if out.room.allows bytes.length then .next (out.put bytes) else .fault .io

/-- A basis to patch from: its bytes, how many more seeks succeed, and how many more bytes its reads give before one fails
(R121, R122; log 22). -/
structure Basis where
  bytes : List Byte
  seeks : Budget
  reads : Budget
  deriving DecidableEq, Repr

/-- The seek to `start` succeeds: it does not fail, and it does not fall short (R121; log 21). -/
def Basis.canSeek (start : Nat) (basis : Basis) : Bool := basis.seeks.allows 1 && start ≤ basis.bytes.length

/-- What reading `length` bytes from `start` gives, all of them or those before the end or the failure (R121). -/
def Basis.readAt (start length : Nat) (basis : Basis) : List Byte :=
  basis.reads.cut ((basis.bytes.drop start).take length)

/-- The basis after a seek and a read of `length` bytes. -/
def Basis.spend (length : Nat) (basis : Basis) : Basis :=
  { basis with seeks := basis.seeks.spend 1, reads := basis.reads.spend length }

/-! ## Numbers in the formats (R39) -/

/-- A 32-bit number, most significant byte first (R39). -/
def bytesOfWord (w : Word) : List Byte :=
  [w.extractLsb' 24 8, w.extractLsb' 16 8, w.extractLsb' 8 8, w.extractLsb' 0 8]

/-- A 64-bit number, most significant byte first (R39). -/
def bytesOfLong (v : Long) : List Byte :=
  bytesOfWord (v.extractLsb' 32 32) ++ bytesOfWord (v.extractLsb' 0 32)

/-- The number a big-endian field holds (R39). -/
def numberOf (field : List Byte) : Nat := field.foldl (fun acc x => acc * 256 + x.toNat) 0

/-- A strong-hash field of 32 bytes (R118). -/
def hashOfBytes (field : List Byte) : Hash := Vector.ofFn fun i => field.getD i.val 0

/-- The bytes of a strong hash as the host reads them, eight registers in order (R38, R117). -/
def bytesOfHash (h : Hash) : List Byte := (List.finRange 8).flatMap fun k => bytesOfWord (hashWord h k)

/-! ## Signature construction (R108) -/

/-- The loop of R108: one block of up to L bytes a turn, until a clean end of stream. -/
def buildLoop : Nat → Nat → Stream → State → HostResult State
  | 0, _, _, _ => .fault .bound
  | turns + 1, blockLength, st, s =>
    andThen (st.read blockLength) fun p =>
      if p.1 = [] then .next s
      else andThen (runChecked (xInit p.1 ++ [.command (.ixAppend .rc)]) s) fun t =>
        buildLoop turns blockLength p.2 t

/-- `buildSignature(basis, L)` (R108): ConfigError if the block reports any error of the set-up. Begins with no command in flight
(log 28). -/
def buildSignature (basis : Stream) (blockLength : Word) (s : State) : HostResult State :=
  andThen (fromBlock (runLines [.command .ixClear, .wr .arg0 blockLength, .command (.ixSetbl true)] s)) fun t =>
    if t.err ≠ .noError then .fault .config
    else buildLoop (basis.bytes.length + 1) blockLength.toNat basis t

/-! ## Chunks (R110, R111) -/

/-- A chunk of a delta (R110). -/
inductive Chunk
  | reusable (start length : Long)
  | literal (data : List Byte)
  deriving DecidableEq, Repr

/-- Joining a chunk to the last one of its tag, "assuming, without verifying, contiguity"; none if the tags differ (R111). -/
def mergeChunk : Chunk → Chunk → Option Chunk
  | .reusable start length, .reusable _ more => some (.reusable start (length + more))
  | .literal data, .literal more => some (.literal (data ++ more))
  | .reusable _ _, .literal _ => none
  | .literal _, .reusable _ _ => none

/-- `append(delta, c)` (R111). -/
def deltaAppend : List Chunk → Chunk → List Chunk
  | [], c => [c]
  | [last], c =>
    match mergeChunk last c with
    | some joined => [joined]
    | none => [last, c]
  | first :: second :: rest, c => first :: deltaAppend (second :: rest) c

/-! ## The scan (R112 to R115, R125) -/

/-- The scan's two modes (R112). -/
inductive Mode
  | aligned
  | resync
  deriving DecidableEq, Repr

/-- What the host keeps during a scan, with the block it drives (R112). -/
structure Scan where
  block : State
  rest : Stream
  window : List Byte
  mode : Mode
  delta : List Chunk
  deriving DecidableEq, Repr

/-- The length of a window as a 64-bit number. -/
def lengthOf (window : List Byte) : Long := BitVec.ofNat 64 window.length

/-- `evaluate()` (R114): a hit emits a Reusable chunk at `blockId * windowLength`, a miss a Literal of the first byte. -/
def evaluateWindow (sc : Scan) : HostResult Scan :=
  andThen (runChecked [.command (.ixMatch .rc)] sc.block) fun t =>
    if t.hit then
      .next { sc with
        block := t
        mode := .aligned
        delta := deltaAppend sc.delta (.reusable (t.resId.setWidth 64 * lengthOf sc.window) (lengthOf sc.window)) }
    else
      .next { sc with block := t, mode := .resync, delta := deltaAppend sc.delta (.literal (sc.window.take 1)) }

/-- A turn of the scan: it stops (`Sum.inl`) or goes on (`Sum.inr`). -/
def scanTurn (blockLength : Nat) (sc : Scan) : HostResult (Scan ⊕ Scan) :=
  match sc.mode with
  | .aligned =>
    andThen (sc.rest.read blockLength) fun p =>
      if p.1 = [] then .next (.inl { sc with rest := p.2, window := [] })
      else andThen (runChecked (xInit p.1) sc.block) fun t =>
        andThen (evaluateWindow { sc with block := t, rest := p.2, window := p.1 }) fun sc' => .next (.inr sc')
  | .resync =>
    andThen (sc.rest.read 1) fun p =>
      match p.1, sc.window with
      | x :: _, out :: kept =>
        andThen (runChecked (.command (.rcRoll out x) :: shRefeed (kept ++ [x])) sc.block) fun t =>
          andThen (evaluateWindow { sc with block := t, rest := p.2, window := kept ++ [x] }) fun sc' =>
            .next (.inr sc')
      | _, window =>
        .next (.inl { sc with rest := p.2, delta := deltaAppend sc.delta (.literal (window.drop 1)) })

/-- Turns of the scan until it stops. -/
def scanLoop : Nat → Nat → Scan → HostResult Scan
  | 0, _, _ => .fault .bound
  | turns + 1, blockLength, sc =>
    andThen (scanTurn blockLength sc) fun r =>
      match r with
      | .inl done => .next done
      | .inr sc' => scanLoop turns blockLength sc'

/-- `computeDelta(new, sig)` with the signature in the block (R112). A scan with BLOCKLEN = 0 is refused (R125). Begins with no
command in flight (log 28). -/
def computeDelta (new : Stream) (s : State) : HostResult Scan :=
  if s.blockLen = 0 then .refused .scanWithZeroBlockLength
  else scanLoop (new.bytes.length + 1) s.blockLen.toNat ⟨s, new, [], .aligned, []⟩

/-! ## Codecs (R117 to R120) -/

/-- The records of blocks `ids`, each read back through ix.read (R117). A failing write is IOError. -/
def serializeRecords : List Nat → Sink → State → HostResult (Sink × State)
  | [], out, s => .next (out, s)
  | id :: ids, out, s =>
    andThen (runChecked [.wr .arg1 (BitVec.ofNat 32 id), .command .ixRead] s) fun t =>
      andThen (out.write (bytesOfWord t.resWeak ++ bytesOfHash t.resHash)) fun out' => serializeRecords ids out' t

/-- `serializeSignature(sig, sink)`: the block length and then the records in block-index order (R117). Begins with no command
in flight (log 28). -/
def serializeSignature (out : Sink) (s : State) : HostResult (Sink × State) :=
  andThen (out.write (bytesOfWord s.blockLen)) fun out' => serializeRecords (List.range s.n.toNat) out' s

/-- The record loop of R118. A clean end is allowed only at a record start. -/
def deserializeRecords : Nat → Stream → State → HostResult State
  | 0, _, _ => .fault .bound
  | turns + 1, st, s =>
    andThen (st.read 4) fun weak =>
      if weak.1 = [] then .next s
      else if weak.1.length < 4 then .fault .corruptData
      else andThen (weak.2.readField 32) fun strong =>
        andThen (runChecked (ixPut (BitVec.ofNat 32 (numberOf weak.1)) (hashOfBytes strong.1)) s) fun t =>
          deserializeRecords turns strong.2 t

/-- `deserializeSignature(source)`: the block length is taken unchecked (R118, D32). Begins with no command in
flight (log 28). -/
def deserializeSignature (source : Stream) (s : State) : HostResult State :=
  andThen (fromBlock (runLines [.command .ixClear] s)) fun t =>
    andThen (source.readField 4) fun header =>
      andThen (runChecked [.wr .arg0 (BitVec.ofNat 32 (numberOf header.1)), .command (.ixSetbl false)] t) fun u =>
        deserializeRecords (source.bytes.length + 1) header.2 u

/-- The record of a chunk: its tag, then its fields, integers big-endian (R119). -/
def serializeChunk : Chunk → List Byte
  | .reusable start length => 0 :: (bytesOfLong start ++ bytesOfLong length)
  | .literal data => 1 :: (bytesOfLong (lengthOf data) ++ data)

/-- `serializeDelta(delta, sink)`: one record per chunk (R119). A failing write is IOError (R122). -/
def serializeDelta : List Chunk → Sink → HostResult Sink
  | [], out => .next out
  | c :: cs, out => andThen (out.write (serializeChunk c)) (serializeDelta cs)

/-- A big-endian 64-bit field of a record (R120). -/
def readLong (st : Stream) : HostResult (Long × Stream) :=
  andThen (st.readField 8) fun p => .next (BitVec.ofNat 64 (numberOf p.1), p.2)

/-- The rest of a record, after its tag (R120). -/
def readChunk (tag : Byte) (st : Stream) : HostResult (Chunk × Stream) :=
  if tag = 0 then
    andThen (readLong st) fun start =>
      andThen (readLong start.2) fun length => .next (.reusable start.1 length.1, length.2)
  else if tag = 1 then
    andThen (readLong st) fun size =>
      andThen (size.2.readField size.1.toNat) fun data => .next (.literal data.1, data.2)
  else .fault .corruptData

/-- The record loop of R120; records become chunks one for one. -/
def deserializeChunks : Nat → Stream → HostResult (List Chunk)
  | 0, _ => .fault .bound
  | turns + 1, st =>
    andThen (st.read 1) fun p =>
      match p.1 with
      | [] => .next []
      | tag :: _ =>
        andThen (readChunk tag p.2) fun c =>
          andThen (deserializeChunks turns c.2) fun cs => .next (c.1 :: cs)

/-- `deserializeDelta(source)` (R120). -/
def deserializeDelta (source : Stream) : HostResult (List Chunk) :=
  deserializeChunks (source.bytes.length + 1) source

/-! ## Patch (R121) -/

/-- What a patch run leaves: the output, and the error if it failed. -/
structure Patched where
  output : Sink
  error : Option HostError
  deriving DecidableEq, Repr

/-- The bytes a Reusable chunk's copy brings to the output from `there`, what its read gave: all of them, or, when the copy falls
short, a part that is left open (R121, I2; log 21). -/
def copied (length : Nat) (there : List Byte) : List Byte :=
  if there.length = length then there else there.take (Config.shortCopy there.length)

/-- `applyDelta(basis, delta, output)`: IOError "if a seek or copy falls short ... or on any underlying I/O failure", a seek's, a
read's or a write's, and the output then holds the bytes written so far (R121, R122). -/
def applyDelta : Basis → List Chunk → Sink → Patched
  | _, [], out => ⟨out, none⟩
  | basis, .literal data :: rest, out =>
    if out.room.allows data.length then applyDelta basis rest (out.put data) else ⟨out.put data, some .io⟩
  | basis, .reusable start length :: rest, out =>
    let there := basis.readAt start.toNat length.toNat
    if basis.canSeek start.toNat = false then ⟨out, some .io⟩
    else if there.length = length.toNat ∧ out.room.allows there.length then
      applyDelta (basis.spend length.toNat) rest (out.put there)
    else ⟨out.put (copied length.toNat there), some .io⟩

end Sys2Proof.Machine
end

