-- ==== Sys2Proof/Safety.lean ====
section
/-! DEFINITION. The terms claims are stated in: the parts of the state a frame names, the opcode map as spec/30_encoding.md R54
prints it, the invariant every step keeps (spec/10_state.md R20 to R25, R30, spec/60_exceptions.md R92), and what the recorded
error says of the recorded word (R91). -/

namespace Sys2Proof.Machine

/-! ## Frames: the parts of the state (R15) -/

/-- The RC unit is unchanged. -/
def sameRc (s t : State) : Prop := t.a = s.a ∧ t.b = s.b ∧ t.count = s.count

/-- The SH unit is unchanged. -/
def sameSh (s t : State) : Prop :=
  t.msg = s.msg ∧ t.shLen = s.shLen ∧ t.digest = s.digest ∧ t.shValid = s.shValid

/-- The IX unit is unchanged: BLOCKLEN, N, every entry of HASHES, and MAP. -/
def sameIx (s t : State) : Prop :=
  t.blockLen = s.blockLen ∧ t.n = s.n ∧ t.hashes = s.hashes ∧ t.map = s.map

/-- The operand registers are unchanged. -/
def sameArgs (s t : State) : Prop := t.arg0 = s.arg0 ∧ t.arg1 = s.arg1 ∧ t.hin = s.hin

/-- The result registers are unchanged. -/
def sameResults (s t : State) : Prop :=
  t.resId = s.resId ∧ t.resWeak = s.resWeak ∧ t.resHash = s.resHash

/-- HIT, WHIT, LOST and DROPPED are unchanged. -/
def sameFlags (s t : State) : Prop :=
  t.hit = s.hit ∧ t.whit = s.whit ∧ t.lost = s.lost ∧ t.dropped = s.dropped

/-- ERR and ERRINFO are unchanged. -/
def sameError (s t : State) : Prop := t.err = s.err ∧ t.errInfo = s.errInfo

/-- The command in flight and the host's side of the bus are unchanged. -/
def samePort (s t : State) : Prop :=
  t.busy = s.busy ∧ t.pend = s.pend ∧ t.inputs = s.inputs ∧ t.responses = s.responses

/-- Nothing but the RC unit may have changed. -/
def onlyRc (s t : State) : Prop :=
  sameSh s t ∧ sameIx s t ∧ sameArgs s t ∧ sameResults s t ∧ sameFlags s t ∧ sameError s t ∧ samePort s t

/-- Nothing but the SH unit may have changed. -/
def onlySh (s t : State) : Prop :=
  sameRc s t ∧ sameIx s t ∧ sameArgs s t ∧ sameResults s t ∧ sameFlags s t ∧ sameError s t ∧ samePort s t

/-- Nothing but the IX unit may have changed. -/
def onlyIx (s t : State) : Prop :=
  sameRc s t ∧ sameSh s t ∧ sameArgs s t ∧ sameResults s t ∧ sameFlags s t ∧ sameError s t ∧ samePort s t

/-- Nothing but the result registers and the flags may have changed. -/
def onlyResults (s t : State) : Prop :=
  sameRc s t ∧ sameSh s t ∧ sameIx s t ∧ sameArgs s t ∧ sameError s t ∧ samePort s t

/-- Error entry (R92): "ERR <- code, ERRINFO <- the command word, nothing else changes". -/
def errorEntry (code : ErrCode) (word : Word) (s t : State) : Prop :=
  t.err = code ∧ t.errInfo = word ∧ sameRc s t ∧ sameSh s t ∧ sameIx s t ∧ sameArgs s t ∧ sameResults s t ∧
    sameFlags s t ∧ samePort s t

/-- The checksum triple of the RC unit (R61). -/
def State.triple (s : State) : Half × Half × Half := (s.a, s.b, s.count)

/-- No command is in flight (R103). -/
def State.idle (s : State) : Prop := s.busy = false ∧ s.pend = none

/-- The host's next input does not reach the block before the command in flight completes (R47). -/
def State.nextHeld (s : State) : Prop := ∀ i ∈ s.inputs.head?, overtakes i = false

/-- `k` steps, stopping at the first fault or refusal. -/
def runSteps : Nat → State → Host.Outcome State Fault Refusal
  | 0, s => .next s
  | k + 1, s => andThen (step s) (runSteps k)

/-! ## The opcode map as R54 prints it: match and mask of each row -/

/-- Match and mask of the fourteen rows (R54). -/
def opcodeMap : List (Word × Word) :=
  [ (0x00000000, 0xFFFFFFFF), (0x01000000, 0xFFFFFFFF), (0x02000000, 0xFF00FFFF), (0x03000000, 0xFF0000FF),
    (0x04000000, 0xFF00FFFF), (0x10000000, 0xFFFFFFFF), (0x11000000, 0xFF00FFFF), (0x12000000, 0xFFFFFFFF),
    (0x20000000, 0xFFFFFFFF), (0x21000000, 0xFFFEFFFF), (0x22000000, 0xFFFEFFFF), (0x23000000, 0xFFFEFFFF),
    (0x24000000, 0xFFFEFFFF), (0x25000000, 0xFFFFFFFF) ]

/-- The opcodes of the map (R55). -/
def opcodes : List Byte :=
  [0x00, 0x01, 0x02, 0x03, 0x04, 0x10, 0x11, 0x12, 0x20, 0x21, 0x22, 0x23, 0x24, 0x25]

/-! ## Accesses to an idle block -/

/-- The mapped offsets of R31. -/
def mappedOffsets : List Offset :=
  [0x00, 0x04, 0x08, 0x0C, 0x10, 0x14, 0x20, 0x24, 0x28, 0x2C, 0x30, 0x34, 0x38, 0x3C, 0x40, 0x44, 0x48, 0x4C, 0x50,
    0x60, 0x64, 0x68, 0x6C, 0x70, 0x74, 0x78, 0x7C, 0x80, 0x84, 0x88, 0x90, 0x94,
    0xA0, 0xA4, 0xA8, 0xAC, 0xB0, 0xB4, 0xB8, 0xBC]

/-- What a 32-bit read at an offset answers on an idle block. -/
def reads (s : State) (off : Offset) (v : Word) : Prop :=
  busAccess ⟨.read, 32, off⟩ s = .next { s with responses := s.responses ++ [.data v] }

/-- A 32-bit write at an offset changes nothing but the answer to the host. -/
def ignoresWrite (s : State) (off : Offset) (v : Word) : Prop :=
  busAccess ⟨.write v, 32, off⟩ s = .next { s with responses := s.responses ++ [.ok] }

/-! ## Reset -/

/-- The reset values of R34; CTRL, which holds nothing, reads 0. -/
def State.hasResetValues (t : State) : Prop :=
  t.a = 0 ∧ t.b = 0 ∧ t.count = 0 ∧ t.msg = [] ∧ t.shLen = 0 ∧ (∀ k : Fin 32, t.digest[k.val] = 0) ∧
    t.shValid = false ∧ t.blockLen = 32 ∧ t.n = 0 ∧ (∀ w, mapFind w t.map = none) ∧
    t.arg0 = 0 ∧ t.arg1 = 0 ∧ (∀ k : Fin 32, t.hin[k.val] = 0) ∧
    t.resId = 0 ∧ t.resWeak = 0 ∧ (∀ k : Fin 32, t.resHash[k.val] = 0) ∧
    t.busy = false ∧ t.hit = false ∧ t.whit = false ∧ t.lost = false ∧ t.dropped = false ∧
    t.err = .noError ∧ t.errInfo = 0 ∧ t.pend = none ∧ reads t 0x08 0

/-! ## The invariant -/

/-- What holds of the state after reset and is kept by every step. -/
structure State.Inv (s : State) : Prop where
  /-- "`SH_LEN` is `len(MSG)` as a 32-bit number" (R20), and MSG never outgrows it (R71). -/
  shLen_eq : s.shLen.toNat = s.msg.length
  /-- "`SH_VALID` is 1 exactly when `DIGEST = sha256(MSG)` is guaranteed" (R21). -/
  digest_fresh : s.shValid = true → s.digest = Config.sha256 s.msg
  /-- The list of HASHES holds the entries below N (R23). -/
  n_eq : s.n.toNat = s.hashes.length
  /-- "the table already holds IX_CAP blocks" at most (R78). -/
  n_le_cap : s.n.toNat ≤ Config.ixCap
  /-- MAP is in canonical form: one block id per key (R24). -/
  map_wf : mapWf s.map
  /-- "Every value of `MAP` is less than `N`" (R25 (a)). -/
  map_below : ∀ p ∈ s.map, p.2.toNat < s.n.toNat
  /-- "No two keys of `MAP` have the same value" (R25 (b)). -/
  map_injective : s.map.Pairwise (fun p q => p.2 ≠ q.2)
  /-- BUSY shows PEND (R30). -/
  busy_eq : s.busy = s.pend.isSome
  /-- The latched operands are those of the registers, which cannot be written meanwhile (R46, R47). -/
  latched : ∀ p ∈ s.pend, p.arg0 = s.arg0 ∧ p.arg1 = s.arg1 ∧ p.hin = s.hin
  /-- ERRINFO is 0 while there is no error (R32, R34, R95). -/
  errInfo_clear : s.err = .noError → s.errInfo = 0
  /-- A hit needs the weak key in MAP (R79, R80). -/
  hit_whit : s.hit = true → s.whit = true

/-- The column "raised by" of R91: what the recorded word ERRINFO is when ERR holds a code. -/
def State.errorCause (s : State) : Prop :=
  match s.err with
  | .noError => True
  | .illegalOp => fieldOp s.errInfo ∉ opcodes
  | .rsvdField => fieldOp s.errInfo ∈ opcodes ∧ ∀ r ∈ opcodeMap, s.errInfo &&& r.2 ≠ r.1
  | .config => s.errInfo = 0x21010000
  | .state => s.errInfo = 0x21000000 ∨ s.errInfo = 0x21010000
  | .full => s.errInfo = 0x22000000 ∨ s.errInfo = 0x22010000
  | .range => s.errInfo = 0x25000000
  | .noDigest => s.errInfo = 0x22000000 ∨ s.errInfo = 0x24000000
  | .shOverflow => s.errInfo &&& 0xFF00FFFF = 0x11000000 ∨ s.errInfo &&& 0xFF00FFFF = 0x04000000

end Sys2Proof.Machine
end

