-- ==== Sys2Proof/Certificates/Slice0/Obligations.lean ====
section
/-! DEFINITION. The statements for the provers, from the numbered rules of spec/. -/

open Sys2Proof Sys2Proof.Machine

/-! ## Encoding (spec/30_encoding.md) -/

/-- R60: the worked encodings, and the three words that raise a decode error. -/
def Obligations.WorkedEncodings : Prop :=
  encode (.rcFeed 0x61) = 0x02610000 ∧ decode 0x02610000 = .command (.rcFeed 0x61) ∧
  encode (.rcRoll 0x61 0x64) = 0x03616400 ∧ decode 0x03616400 = .command (.rcRoll 0x61 0x64) ∧
  encode (.ixSetbl true) = 0x21010000 ∧ decode 0x21010000 = .command (.ixSetbl true) ∧
  encode (.ixMatch .host) = 0x24010000 ∧ decode 0x24010000 = .command (.ixMatch .host) ∧
  ∀ s : State, s.err = .noError →
    (∃ t, runWord 0x02610001 s = .next t ∧ errorEntry .rsvdField 0x02610001 s t) ∧
    (∃ t, runWord 0x21030000 s = .next t ∧ errorEntry .rsvdField 0x21030000 s t) ∧
    (∃ t, runWord 0x7F000000 s = .next t ∧ errorEntry .illegalOp 0x7F000000 s t)

/-- Decoding the word of a command gives the command back, with every operand at every value (R54, R58). -/
def Obligations.DecodeOfEncodeIsTheCommand : Prop :=
  ∀ i : Instr, i.wellFormed = true → decode (encode i) = .command i

/-- Every word that decodes to a command is the word of that command: each command has one encoding (R54, R57). -/
def Obligations.EncodeOfDecodeIsTheWord : Prop :=
  ∀ (w : Word) (i : Instr), decode w = .command i → encode i = w

/-- R55: an accepted word, with no error recorded, raises ILLEGAL_OP if its opcode is not in the list, else RSVD_FIELD if it
misses its row of the map, else executes one command; with an error recorded it is dropped before decoding. -/
def Obligations.WordsDecodeInTheOrderOfTheMap : Prop :=
  ∀ (w : Word) (s : State),
    (fieldOp w ∉ opcodes → s.err = .noError → ∃ t, runWord w s = .next t ∧ errorEntry .illegalOp w s t) ∧
    (∀ r ∈ opcodeMap, fieldOp w = fieldOp r.1 → w &&& r.2 ≠ r.1 → s.err = .noError →
      ∃ t, runWord w s = .next t ∧ errorEntry .rsvdField w s t) ∧
    (∀ r ∈ opcodeMap, w &&& r.2 = r.1 → s.err = .noError →
      ∃ i t, encode i = w ∧ runWord w s = exec i s ∧ exec i s = .next t) ∧
    (s.err ≠ .noError → runWord w s = .next { s with dropped := true })

/-! ## The step, acceptance and completion (spec/20_memory.md) -/

/-- A step with a command in flight that nothing overtakes and no error recorded is the execution of the decoded command,
followed by its retirement: BUSY falls and PEND is empty, and nothing else changes around it. -/
def Obligations.StepRunsTheAcceptedCommand : Prop :=
  ∀ (s : State) (p : Pending) (i : Instr),
    s.pend = some p → s.nextHeld → s.err = .noError → decode p.word = .command i →
      ∃ t u, exec i s = .next u ∧ step s = .next t ∧ t = { u with busy := false, pend := none }

/-- A CMD write to an idle block is accepted by one step and its command executed by the next: the host's program reaches
`exec` through these two steps. -/
def Obligations.CommandWriteIsAcceptedThenRun : Prop :=
  ∀ (s : State) (i : Instr) (early : Bool) (rest : List Input),
    s.idle → s.err = .noError → s.inputs = ⟨early, .bus ⟨.write (encode i), 32, 0x00⟩⟩ :: rest →
    (∀ j ∈ rest.head?, overtakes j = false) →
      ∃ t u, step s = .next t ∧ t.busy = true ∧ t.pend = some ⟨encode i, s.arg0, s.arg1, s.hin⟩ ∧
        t.inputs = rest ∧ t.responses = s.responses ++ [.ok] ∧
        sameRc s t ∧ sameSh s t ∧ sameIx s t ∧ sameArgs s t ∧ sameResults s t ∧ sameFlags s t ∧ sameError s t ∧
        exec i t = .next u ∧ step t = .next { u with busy := false, pend := none }

/-- R46: a CMD write latches the word and the three operand registers; whatever is written to those registers afterwards, the
accepted command does the same; and no access that comes before its completion changes the units it reads, but a reset. -/
def Obligations.AcceptedOperandsAreLatched : Prop :=
  (∀ (s : State) (w : Word), ∃ t, busAccess ⟨.write w, 32, 0x00⟩ s = .next t ∧
    t.pend = some ⟨w, s.arg0, s.arg1, s.hin⟩ ∧ sameRc s t ∧ sameSh s t ∧ sameIx s t) ∧
  ∀ (s : State) (p : Pending), s.pend = some p →
    (∀ (i : Instr) (x y : Word) (h : Hash),
      exec i { s with arg0 := x, arg1 := y, hin := h } =
        andThen (exec i s) (fun t => .next { t with arg0 := x, arg1 := y, hin := h })) ∧
    (∀ (t : State) (i : Input) (rest : List Input), s.inputs = i :: rest → overtakes i = true → step s = .next t →
      t.pend = none ∨ (t.pend = some p ∧ sameRc s t ∧ sameSh s t ∧ sameIx s t))

/-- R47: while a command is in flight, a STATUS read that comes early is answered at once with BUSY = 1, an early CTRL write is
taken at once, and every other access is held: the command completes first and the access then proceeds on the state after
completion. That an access not marked early is one made after completion is the model's choice (log 1), and that an unsupported
access is held like any other is its reading of R47 (log 24). -/
def Obligations.BusyHoldsAllButTwoAccesses : Prop :=
  ∀ (s : State) (p : Pending) (i : Input) (rest : List Input),
    s.pend = some p → s.busy = true → s.inputs = i :: rest →
      (i = ⟨true, .bus ⟨.read, 32, 0x04⟩⟩ →
        ∃ v : Word, v.getLsbD 0 = true ∧ v = s.statusWord ∧
          step s = .next { s with inputs := rest, responses := s.responses ++ [.data v] }) ∧
      (∀ v, i = ⟨true, .bus ⟨.write v, 32, 0x08⟩⟩ →
        step s = .next (State.respond .ok (State.writeCtrl v { s with inputs := rest }))) ∧
      (∀ a, i.event = .bus a → (i.early = true → a ≠ ⟨.read, 32, 0x04⟩ ∧ ∀ v, a ≠ ⟨.write v, 32, 0x08⟩) →
        ∃ t, step s = .next t ∧ t.idle ∧ t.inputs = i :: rest ∧ t.responses = s.responses ∧
          step t = busAccess a { t with inputs := rest })

/-- R93: while ERR ≠ 0 a CMD write is accepted and its word then dropped before decoding, with no effect but DROPPED <- 1. -/
def Obligations.CommandsAreDroppedWhileErrorStands : Prop :=
  ∀ (s : State) (w : Word) (early : Bool) (rest : List Input),
    s.idle → s.err ≠ .noError → s.inputs = ⟨early, .bus ⟨.write w, 32, 0x00⟩⟩ :: rest →
    (∀ j ∈ rest.head?, overtakes j = false) →
      ∃ t, step s = .next t ∧
        step t = .next { s with dropped := true, inputs := rest, responses := s.responses ++ [.ok] }

/-- Without early inputs, the machine with its acceptance, latching and held accesses gives the host exactly the outcome of
performing its accesses and commands one at a time in program order (R45 to R48). -/
def Obligations.AccessesAreSequentiallyConsistent : Prop :=
  ∀ s : State, s.idle → (∀ i ∈ s.inputs, i.early = false) →
    runSteps (2 * s.inputs.length) s =
      runSequential (s.inputs.map Input.event) { s with inputs := [] }

/-- Every command completes: execution answers a next state, whatever the state (R55: every word "either executes one command
or raises one of these two errors"). -/
def Obligations.EveryCommandCompletes : Prop :=
  ∀ (i : Instr) (s : State), ∃ t, exec i s = .next t

/-- A step with a command in flight and nothing overtaking it always completes that command, whatever its word. -/
def Obligations.EveryAcceptedWordRetires : Prop :=
  ∀ (s : State) (p : Pending), s.pend = some p → s.nextHeld →
    ∃ t, step s = .next t ∧ t.idle ∧ t.inputs = s.inputs ∧ t.responses = s.responses ∧ sameArgs s t

/-! ## The register window (spec/10_state.md, spec/20_memory.md) -/

/-- The contents column of R31, with the fields of R32 and R33: what each mapped offset reads. -/
def Obligations.RegisterMapContents : Prop :=
  ∀ s : State,
    reads s 0x00 0 ∧ reads s 0x04 s.statusWord ∧ reads s 0x08 0 ∧ reads s 0x0C s.errInfo ∧
    reads s 0x10 s.arg0 ∧ reads s 0x14 s.arg1 ∧
    (∀ k : Fin 8, reads s (BitVec.ofNat 8 (0x20 + 4 * k.val)) (hashWord s.hin k)) ∧
    (∃ v, reads s 0x40 v ∧ v.toNat = s.a.toNat) ∧ (∃ v, reads s 0x44 v ∧ v.toNat = s.b.toNat) ∧
    (∃ v, reads s 0x48 v ∧ v.toNat = s.count.toNat) ∧
    (∃ v, reads s 0x4C v ∧ v.toNat = s.b.toNat * 65536 + s.a.toNat) ∧
    reads s 0x50 s.shLen ∧
    (∀ k : Fin 8, reads s (BitVec.ofNat 8 (0x60 + 4 * k.val)) (hashWord s.digest k)) ∧
    reads s 0x80 s.n ∧ reads s 0x84 s.blockLen ∧ (∃ v, reads s 0x88 v ∧ v.toNat = Config.ixCap) ∧
    reads s 0x90 s.resId ∧ reads s 0x94 s.resWeak ∧
    (∀ k : Fin 8, reads s (BitVec.ofNat 8 (0xA0 + 4 * k.val)) (hashWord s.resHash k))

/-- R42: a write to a read-only register is ignored, CMD reads 0, reserved bits of STATUS and CTRL read 0 and ignore writes, and
an operand register stores the whole word and reads it back: the last value written, as nothing but a write or a reset changes
it, or the reset value. -/
def Obligations.AccessRulesOfMappedRegisters : Prop :=
  ∀ (s : State) (v : Word),
    (∀ off ∈ mappedOffsets, off ∉ [0x00, 0x04, 0x08, 0x10, 0x14, 0x20, 0x24, 0x28, 0x2C, 0x30, 0x34, 0x38, 0x3C] →
      ignoresWrite s off v) ∧
    reads s 0x00 0 ∧
    (∀ k : Nat, k = 6 ∨ k = 7 ∨ 16 ≤ k → s.statusWord.getLsbD k = false) ∧ reads s 0x08 0 ∧
    (v.getLsbD 5 = false → v.getLsbD 31 = false → ignoresWrite s 0x04 v) ∧
    (v.getLsbD 0 = false → ignoresWrite s 0x08 v) ∧
    (∃ t, busAccess ⟨.write v, 32, 0x10⟩ s = .next t ∧ reads t 0x10 v) ∧
    (∃ t, busAccess ⟨.write v, 32, 0x14⟩ s = .next t ∧ reads t 0x14 v) ∧
    (∀ k : Fin 8, ∃ t, busAccess ⟨.write v, 32, BitVec.ofNat 8 (0x20 + 4 * k.val)⟩ s = .next t ∧
      reads t (BitVec.ofNat 8 (0x20 + 4 * k.val)) v ∧ ∀ j : Fin 8, j ≠ k → hashWord t.hin j = hashWord s.hin j) ∧
    (∀ (i : Instr) (t : State), exec i s = .next t → sameArgs s t) ∧
    (∀ (a : Access) (t : State), busAccess a s = .next t →
      (a.off ≠ 0x08 → a.off ≠ 0x10 → t.arg0 = s.arg0) ∧ (a.off ≠ 0x08 → a.off ≠ 0x14 → t.arg1 = s.arg1) ∧
        (a.off ≠ 0x08 → ¬ (0x20 ≤ a.off.toNat ∧ a.off.toNat ≤ 0x3C) → t.hin = s.hin)) ∧
    reads State.reset 0x10 0 ∧ reads State.reset 0x14 0 ∧
    (∀ k : Fin 8, reads State.reset (BitVec.ofNat 8 (0x20 + 4 * k.val)) 0)

/-- The fields of STATUS (R32), the numbers of the error codes in it (R91), and that a write changes only DROPPED and
ERR/ERRINFO, and only where the written bit is 1. -/
def Obligations.StatusRegisterFields : Prop :=
  ∀ (s : State) (v : Word),
    s.statusWord.getLsbD 0 = s.busy ∧ s.statusWord.getLsbD 1 = s.hit ∧ s.statusWord.getLsbD 2 = s.whit ∧
    s.statusWord.getLsbD 3 = s.lost ∧ s.statusWord.getLsbD 4 = s.shValid ∧ s.statusWord.getLsbD 5 = s.dropped ∧
    s.statusWord.extractLsb' 6 2 = 0 ∧ s.statusWord.extractLsb' 8 8 = s.err.code ∧
    s.statusWord.extractLsb' 16 16 = 0 ∧
    ErrCode.noError.code = 0x00 ∧ ErrCode.illegalOp.code = 0x01 ∧ ErrCode.rsvdField.code = 0x02 ∧
    ErrCode.config.code = 0x03 ∧ ErrCode.state.code = 0x04 ∧ ErrCode.full.code = 0x05 ∧ ErrCode.range.code = 0x06 ∧
    ErrCode.noDigest.code = 0x07 ∧ ErrCode.shOverflow.code = 0x08 ∧
    busAccess ⟨.write v, 32, 0x04⟩ s = .next { s with
      dropped := s.dropped && !v.getLsbD 5
      err := if v.getLsbD 31 then .noError else s.err
      errInfo := if v.getLsbD 31 then 0 else s.errInfo
      responses := s.responses ++ [.ok] }

/-- An access of another width, at a misaligned offset or at an unmapped offset is a fault of the host's step, and no other access
is (R40, R41). That the run ends in the fault is the model's reading of R40 (log 4), and the order of the three names, width before
alignment before mapping, is its choice (log 18). -/
def Obligations.BusErrorsAreExactlyTheUnsupportedAccesses : Prop :=
  ∀ (s : State) (a : Access) (rest : List Input) (early : Bool),
    s.idle → s.inputs = ⟨early, .bus a⟩ :: rest →
      (a.width ≠ 32 → step s = .fault .busWidth) ∧
      (a.width = 32 → a.off.toNat % 4 ≠ 0 → step s = .fault .busMisaligned) ∧
      (a.width = 32 → a.off.toNat % 4 = 0 → a.off ∉ mappedOffsets → step s = .fault .busUnmapped) ∧
      (a.width = 32 → a.off ∈ mappedOffsets → ∃ t, step s = .next t)

/-- R43: reads have no side effect, a write to ARG0, ARG1 or HIN only stores, and of all writes only those to CMD, STATUS and CTRL
do more. -/
def Obligations.OnlyThreeAccessesHaveSideEffects : Prop :=
  ∀ (s t : State) (a : Access), busAccess a s = .next t →
    (a.kind = .read → ∃ v, t = { s with responses := s.responses ++ [.data v] } ∧
      busAccess a t = .next { t with responses := t.responses ++ [.data v] }) ∧
    (a.off ≠ 0x00 → a.off ≠ 0x04 → a.off ≠ 0x08 →
      sameRc s t ∧ sameSh s t ∧ sameIx s t ∧ sameResults s t ∧ sameFlags s t ∧ sameError s t ∧
        t.busy = s.busy ∧ t.pend = s.pend ∧ t.inputs = s.inputs)

/-- R38: each group of eight registers reads as the words of its hash, word k holding bytes 4k to 4k+3 with the first in bits
[31:24]; writing word k of HIN sets those four bytes and no other; and writing the eight words of a hash gives the hash. -/
def Obligations.HashRegistersAreBigEndian : Prop :=
  ∀ (s : State) (h g : Hash) (k : Fin 8) (v : Word),
    reads s (BitVec.ofNat 8 (0x20 + 4 * k.val)) (hashWord s.hin k) ∧
    reads s (BitVec.ofNat 8 (0x60 + 4 * k.val)) (hashWord s.digest k) ∧
    reads s (BitVec.ofNat 8 (0xA0 + 4 * k.val)) (hashWord s.resHash k) ∧
    busAccess ⟨.write v, 32, BitVec.ofNat 8 (0x20 + 4 * k.val)⟩ s =
      .next { s with hin := setHashWord s.hin k v, responses := s.responses ++ [.ok] } ∧
    (∀ j : Fin 4, (hashWord h k).extractLsb' (24 - 8 * j.val) 8 = h[4 * k.val + j.val]) ∧
    (∀ j : Fin 4, (setHashWord h k v)[4 * k.val + j.val] = v.extractLsb' (24 - 8 * j.val) 8) ∧
    (∀ i : Fin 32, i.val / 4 ≠ k.val → (setHashWord h k v)[i.val] = h[i.val]) ∧
    (List.finRange 8).foldl (fun acc j => setHashWord acc j (hashWord h j)) g = h

/-! ## The RC unit (spec/40_rolling_checksum.md) -/

/-- R62: rc.clear. -/
def Obligations.RcClearGivesTheEmptyWindow : Prop :=
  ∀ s : State, s.err = .noError →
    encode .rcClear = 0x01000000 ∧
    ∃ t, exec .rcClear s = .next t ∧ t.triple = (0, 0, 0) ∧ t.sum = 0 ∧ onlyRc s t ∧
      (s.triple = (0, 0, 0) → t = s)

/-- R63: rc.feed, with the new A in B; its corner case and its example. -/
def Obligations.RcFeedAppendsAByte : Prop :=
  ∀ (x : Byte) (s : State), s.err = .noError →
    encode (.rcFeed x) = 0x02000000 ||| x.setWidth 32 <<< 16 ∧
    ∃ t, exec (.rcFeed x) s = .next t ∧
      t.a.toNat = (s.a.toNat + x.toNat) % 65536 ∧
      t.b.toNat = (s.b.toNat + t.a.toNat) % 65536 ∧
      t.count.toNat = (s.count.toNat + 1) % 65536 ∧ onlyRc s t ∧
      (x = 0 → t.a = s.a ∧ t.b = s.b + s.a) ∧
      (s.triple = (0, 0, 0) → x = 0x61 → t.triple = (0x0061, 0x0061, 1) ∧ t.sum = 0x00610061)

/-- R64: rc.roll, with the new A and the unchanged COUNT; its corner cases and its example. -/
def Obligations.RcRollSlidesTheWindow : Prop :=
  ∀ (out inc : Byte) (s : State), s.err = .noError →
    encode (.rcRoll out inc) = 0x03000000 ||| out.setWidth 32 <<< 16 ||| inc.setWidth 32 <<< 8 ∧
    ∃ t, exec (.rcRoll out inc) s = .next t ∧
      (t.a.toNat : Int) = ((s.a.toNat : Int) - out.toNat + inc.toNat) % 65536 ∧
      (t.b.toNat : Int) = ((s.b.toNat : Int) - s.count.toNat * out.toNat + t.a.toNat) % 65536 ∧
      t.count = s.count ∧ onlyRc s t ∧
      (s.count = 0 → t.b = s.b + t.a) ∧
      (out = inc → t.a = s.a ∧ t.b = s.b - s.count * zext16 out + s.a) ∧
      (∀ (x : Byte) (xs : List Byte), s.triple = weakTriple (x :: xs) → out = x → inc = x →
        t.triple = weakTriple (xs ++ [x])) ∧
      (s.triple = (0, 0, 0) → out = 0x01 → inc = 0x00 → t.triple = (0xFFFF, 0xFFFF, 0)) ∧
      (s.triple = (0x0126, 0x024A, 3) → out = 0x61 → inc = 0x61 → t.triple = (0x0126, 0x024D, 3)) ∧
      (s.triple = (0x0126, 0x024A, 3) → out = 0x61 → inc = 0x64 →
        t.triple = (0x0129, 0x0250, 3) ∧ t.sum = 0x02500129) ∧
      weakTriple [0x61, 0x62, 0x63] = (0x0126, 0x024A, 3) ∧ weakTriple [0x62, 0x63, 0x61] = (0x0126, 0x024D, 3) ∧
      weakTriple [0x62, 0x63, 0x64] = (0x0129, 0x0250, 3)

/-- R65: xfeed feeds both units, or raises SH_OVERFLOW before either changes. -/
def Obligations.XfeedFeedsBothUnits : Prop :=
  ∀ (x : Byte) (s : State), s.err = .noError →
    encode (.xfeed x) = 0x04000000 ||| x.setWidth 32 <<< 16 ∧
    (s.shLen = 0xFFFFFFFF → ∃ t, exec (.xfeed x) s = .next t ∧ errorEntry .shOverflow (encode (.xfeed x)) s t) ∧
    (s.shLen ≠ 0xFFFFFFFF → ∃ t, exec (.xfeed x) s = .next t ∧
      t.a.toNat = (s.a.toNat + x.toNat) % 65536 ∧ t.b.toNat = (s.b.toNat + t.a.toNat) % 65536 ∧
      t.count.toNat = (s.count.toNat + 1) % 65536 ∧
      t.msg = s.msg ++ [x] ∧ t.shLen.toNat = s.shLen.toNat + 1 ∧ t.shValid = false ∧ t.digest = s.digest ∧
      sameIx s t ∧ sameArgs s t ∧ sameResults s t ∧ sameFlags s t ∧ sameError s t ∧ samePort s t ∧
      (s.triple = (0, 0, 0) → s.shLen = 0 → x = 0x41 →
        t.triple = (0x0041, 0x0041, 1) ∧ t.shLen = 1 ∧ t.shValid = false))

/-- The closed form of R11: `a = (Σ s[i]) mod 2^16`, `b = (Σ (n − i)·s[i]) mod 2^16`, `count = n mod 2^16`; and R68: it depends on
n only through n mod 2^16, the weights being taken modulo 2^16 as well. -/
def Obligations.WeakTripleIsTheClosedForm : Prop :=
  ∀ window : List Byte,
    (weakTriple window).1.toNat = (window.map (fun x => x.toNat)).sum % 65536 ∧
    (weakTriple window).2.1.toNat =
      (window.zipIdx.map (fun p => (window.length - p.2) * p.1.toNat)).sum % 65536 ∧
    (weakTriple window).2.2.toNat = window.length % 65536 ∧
    (weakTriple window).2.1 =
      (window.zipIdx.map (fun p => (BitVec.ofNat 16 window.length - BitVec.ofNat 16 p.2) * zext16 p.1)).sum

/-- R66: rc.init, and the same with xfeed for rc.feed if no SH_OVERFLOW is raised, leaves the checksum of the window. -/
def Obligations.InitByFeedingGivesTheWindowChecksum : Prop :=
  ∀ (window : List Byte) (s : State), s.idle → s.err = .noError →
    (∃ t, runLines (rcInit window) s = .next t ∧ t.triple = weakTriple window ∧ t.err = .noError ∧
      sameSh s t ∧ sameIx s t ∧ sameArgs s t ∧ sameResults s t ∧ sameFlags s t ∧ t.idle) ∧
    (s.shLen.toNat + window.length < 2 ^ 32 →
      ∃ t, runLines (.command .rcClear :: window.map (fun x => .command (.xfeed x))) s = .next t ∧
        t.triple = weakTriple window ∧ t.err = .noError ∧ t.msg = s.msg ++ window ∧
        sameIx s t ∧ sameArgs s t ∧ sameResults s t ∧ sameFlags s t ∧ t.idle)

/-- R67: rolling a window by its first byte and a new one equals recomputing, for every window length. -/
def Obligations.RollEqualsRecompute : Prop :=
  ∀ (first x : Byte) (rest : List Byte) (s : State), s.err = .noError → s.triple = weakTriple (first :: rest) →
    ∃ t, exec (.rcRoll first x) s = .next t ∧ t.triple = weakTriple (rest ++ [x])

/-! ## The SH unit (spec/41_strong_hash.md) -/

/-- sh.start begins a new message and keeps DIGEST, which the IX unit then does not take (section of R70). -/
def Obligations.ShStartBeginsANewMessage : Prop :=
  ∀ s : State, s.err = .noError →
    encode .shStart = 0x10000000 ∧
    ∃ t, exec .shStart s = .next t ∧ t.msg = [] ∧ t.shLen = 0 ∧ t.shValid = false ∧ t.digest = s.digest ∧
      onlySh s t ∧
      (∃ u, exec (.ixAppend .rc) t = .next u ∧ errorEntry .noDigest 0x22000000 t u) ∧
      (∃ u, exec (.ixMatch .rc) t = .next u ∧ errorEntry .noDigest 0x24000000 t u)

/-- R71: sh.feed extends the message, also after sh.final, or raises SH_OVERFLOW. -/
def Obligations.ShFeedExtendsTheMessage : Prop :=
  ∀ (x : Byte) (s : State), s.err = .noError →
    encode (.shFeed x) = 0x11000000 ||| x.setWidth 32 <<< 16 ∧
    (s.shLen = 0xFFFFFFFF →
      ∃ t, exec (.shFeed x) s = .next t ∧ errorEntry .shOverflow (encode (.shFeed x)) s t) ∧
    (s.shLen ≠ 0xFFFFFFFF → ∃ t, exec (.shFeed x) s = .next t ∧
      t.msg = s.msg ++ [x] ∧ t.shLen.toNat = s.shLen.toNat + 1 ∧ t.shValid = false ∧ t.digest = s.digest ∧
      onlySh s t ∧
      (∃ u, exec .shFinal t = .next u ∧ u.digest = Config.sha256 (s.msg ++ [x])) ∧
      (s.shLen = 0 → t.shLen = 1))

/-- sh.final digests the message and leaves it in place, so that a second one gives the same digest (section of R72; the values
of SHA-256 itself are a parameter). -/
def Obligations.ShFinalDigestsTheMessage : Prop :=
  ∀ s : State, s.err = .noError →
    encode .shFinal = 0x12000000 ∧
    ∃ t, exec .shFinal s = .next t ∧ t.digest = Config.sha256 s.msg ∧ t.shValid = true ∧ t.msg = s.msg ∧
      t.shLen = s.shLen ∧ onlySh s t ∧ exec .shFinal t = .next t

/-- R73: sh.digest leaves the digest, the length and SH_VALID of the window; x.init in addition its checksum. -/
def Obligations.DigestOfAWindow : Prop :=
  ∀ (window : List Byte) (s : State), s.idle → s.err = .noError → window.length < 2 ^ 32 →
    (∃ t, runLines (shDigest window) s = .next t ∧ t.digest = Config.sha256 window ∧
      t.shLen.toNat = window.length ∧ t.shValid = true ∧ t.err = .noError) ∧
    (∃ t, runLines (xInit window) s = .next t ∧ t.digest = Config.sha256 window ∧
      t.shLen.toNat = window.length ∧ t.shValid = true ∧ t.triple = weakTriple window ∧ t.err = .noError)

/-! ## The IX unit (spec/42_block_index.md) -/

/-- R76: ix.clear empties the tables and keeps the rest; every lookup then misses and every read-back is out of range. -/
def Obligations.IxClearEmptiesTheTables : Prop :=
  ∀ s : State, s.err = .noError →
    encode .ixClear = 0x20000000 ∧
    ∃ t, exec .ixClear s = .next t ∧ t.n = 0 ∧ (∀ w, mapFind w t.map = none) ∧ t.blockLen = s.blockLen ∧
      onlyIx s t ∧
      (∀ src, ∃ u, exec (.ixLookup src) t = .next u ∧ u.hit = false) ∧
      (∃ u, exec .ixRead t = .next u ∧ errorEntry .range 0x25000000 t u)

/-- R77: ix.setbl: STATE before CONFIG, the inclusive minimum 32 with CHK = 1, every value with CHK = 0. -/
def Obligations.IxSetblSetsTheBlockLength : Prop :=
  ∀ (chk : Bool) (s : State), s.err = .noError →
    encode (.ixSetbl chk) = (if chk then 0x21010000 else 0x21000000) ∧
    (s.n ≠ 0 → ∃ t, exec (.ixSetbl chk) s = .next t ∧ errorEntry .state (encode (.ixSetbl chk)) s t) ∧
    (s.n = 0 → chk = true → s.latchedArg0.toNat < 32 →
      ∃ t, exec (.ixSetbl chk) s = .next t ∧ errorEntry .config 0x21010000 s t) ∧
    (s.n = 0 → (chk = true → 32 ≤ s.latchedArg0.toNat) →
      ∃ t, exec (.ixSetbl chk) s = .next t ∧ t.blockLen = s.latchedArg0 ∧ t.n = s.n ∧ t.hashes = s.hashes ∧
        t.map = s.map ∧ onlyIx s t)

/-- R78: ix.append: NO_DIGEST before FULL, else one more block, whose key the newest id wins; the old block of a repeated key
becomes a lost entry; and the rule's example. In a state the invariant holds of. -/
def Obligations.IxAppendAddsABlock : Prop :=
  (∀ (src : Src) (s : State), s.Inv → s.err = .noError →
    encode (.ixAppend src) = (match src with | .rc => 0x22000000 | .host => 0x22010000) ∧
    (src = .rc → s.shValid = false →
      ∃ t, exec (.ixAppend src) s = .next t ∧ errorEntry .noDigest 0x22000000 s t) ∧
    ((src = .rc → s.shValid = true) → s.n.toNat = Config.ixCap →
      ∃ t, exec (.ixAppend src) s = .next t ∧ errorEntry .full (encode (.ixAppend src)) s t) ∧
    ((src = .rc → s.shValid = true) → s.n.toNat ≠ Config.ixCap →
      ∃ t, exec (.ixAppend src) s = .next t ∧
        (∀ w h, (src = .rc → w = sumOf s.a s.b ∧ h = s.digest) →
          (src = .host → w = s.latchedArg0 ∧ h = s.latchedHin) →
          t.hashAt s.n = h ∧ mapFind w t.map = some s.n ∧
          (∀ k, k ≠ w → mapFind k t.map = mapFind k s.map) ∧
          (∀ j, mapFind w s.map = some j → mapKeyOf j t.map = none)) ∧
        (∀ i : Word, i.toNat < s.n.toNat → t.hashAt i = s.hashAt i) ∧
        t.resId = s.n ∧ t.n.toNat = s.n.toNat + 1 ∧ t.blockLen = s.blockLen ∧
        t.resWeak = s.resWeak ∧ t.resHash = s.resHash ∧
        sameRc s t ∧ sameSh s t ∧ sameArgs s t ∧ sameFlags s t ∧ sameError s t ∧ samePort s t)) ∧
  (∃ t, runLines (xInit [0x41, 0x42, 0x43, 0x44] ++ [.command (.ixAppend .rc)]) State.reset = .next t ∧
    t.hashAt 0 = Config.sha256 [0x41, 0x42, 0x43, 0x44] ∧ t.map = [(0x0294010A, 0)] ∧ t.resId = 0 ∧ t.n = 1)

/-- R79: ix.lookup sets WHIT and HIT alike, and RES_ID to the block id or, on a miss, to 0; and the rule's example. -/
def Obligations.IxLookupFindsTheWeakKey : Prop :=
  ∀ (src : Src) (s : State) (w : Word), s.err = .noError →
    (src = .rc → w = sumOf s.a s.b) → (src = .host → w = s.latchedArg0) →
    encode (.ixLookup src) = (match src with | .rc => 0x23000000 | .host => 0x23010000) ∧
    ∃ t, exec (.ixLookup src) s = .next t ∧
      (∀ id, mapFind w s.map = some id → t.whit = true ∧ t.hit = true ∧ t.resId = id) ∧
      (mapFind w s.map = none → t.whit = false ∧ t.hit = false ∧ t.resId = 0) ∧
      t.lost = s.lost ∧ t.dropped = s.dropped ∧ t.resWeak = s.resWeak ∧ t.resHash = s.resHash ∧ onlyResults s t ∧
      (s.map = [(0x0294010A, 1)] → src = .host → w = 0x0294010A → t.hit = true ∧ t.whit = true ∧ t.resId = 1)

/-- ix.match evaluates the match condition with all 32 bytes of the stored hash, and reports a weak hit the strong hash rejects
(section of R80). -/
def Obligations.IxMatchConfirmsByTheStrongHash : Prop :=
  ∀ (src : Src) (s : State) (w : Word) (h : Hash), s.err = .noError →
    (src = .rc → w = sumOf s.a s.b ∧ h = s.digest) → (src = .host → w = s.latchedArg0 ∧ h = s.latchedHin) →
    encode (.ixMatch src) = (match src with | .rc => 0x24000000 | .host => 0x24010000) ∧
    (src = .rc → s.shValid = false →
      ∃ t, exec (.ixMatch src) s = .next t ∧ errorEntry .noDigest 0x24000000 s t) ∧
    ((src = .rc → s.shValid = true) →
      ∃ t, exec (.ixMatch src) s = .next t ∧
        (∀ id, mapFind w s.map = some id → t.whit = true ∧ t.resId = id ∧
          (t.hit = true ↔ ∀ k : Fin 32, (s.hashAt id)[k.val] = h[k.val])) ∧
        (mapFind w s.map = none → t.whit = false ∧ t.hit = false ∧ t.resId = 0) ∧
        t.lost = s.lost ∧ t.dropped = s.dropped ∧ t.resWeak = s.resWeak ∧ t.resHash = s.resHash ∧
        onlyResults s t)

/-- ix.read reads an entry back, with RES_WEAK = 0 and LOST = 1 exactly for a lost entry, or raises RANGE (section of R81). In a
state the invariant holds of. -/
def Obligations.IxReadReadsAnEntryBack : Prop :=
  ∀ s : State, s.Inv → s.err = .noError →
    encode .ixRead = 0x25000000 ∧
    (s.n.toNat ≤ s.latchedArg1.toNat → ∃ t, exec .ixRead s = .next t ∧ errorEntry .range 0x25000000 s t) ∧
    (s.latchedArg1.toNat < s.n.toNat →
      ∃ t, exec .ixRead s = .next t ∧
        t.resId = s.latchedArg1 ∧ s.hashes[s.latchedArg1.toNat]? = some t.resHash ∧
        (∀ k, mapFind k s.map = some s.latchedArg1 → t.resWeak = k ∧ t.lost = false) ∧
        ((∀ k, mapFind k s.map ≠ some s.latchedArg1) → t.resWeak = 0 ∧ t.lost = true) ∧
        t.hit = s.hit ∧ t.whit = s.whit ∧ t.dropped = s.dropped ∧ onlyResults s t)

/-- R83 for host-supplied pairs: after ix.clear and a sequence of ix.put, MAP sends a key to the last pair that has it, and the
lost entries are exactly the blocks whose key comes again later. -/
def Obligations.LastAppendOfAKeyWins : Prop :=
  ∀ (pairs : List (Word × Hash)) (s : State), s.Inv → s.idle → s.err = .noError → pairs.length ≤ Config.ixCap →
    ∃ t, runLines (.command .ixClear :: pairs.flatMap (fun p => ixPut p.1 p.2)) s = .next t ∧
      t.err = .noError ∧ t.n.toNat = pairs.length ∧ t.hashes = pairs.map Prod.snd ∧
      (∀ (w : Word) (i : Nat), i < pairs.length →
        (mapFind w t.map = some (BitVec.ofNat 32 i) ↔
          (pairs[i]?.map Prod.fst = some w ∧ ∀ j, i < j → pairs[j]?.map Prod.fst ≠ some w))) ∧
      (∀ w, mapFind w t.map = none ↔ ∀ p ∈ pairs, p.1 ≠ w) ∧
      (∀ i, i < pairs.length →
        (mapKeyOf (BitVec.ofNat 32 i) t.map = none ↔
          ∃ j, i < j ∧ j < pairs.length ∧ pairs[j]?.map Prod.fst = pairs[i]?.map Prod.fst))

/-- R85: only ix.clear, ix.setbl (only when N = 0) and ix.append change the signature. -/
def Obligations.SignatureChangesOnlyByThreeCommands : Prop :=
  ∀ (i : Instr) (s t : State), exec i s = .next t →
    ((∀ src, i ≠ .ixAppend src) → (∀ chk, i ≠ .ixSetbl chk) → i ≠ .ixClear → sameIx s t) ∧
    (∀ chk, i = .ixSetbl chk → t.n = s.n ∧ t.hashes = s.hashes ∧ t.map = s.map ∧
      (s.n ≠ 0 → t.blockLen = s.blockLen))

/-- No bus access reaches the tables and the message (R36): an answered access leaves them alone unless it is a soft reset, and
two states that differ only in HASHES, MAP and MSG give every access the same answer and the same fault, and still differ in no
more afterwards. -/
def Obligations.TablesAndMessageAreOffTheBus : Prop :=
  (∀ (s t : State) (a : Access), busAccess a s = .next t →
    (t.hashes = s.hashes ∧ t.map = s.map ∧ t.n = s.n ∧ t.msg = s.msg) ∨
      (a.off = 0x08 ∧ ∃ v, a.kind = .write v ∧ v.getLsbD 0 = true)) ∧
  ∀ (s : State) (a : Access) (hashes : List Hash) (map : List (Word × Word)) (msg : List Byte),
    (∀ f, busAccess a s = .fault f ↔ busAccess a { s with hashes := hashes, map := map, msg := msg } = .fault f) ∧
    ∀ t, busAccess a s = .next t →
      ∃ u, busAccess a { s with hashes := hashes, map := map, msg := msg } = .next u ∧ u.responses = t.responses ∧
        { u with hashes := t.hashes, map := t.map, msg := t.msg } = t

/-- The source bit alone decides the operands (R53, R78 to R80): with SRC = 0 a command of the IX unit does the same whatever
ARG0 and HIN hold, in the registers and as latched; with SRC = 1 whatever the RC and SH units hold. The first clause is
of a command in flight; the second is of none, where the registers stand for what acceptance would latch (log 15); the last is of
both. -/
def Obligations.SourceBitSelectsTheOperands : Prop :=
  ∀ (s : State) (x y : Word) (g h d : Hash) (a b : Half) (valid : Bool),
    ∀ i : Src → Instr, i = Instr.ixAppend ∨ i = Instr.ixLookup ∨ i = Instr.ixMatch →
      (∀ p : Pending, s.pend = some p →
        exec (i .rc) { s with arg0 := x, hin := h, pend := some { p with arg0 := y, hin := g } } =
          andThen (exec (i .rc) s) (fun t =>
            .next { t with arg0 := x, hin := h, pend := some { p with arg0 := y, hin := g } })) ∧
      (s.pend = none → exec (i .rc) { s with arg0 := x, hin := h } =
        andThen (exec (i .rc) s) (fun t => .next { t with arg0 := x, hin := h })) ∧
      exec (i .host) { s with a := a, b := b, digest := d, shValid := valid } =
        andThen (exec (i .host) s) (fun t => .next { t with a := a, b := b, digest := d, shValid := valid })

/-! ## Control, flags and errors (spec/43_control.md, spec/10_state.md, spec/60_exceptions.md) -/

/-- nop changes nothing; a word with opcode 0x00 and any other bit set raises RSVD_FIELD (section of R87). -/
def Obligations.NopDoesNothing : Prop :=
  ∀ s : State, s.err = .noError →
    encode .nop = 0x00000000 ∧ exec .nop s = .next s ∧
    ∀ w : Word, fieldOp w = 0 → w ≠ 0 → ∃ t, runWord w s = .next t ∧ errorEntry .rsvdField w s t

/-- R92: whenever a word in flight leaves ERR set where it was 0, it has recorded the code and its own word and changed nothing
else, and it has completed. -/
def Obligations.ErrorsArePrecise : Prop :=
  ∀ (s t : State) (p : Pending), s.pend = some p → s.nextHeld → s.err = .noError →
    step s = .next t → t.err ≠ .noError →
      t = { s with err := t.err, errInfo := p.word, busy := false, pend := none }

/-- An error stays, with its ERRINFO, until the host clears it by STATUS bit 31 or resets the block: no command and no other
access records over it (R93, R95, R104). -/
def Obligations.ErrorStandsUntilTheHostClearsIt : Prop :=
  ∀ s t : State, step s = .next t → s.err ≠ .noError →
    sameError s t ∨
      (t.err = .noError ∧ t.errInfo = 0 ∧ ∃ i ∈ s.inputs.head?, i.event = .resetLine ∨
        ∃ v w : Word, (i.event = .bus ⟨.write v, 32, 0x04⟩ ∧ v.getLsbD 31 = true) ∨
          (i.event = .bus ⟨.write w, 32, 0x08⟩ ∧ w.getLsbD 0 = true))

/-- R95: a write of STATUS with bit 31 set clears ERR and ERRINFO, with bit 5 set DROPPED, and the commands after it execute
normally. -/
def Obligations.ErrorReturnThroughStatus : Prop :=
  ∀ (s : State) (i : Instr), s.idle →
    ∃ t u, runLines [.wr .status 0x80000020, .command i] s = .next t ∧
      exec i (State.accept (encode i) { s with
        err := .noError, errInfo := 0, dropped := false, responses := s.responses ++ [.ok, .ok] }) = .next u ∧
      t = { u with busy := false, pend := none }

/-- The writers of the flags of R29: a command its table does not name leaves a flag unchanged, and BUSY is no command's. -/
def Obligations.FlagsChangeOnlyByTheirWriters : Prop :=
  ∀ (i : Instr) (s t : State), exec i s = .next t →
    ((∀ src, i ≠ .ixLookup src) → (∀ src, i ≠ .ixMatch src) → t.hit = s.hit ∧ t.whit = s.whit) ∧
    (i ≠ .ixRead → t.lost = s.lost) ∧
    (i ≠ .shFinal → i ≠ .shStart → (∀ x, i ≠ .shFeed x) → (∀ x, i ≠ .xfeed x) → t.shValid = s.shValid) ∧
    t.dropped = s.dropped ∧ t.busy = s.busy ∧
    (t.err ≠ s.err → t.hit = s.hit ∧ t.whit = s.whit ∧ t.lost = s.lost ∧ t.shValid = s.shValid)

/-- R27: ix.append, ix.lookup, ix.match and ix.read write RES_ID, ix.read writes RES_WEAK and RES_HASH, and every other command
leaves them unchanged; no bus write but a soft reset changes them. -/
def Obligations.ResultRegistersHaveFourWriters : Prop :=
  (∀ (i : Instr) (s t : State), exec i s = .next t →
    ((∀ src, i ≠ .ixAppend src ∧ i ≠ .ixLookup src ∧ i ≠ .ixMatch src) → i ≠ .ixRead → t.resId = s.resId) ∧
    (i ≠ .ixRead → t.resWeak = s.resWeak ∧ t.resHash = s.resHash)) ∧
  (∀ (s t : State) (a : Access), busAccess a s = .next t → a.off ≠ 0x08 → sameResults s t)

/-! ## Reset (spec/70_reset_and_hazards.md) -/

/-- R34: the state after reset, after the reset input, and after a CTRL write with bit 0 set, has the reset values. -/
def Obligations.ResetValues : Prop :=
  State.reset.hasResetValues ∧
  (∀ s t : State, takeEvent .resetLine s = .next t → t.hasResetValues) ∧
  (∀ (s t : State) (v : Word), v.getLsbD 0 = true → busAccess ⟨.write v, 32, 0x08⟩ s = .next t → t.hasResetValues)

/-- R103: the reset input gives every piece of state its reset value, with no command in flight, whether or not one was; the next
CMD write is then accepted. -/
def Obligations.HardwareReset : Prop :=
  ∀ (s : State) (early : Bool) (rest : List Input),
    s.inputs = ⟨early, .resetLine⟩ :: rest → s.pend = none ∨ early = true →
      step s = .next { State.reset with inputs := rest, responses := s.responses } ∧
      ∀ w, ∃ t, busAccess ⟨.write w, 32, 0x00⟩ { State.reset with inputs := rest, responses := s.responses } = .next t ∧
        t.busy = true ∧ t.pend = some ⟨w, 0, 0, zeroHash⟩

/-- R104: a CTRL write with bit 0 set resets the whole block, also while a command is in flight, which is abandoned with none of
its effects; the other bits are ignored. -/
def Obligations.SoftReset : Prop :=
  ∀ (s : State) (v : Word) (early : Bool) (rest : List Input),
    s.inputs = ⟨early, .bus ⟨.write v, 32, 0x08⟩⟩ :: rest → s.pend = none ∨ early = true →
      (v.getLsbD 0 = true →
        step s = .next { State.reset with inputs := rest, responses := s.responses ++ [.ok] }) ∧
      (v.getLsbD 0 = false →
        step s = .next { s with inputs := rest, responses := s.responses ++ [.ok] })

/-! ## Invariants -/

/-- The state after reset meets the invariant, and its error register says nothing. -/
def Obligations.ResetMeetsTheInvariant : Prop := State.reset.Inv ∧ State.reset.errorCause

/-- Every step keeps the invariant, from every state that meets it: the two counters agree with the message and the table, the
digest is fresh while SH_VALID, MAP is canonical, below N and injective, BUSY shows PEND, and the latched operands are those of
the registers. -/
def Obligations.StepKeepsTheInvariant : Prop :=
  ∀ s t : State, s.Inv → step s = .next t → t.Inv

/-- R91: what raised the recorded error: ERRINFO is always a word that can raise the code in ERR. -/
def Obligations.StepKeepsTheErrorCause : Prop :=
  ∀ s t : State, s.errorCause → step s = .next t → t.errorCause

/-- R25: in every state a run reaches, whatever the host does, every value of MAP is below N and MAP is injective, so that N is
at least the number of keys and a block id is the value of one key or of none. -/
def Obligations.ReachableMapIsInjectiveBelowN : Prop :=
  ∀ (inputs : List Input) (k : Nat) (s : State),
    runSteps k { State.reset with inputs := inputs } = .next s →
      (∀ w id, mapFind w s.map = some id → id.toNat < s.n.toNat) ∧
      (∀ v w id, mapFind v s.map = some id → mapFind w s.map = some id → v = w) ∧
      s.map.length ≤ s.n.toNat ∧
      (∀ id : Word, id.toNat < s.n.toNat →
        (mapKeyOf id s.map = none ∧ ∀ w, mapFind w s.map ≠ some id) ∨
        ∃ w, mapFind w s.map = some id ∧ ∀ v, mapFind v s.map = some id → v = w)

/-! ## The host's procedures (spec/48_host_procedures.md) -/

/-- R111: appending joins a chunk to a last chunk of its tag, keeping the start of a Reusable one and adding the lengths, and
puts it behind a last chunk of the other tag; and after any sequence of appends, a Reusable chunk stands only beside Literal ones
and a Literal chunk only beside Reusable ones. -/
def Obligations.AppendedChunksAlternateTags : Prop :=
  (∀ c : Chunk, deltaAppend [] c = [c]) ∧
  (∀ (delta : List Chunk) (start length start' more : Long),
    deltaAppend (delta ++ [.reusable start length]) (.reusable start' more) = delta ++ [.reusable start (length + more)]) ∧
  (∀ (delta : List Chunk) (data more : List Byte),
    deltaAppend (delta ++ [.literal data]) (.literal more) = delta ++ [.literal (data ++ more)]) ∧
  (∀ (delta : List Chunk) (start length : Long) (data : List Byte),
    deltaAppend (delta ++ [.reusable start length]) (.literal data) = delta ++ [.reusable start length, .literal data] ∧
    deltaAppend (delta ++ [.literal data]) (.reusable start length) = delta ++ [.literal data, .reusable start length]) ∧
  ∀ chunks : List Chunk,
    (chunks.foldl deltaAppend []).IsChain (fun c d => ∃ (start length : Long) (data : List Byte),
      (c = .reusable start length ∧ d = .literal data) ∨ (c = .literal data ∧ d = .reusable start length))

/-- Serializing a delta to a sink that does not fail and deserializing what it holds gives the delta back, for every delta whose
literals fit the length field (R119, R120). -/
def Obligations.DeltaCodecRoundTrip : Prop :=
  ∀ delta : List Chunk, (∀ data, .literal data ∈ delta → data.length < 2 ^ 64) →
    ∃ bytes, serializeDelta delta ⟨[], none⟩ = .next ⟨bytes, none⟩ ∧ deserializeDelta ⟨bytes, false⟩ = .next delta

/-- A Reusable record is 17 bytes with tag 0, a Literal record 9 bytes more than its data with tag 1 (R119); nothing stands around
the records; and the serializer fails with IOError exactly when the sink has no room for them all (R122; a sink as a number of bytes
it takes is log 22). -/
def Obligations.DeltaRecordSizes : Prop :=
  (∀ start length : Long, (serializeChunk (.reusable start length)).length = 17 ∧
    (serializeChunk (.reusable start length)).head? = some 0) ∧
  (∀ data : List Byte, (serializeChunk (.literal data)).length = 9 + data.length ∧
    (serializeChunk (.literal data)).head? = some 1 ∧ data <:+ serializeChunk (.literal data)) ∧
  ∀ (delta : List Chunk) (out : Sink),
    (∀ t, serializeDelta delta out = .next t → t.written = out.written ++ delta.flatMap serializeChunk) ∧
    (out.room = none → ∃ t, serializeDelta delta out = .next t) ∧
    (∀ left, out.room = some left →
      ((delta.map (fun c => (serializeChunk c).length)).sum ≤ left → ∃ t, serializeDelta delta out = .next t) ∧
      (left < (delta.map (fun c => (serializeChunk c).length)).sum → serializeDelta delta out = .fault .io))

/-- buildSignature refuses a block length below 32 with ConfigError, after ix.setbl has recorded CONFIG (R77, R98, R108). -/
def Obligations.BuildSignatureRejectsShortBlocks : Prop :=
  ∀ (basis : Stream) (blockLength : Word) (s : State), s.idle → s.err = .noError → blockLength.toNat < 32 →
    buildSignature basis blockLength s = .fault .config

/-- A scan with BLOCKLEN = 0 is refused, not given the empty delta (R125). -/
def Obligations.ScanOfZeroLengthBlocksIsRefused : Prop :=
  ∀ (new : Stream) (s : State), s.blockLen = 0 → computeDelta new s = .refused .scanWithZeroBlockLength

/-- A scan against a signature never loaded, with N = 0 and so an empty MAP, completes and gives only Literal data, namely the
whole new stream in one chunk (R105, R112 to R114). -/
def Obligations.ScanOfAnEmptySignatureIsLiteral : Prop :=
  ∀ (new : List Byte) (s : State), s.idle → s.err = .noError → s.map = [] → s.blockLen ≠ 0 →
    ∃ sc, computeDelta ⟨new, false⟩ s = .next sc ∧ sc.block.err = .noError ∧
      sc.delta = (if new = [] then [] else [.literal new])

/-- R84: building a signature of a basis with block length L of at least 32 that fits the table leaves N = ⌈len/L⌉ blocks, the
digests of the chunks in order, and MAP sending the weak checksum of a chunk to the last chunk that has it. -/
def Obligations.SignatureOfABasis : Prop :=
  ∀ (basis : List Byte) (blockLength : Word) (s : State), s.Inv → s.idle → s.err = .noError →
    32 ≤ blockLength.toNat → (basis.length + blockLength.toNat - 1) / blockLength.toNat ≤ Config.ixCap →
      ∃ t, buildSignature ⟨basis, false⟩ blockLength s = .next t ∧ t.err = .noError ∧
        t.blockLen = blockLength ∧
        t.n.toNat = (basis.length + blockLength.toNat - 1) / blockLength.toNat ∧
        ∀ chunk : Nat → List Byte,
          (∀ j, chunk j = (basis.drop (j * blockLength.toNat)).take blockLength.toNat) →
          (∀ j, j < t.n.toNat → t.hashes[j]? = some (Config.sha256 (chunk j))) ∧
          (∀ (w : Word) (j : Nat), j < t.n.toNat →
            (mapFind w t.map = some (BitVec.ofNat 32 j) ↔
              (sumOf (weakTriple (chunk j)).1 (weakTriple (chunk j)).2.1 = w ∧
                ∀ i, j < i → i < t.n.toNat → sumOf (weakTriple (chunk i)).1 (weakTriple (chunk i)).2.1 ≠ w))) ∧
          ∀ w, mapFind w t.map = none ↔
            ∀ j, j < t.n.toNat → sumOf (weakTriple (chunk j)).1 (weakTriple (chunk j)).2.1 ≠ w

/-- applyDelta (R121, R122): it fails only with IOError. No rollback: the output keeps what it held and what the chunks before a
failing one wrote, and nothing after a failure is done. Without an error the output has gained the bytes of every chunk in order.
Where no seek, read or write fails, it fails exactly when a Reusable chunk reaches beyond the basis. A failing seek is IOError with
nothing written, a failing write IOError with the part the sink had room for, and a failing read IOError. What can fail, and when, is
the model's form (log 21, log 22). -/
def Obligations.PatchCopiesEveryChunkOrFailsWithIoError : Prop :=
  (∀ (basis : Basis) (delta : List Chunk) (out : Sink),
    ((applyDelta basis delta out).error = none ∨ (applyDelta basis delta out).error = some .io) ∧
    out.written <+: (applyDelta basis delta out).output.written ∧
    ((applyDelta basis delta out).error = none →
      (applyDelta basis delta out).output.written = out.written ++ delta.flatMap (fun c => match c with
        | .reusable start length => (basis.bytes.drop start.toNat).take length.toNat
        | .literal data => data) ∧
      (applyDelta basis delta out).output.written.length = out.written.length + (delta.map (fun c => match c with
        | .reusable _ length => length.toNat
        | .literal data => data.length)).sum) ∧
    (basis.seeks = none → basis.reads = none → out.room = none →
      ((applyDelta basis delta out).error = none ↔
        ∀ start length, .reusable start length ∈ delta → start.toNat + length.toNat ≤ basis.bytes.length))) ∧
  (∀ (bytes : List Byte) (reads : Budget) (start length : Long) (rest : List Chunk) (out : Sink),
    applyDelta ⟨bytes, some 0, reads⟩ (.reusable start length :: rest) out = ⟨out, some .io⟩) ∧
  (∀ (basis : Basis) (before after : List Chunk) (out : Sink),
    ((applyDelta basis before out).error = none →
      (applyDelta basis before out).output.written <+: (applyDelta basis (before ++ after) out).output.written) ∧
    ((applyDelta basis before out).error ≠ none →
      applyDelta basis (before ++ after) out = applyDelta basis before out)) ∧
  (∀ (basis : Basis) (data written : List Byte) (rest : List Chunk) (left : Nat), left < data.length →
    applyDelta basis (.literal data :: rest) ⟨written, some left⟩ =
      ⟨⟨written ++ data.take left, some 0⟩, some .io⟩) ∧
  (∀ (bytes written : List Byte) (start length : Long) (rest : List Chunk) (left : Nat),
    start.toNat + length.toNat ≤ bytes.length → left < length.toNat →
      applyDelta ⟨bytes, none, none⟩ (.reusable start length :: rest) ⟨written, some left⟩ =
        ⟨⟨written ++ (bytes.drop start.toNat).take left, some 0⟩, some .io⟩) ∧
  ∀ (bytes : List Byte) (seeks : Budget) (length : Long) (rest : List Chunk) (out : Sink), length ≠ 0 →
    (applyDelta ⟨bytes, seeks, some 0⟩ (.reusable 0 length :: rest) out).error = some .io
end

