-- ==== Sys2Proof/Laws/State.lean ====
section
/-! SUPPORT. What each named update of State does to each field, so that no proof unfolds a record update. -/

namespace Sys2Proof.Machine

/-! ## setRc -/

@[simp] theorem setRc_a (x y z : Half) (s : State) : (s.setRc x y z).a = x := rfl
@[simp] theorem setRc_b (x y z : Half) (s : State) : (s.setRc x y z).b = y := rfl
@[simp] theorem setRc_count (x y z : Half) (s : State) : (s.setRc x y z).count = z := rfl
@[simp] theorem setRc_msg (x y z : Half) (s : State) : (s.setRc x y z).msg = s.msg := rfl
@[simp] theorem setRc_shLen (x y z : Half) (s : State) : (s.setRc x y z).shLen = s.shLen := rfl
@[simp] theorem setRc_digest (x y z : Half) (s : State) : (s.setRc x y z).digest = s.digest := rfl
@[simp] theorem setRc_shValid (x y z : Half) (s : State) : (s.setRc x y z).shValid = s.shValid := rfl
@[simp] theorem setRc_blockLen (x y z : Half) (s : State) : (s.setRc x y z).blockLen = s.blockLen := rfl
@[simp] theorem setRc_n (x y z : Half) (s : State) : (s.setRc x y z).n = s.n := rfl
@[simp] theorem setRc_hashes (x y z : Half) (s : State) : (s.setRc x y z).hashes = s.hashes := rfl
@[simp] theorem setRc_map (x y z : Half) (s : State) : (s.setRc x y z).map = s.map := rfl
@[simp] theorem setRc_arg0 (x y z : Half) (s : State) : (s.setRc x y z).arg0 = s.arg0 := rfl
@[simp] theorem setRc_arg1 (x y z : Half) (s : State) : (s.setRc x y z).arg1 = s.arg1 := rfl
@[simp] theorem setRc_hin (x y z : Half) (s : State) : (s.setRc x y z).hin = s.hin := rfl
@[simp] theorem setRc_resId (x y z : Half) (s : State) : (s.setRc x y z).resId = s.resId := rfl
@[simp] theorem setRc_resWeak (x y z : Half) (s : State) : (s.setRc x y z).resWeak = s.resWeak := rfl
@[simp] theorem setRc_resHash (x y z : Half) (s : State) : (s.setRc x y z).resHash = s.resHash := rfl
@[simp] theorem setRc_busy (x y z : Half) (s : State) : (s.setRc x y z).busy = s.busy := rfl
@[simp] theorem setRc_hit (x y z : Half) (s : State) : (s.setRc x y z).hit = s.hit := rfl
@[simp] theorem setRc_whit (x y z : Half) (s : State) : (s.setRc x y z).whit = s.whit := rfl
@[simp] theorem setRc_lost (x y z : Half) (s : State) : (s.setRc x y z).lost = s.lost := rfl
@[simp] theorem setRc_dropped (x y z : Half) (s : State) : (s.setRc x y z).dropped = s.dropped := rfl
@[simp] theorem setRc_err (x y z : Half) (s : State) : (s.setRc x y z).err = s.err := rfl
@[simp] theorem setRc_errInfo (x y z : Half) (s : State) : (s.setRc x y z).errInfo = s.errInfo := rfl
@[simp] theorem setRc_pend (x y z : Half) (s : State) : (s.setRc x y z).pend = s.pend := rfl
@[simp] theorem setRc_inputs (x y z : Half) (s : State) : (s.setRc x y z).inputs = s.inputs := rfl
@[simp] theorem setRc_responses (x y z : Half) (s : State) : (s.setRc x y z).responses = s.responses := rfl

/-! ## feedRc -/

@[simp] theorem feedRc_a (x : Byte) (s : State) : (s.feedRc x).a = s.a + zext16 x := rfl
@[simp] theorem feedRc_b (x : Byte) (s : State) : (s.feedRc x).b = s.b + (s.a + zext16 x) := rfl
@[simp] theorem feedRc_count (x : Byte) (s : State) : (s.feedRc x).count = s.count + 1 := rfl
@[simp] theorem feedRc_msg (x : Byte) (s : State) : (s.feedRc x).msg = s.msg := rfl
@[simp] theorem feedRc_shLen (x : Byte) (s : State) : (s.feedRc x).shLen = s.shLen := rfl
@[simp] theorem feedRc_digest (x : Byte) (s : State) : (s.feedRc x).digest = s.digest := rfl
@[simp] theorem feedRc_shValid (x : Byte) (s : State) : (s.feedRc x).shValid = s.shValid := rfl
@[simp] theorem feedRc_blockLen (x : Byte) (s : State) : (s.feedRc x).blockLen = s.blockLen := rfl
@[simp] theorem feedRc_n (x : Byte) (s : State) : (s.feedRc x).n = s.n := rfl
@[simp] theorem feedRc_hashes (x : Byte) (s : State) : (s.feedRc x).hashes = s.hashes := rfl
@[simp] theorem feedRc_map (x : Byte) (s : State) : (s.feedRc x).map = s.map := rfl
@[simp] theorem feedRc_arg0 (x : Byte) (s : State) : (s.feedRc x).arg0 = s.arg0 := rfl
@[simp] theorem feedRc_arg1 (x : Byte) (s : State) : (s.feedRc x).arg1 = s.arg1 := rfl
@[simp] theorem feedRc_hin (x : Byte) (s : State) : (s.feedRc x).hin = s.hin := rfl
@[simp] theorem feedRc_resId (x : Byte) (s : State) : (s.feedRc x).resId = s.resId := rfl
@[simp] theorem feedRc_resWeak (x : Byte) (s : State) : (s.feedRc x).resWeak = s.resWeak := rfl
@[simp] theorem feedRc_resHash (x : Byte) (s : State) : (s.feedRc x).resHash = s.resHash := rfl
@[simp] theorem feedRc_busy (x : Byte) (s : State) : (s.feedRc x).busy = s.busy := rfl
@[simp] theorem feedRc_hit (x : Byte) (s : State) : (s.feedRc x).hit = s.hit := rfl
@[simp] theorem feedRc_whit (x : Byte) (s : State) : (s.feedRc x).whit = s.whit := rfl
@[simp] theorem feedRc_lost (x : Byte) (s : State) : (s.feedRc x).lost = s.lost := rfl
@[simp] theorem feedRc_dropped (x : Byte) (s : State) : (s.feedRc x).dropped = s.dropped := rfl
@[simp] theorem feedRc_err (x : Byte) (s : State) : (s.feedRc x).err = s.err := rfl
@[simp] theorem feedRc_errInfo (x : Byte) (s : State) : (s.feedRc x).errInfo = s.errInfo := rfl
@[simp] theorem feedRc_pend (x : Byte) (s : State) : (s.feedRc x).pend = s.pend := rfl
@[simp] theorem feedRc_inputs (x : Byte) (s : State) : (s.feedRc x).inputs = s.inputs := rfl
@[simp] theorem feedRc_responses (x : Byte) (s : State) : (s.feedRc x).responses = s.responses := rfl

/-! ## rollRc -/

@[simp] theorem rollRc_a (x y : Byte) (s : State) : (s.rollRc x y).a = s.a - zext16 x + zext16 y := rfl
@[simp] theorem rollRc_b (x y : Byte) (s : State) : (s.rollRc x y).b = s.b - s.count * zext16 x + (s.a - zext16 x + zext16 y) := rfl
@[simp] theorem rollRc_count (x y : Byte) (s : State) : (s.rollRc x y).count = s.count := rfl
@[simp] theorem rollRc_msg (x y : Byte) (s : State) : (s.rollRc x y).msg = s.msg := rfl
@[simp] theorem rollRc_shLen (x y : Byte) (s : State) : (s.rollRc x y).shLen = s.shLen := rfl
@[simp] theorem rollRc_digest (x y : Byte) (s : State) : (s.rollRc x y).digest = s.digest := rfl
@[simp] theorem rollRc_shValid (x y : Byte) (s : State) : (s.rollRc x y).shValid = s.shValid := rfl
@[simp] theorem rollRc_blockLen (x y : Byte) (s : State) : (s.rollRc x y).blockLen = s.blockLen := rfl
@[simp] theorem rollRc_n (x y : Byte) (s : State) : (s.rollRc x y).n = s.n := rfl
@[simp] theorem rollRc_hashes (x y : Byte) (s : State) : (s.rollRc x y).hashes = s.hashes := rfl
@[simp] theorem rollRc_map (x y : Byte) (s : State) : (s.rollRc x y).map = s.map := rfl
@[simp] theorem rollRc_arg0 (x y : Byte) (s : State) : (s.rollRc x y).arg0 = s.arg0 := rfl
@[simp] theorem rollRc_arg1 (x y : Byte) (s : State) : (s.rollRc x y).arg1 = s.arg1 := rfl
@[simp] theorem rollRc_hin (x y : Byte) (s : State) : (s.rollRc x y).hin = s.hin := rfl
@[simp] theorem rollRc_resId (x y : Byte) (s : State) : (s.rollRc x y).resId = s.resId := rfl
@[simp] theorem rollRc_resWeak (x y : Byte) (s : State) : (s.rollRc x y).resWeak = s.resWeak := rfl
@[simp] theorem rollRc_resHash (x y : Byte) (s : State) : (s.rollRc x y).resHash = s.resHash := rfl
@[simp] theorem rollRc_busy (x y : Byte) (s : State) : (s.rollRc x y).busy = s.busy := rfl
@[simp] theorem rollRc_hit (x y : Byte) (s : State) : (s.rollRc x y).hit = s.hit := rfl
@[simp] theorem rollRc_whit (x y : Byte) (s : State) : (s.rollRc x y).whit = s.whit := rfl
@[simp] theorem rollRc_lost (x y : Byte) (s : State) : (s.rollRc x y).lost = s.lost := rfl
@[simp] theorem rollRc_dropped (x y : Byte) (s : State) : (s.rollRc x y).dropped = s.dropped := rfl
@[simp] theorem rollRc_err (x y : Byte) (s : State) : (s.rollRc x y).err = s.err := rfl
@[simp] theorem rollRc_errInfo (x y : Byte) (s : State) : (s.rollRc x y).errInfo = s.errInfo := rfl
@[simp] theorem rollRc_pend (x y : Byte) (s : State) : (s.rollRc x y).pend = s.pend := rfl
@[simp] theorem rollRc_inputs (x y : Byte) (s : State) : (s.rollRc x y).inputs = s.inputs := rfl
@[simp] theorem rollRc_responses (x y : Byte) (s : State) : (s.rollRc x y).responses = s.responses := rfl

/-! ## startSh -/

@[simp] theorem startSh_a (s : State) : (s.startSh).a = s.a := rfl
@[simp] theorem startSh_b (s : State) : (s.startSh).b = s.b := rfl
@[simp] theorem startSh_count (s : State) : (s.startSh).count = s.count := rfl
@[simp] theorem startSh_msg (s : State) : (s.startSh).msg = [] := rfl
@[simp] theorem startSh_shLen (s : State) : (s.startSh).shLen = 0 := rfl
@[simp] theorem startSh_digest (s : State) : (s.startSh).digest = s.digest := rfl
@[simp] theorem startSh_shValid (s : State) : (s.startSh).shValid = false := rfl
@[simp] theorem startSh_blockLen (s : State) : (s.startSh).blockLen = s.blockLen := rfl
@[simp] theorem startSh_n (s : State) : (s.startSh).n = s.n := rfl
@[simp] theorem startSh_hashes (s : State) : (s.startSh).hashes = s.hashes := rfl
@[simp] theorem startSh_map (s : State) : (s.startSh).map = s.map := rfl
@[simp] theorem startSh_arg0 (s : State) : (s.startSh).arg0 = s.arg0 := rfl
@[simp] theorem startSh_arg1 (s : State) : (s.startSh).arg1 = s.arg1 := rfl
@[simp] theorem startSh_hin (s : State) : (s.startSh).hin = s.hin := rfl
@[simp] theorem startSh_resId (s : State) : (s.startSh).resId = s.resId := rfl
@[simp] theorem startSh_resWeak (s : State) : (s.startSh).resWeak = s.resWeak := rfl
@[simp] theorem startSh_resHash (s : State) : (s.startSh).resHash = s.resHash := rfl
@[simp] theorem startSh_busy (s : State) : (s.startSh).busy = s.busy := rfl
@[simp] theorem startSh_hit (s : State) : (s.startSh).hit = s.hit := rfl
@[simp] theorem startSh_whit (s : State) : (s.startSh).whit = s.whit := rfl
@[simp] theorem startSh_lost (s : State) : (s.startSh).lost = s.lost := rfl
@[simp] theorem startSh_dropped (s : State) : (s.startSh).dropped = s.dropped := rfl
@[simp] theorem startSh_err (s : State) : (s.startSh).err = s.err := rfl
@[simp] theorem startSh_errInfo (s : State) : (s.startSh).errInfo = s.errInfo := rfl
@[simp] theorem startSh_pend (s : State) : (s.startSh).pend = s.pend := rfl
@[simp] theorem startSh_inputs (s : State) : (s.startSh).inputs = s.inputs := rfl
@[simp] theorem startSh_responses (s : State) : (s.startSh).responses = s.responses := rfl

/-! ## feedSh -/

@[simp] theorem feedSh_a (x : Byte) (s : State) : (s.feedSh x).a = s.a := rfl
@[simp] theorem feedSh_b (x : Byte) (s : State) : (s.feedSh x).b = s.b := rfl
@[simp] theorem feedSh_count (x : Byte) (s : State) : (s.feedSh x).count = s.count := rfl
@[simp] theorem feedSh_msg (x : Byte) (s : State) : (s.feedSh x).msg = s.msg ++ [x] := rfl
@[simp] theorem feedSh_shLen (x : Byte) (s : State) : (s.feedSh x).shLen = s.shLen + 1 := rfl
@[simp] theorem feedSh_digest (x : Byte) (s : State) : (s.feedSh x).digest = s.digest := rfl
@[simp] theorem feedSh_shValid (x : Byte) (s : State) : (s.feedSh x).shValid = false := rfl
@[simp] theorem feedSh_blockLen (x : Byte) (s : State) : (s.feedSh x).blockLen = s.blockLen := rfl
@[simp] theorem feedSh_n (x : Byte) (s : State) : (s.feedSh x).n = s.n := rfl
@[simp] theorem feedSh_hashes (x : Byte) (s : State) : (s.feedSh x).hashes = s.hashes := rfl
@[simp] theorem feedSh_map (x : Byte) (s : State) : (s.feedSh x).map = s.map := rfl
@[simp] theorem feedSh_arg0 (x : Byte) (s : State) : (s.feedSh x).arg0 = s.arg0 := rfl
@[simp] theorem feedSh_arg1 (x : Byte) (s : State) : (s.feedSh x).arg1 = s.arg1 := rfl
@[simp] theorem feedSh_hin (x : Byte) (s : State) : (s.feedSh x).hin = s.hin := rfl
@[simp] theorem feedSh_resId (x : Byte) (s : State) : (s.feedSh x).resId = s.resId := rfl
@[simp] theorem feedSh_resWeak (x : Byte) (s : State) : (s.feedSh x).resWeak = s.resWeak := rfl
@[simp] theorem feedSh_resHash (x : Byte) (s : State) : (s.feedSh x).resHash = s.resHash := rfl
@[simp] theorem feedSh_busy (x : Byte) (s : State) : (s.feedSh x).busy = s.busy := rfl
@[simp] theorem feedSh_hit (x : Byte) (s : State) : (s.feedSh x).hit = s.hit := rfl
@[simp] theorem feedSh_whit (x : Byte) (s : State) : (s.feedSh x).whit = s.whit := rfl
@[simp] theorem feedSh_lost (x : Byte) (s : State) : (s.feedSh x).lost = s.lost := rfl
@[simp] theorem feedSh_dropped (x : Byte) (s : State) : (s.feedSh x).dropped = s.dropped := rfl
@[simp] theorem feedSh_err (x : Byte) (s : State) : (s.feedSh x).err = s.err := rfl
@[simp] theorem feedSh_errInfo (x : Byte) (s : State) : (s.feedSh x).errInfo = s.errInfo := rfl
@[simp] theorem feedSh_pend (x : Byte) (s : State) : (s.feedSh x).pend = s.pend := rfl
@[simp] theorem feedSh_inputs (x : Byte) (s : State) : (s.feedSh x).inputs = s.inputs := rfl
@[simp] theorem feedSh_responses (x : Byte) (s : State) : (s.feedSh x).responses = s.responses := rfl

/-! ## finalSh -/

@[simp] theorem finalSh_a (s : State) : (s.finalSh).a = s.a := rfl
@[simp] theorem finalSh_b (s : State) : (s.finalSh).b = s.b := rfl
@[simp] theorem finalSh_count (s : State) : (s.finalSh).count = s.count := rfl
@[simp] theorem finalSh_msg (s : State) : (s.finalSh).msg = s.msg := rfl
@[simp] theorem finalSh_shLen (s : State) : (s.finalSh).shLen = s.shLen := rfl
@[simp] theorem finalSh_digest (s : State) : (s.finalSh).digest = Config.sha256 s.msg := rfl
@[simp] theorem finalSh_shValid (s : State) : (s.finalSh).shValid = true := rfl
@[simp] theorem finalSh_blockLen (s : State) : (s.finalSh).blockLen = s.blockLen := rfl
@[simp] theorem finalSh_n (s : State) : (s.finalSh).n = s.n := rfl
@[simp] theorem finalSh_hashes (s : State) : (s.finalSh).hashes = s.hashes := rfl
@[simp] theorem finalSh_map (s : State) : (s.finalSh).map = s.map := rfl
@[simp] theorem finalSh_arg0 (s : State) : (s.finalSh).arg0 = s.arg0 := rfl
@[simp] theorem finalSh_arg1 (s : State) : (s.finalSh).arg1 = s.arg1 := rfl
@[simp] theorem finalSh_hin (s : State) : (s.finalSh).hin = s.hin := rfl
@[simp] theorem finalSh_resId (s : State) : (s.finalSh).resId = s.resId := rfl
@[simp] theorem finalSh_resWeak (s : State) : (s.finalSh).resWeak = s.resWeak := rfl
@[simp] theorem finalSh_resHash (s : State) : (s.finalSh).resHash = s.resHash := rfl
@[simp] theorem finalSh_busy (s : State) : (s.finalSh).busy = s.busy := rfl
@[simp] theorem finalSh_hit (s : State) : (s.finalSh).hit = s.hit := rfl
@[simp] theorem finalSh_whit (s : State) : (s.finalSh).whit = s.whit := rfl
@[simp] theorem finalSh_lost (s : State) : (s.finalSh).lost = s.lost := rfl
@[simp] theorem finalSh_dropped (s : State) : (s.finalSh).dropped = s.dropped := rfl
@[simp] theorem finalSh_err (s : State) : (s.finalSh).err = s.err := rfl
@[simp] theorem finalSh_errInfo (s : State) : (s.finalSh).errInfo = s.errInfo := rfl
@[simp] theorem finalSh_pend (s : State) : (s.finalSh).pend = s.pend := rfl
@[simp] theorem finalSh_inputs (s : State) : (s.finalSh).inputs = s.inputs := rfl
@[simp] theorem finalSh_responses (s : State) : (s.finalSh).responses = s.responses := rfl

/-! ## clearIx -/

@[simp] theorem clearIx_a (s : State) : (s.clearIx).a = s.a := rfl
@[simp] theorem clearIx_b (s : State) : (s.clearIx).b = s.b := rfl
@[simp] theorem clearIx_count (s : State) : (s.clearIx).count = s.count := rfl
@[simp] theorem clearIx_msg (s : State) : (s.clearIx).msg = s.msg := rfl
@[simp] theorem clearIx_shLen (s : State) : (s.clearIx).shLen = s.shLen := rfl
@[simp] theorem clearIx_digest (s : State) : (s.clearIx).digest = s.digest := rfl
@[simp] theorem clearIx_shValid (s : State) : (s.clearIx).shValid = s.shValid := rfl
@[simp] theorem clearIx_blockLen (s : State) : (s.clearIx).blockLen = s.blockLen := rfl
@[simp] theorem clearIx_n (s : State) : (s.clearIx).n = 0 := rfl
@[simp] theorem clearIx_hashes (s : State) : (s.clearIx).hashes = [] := rfl
@[simp] theorem clearIx_map (s : State) : (s.clearIx).map = [] := rfl
@[simp] theorem clearIx_arg0 (s : State) : (s.clearIx).arg0 = s.arg0 := rfl
@[simp] theorem clearIx_arg1 (s : State) : (s.clearIx).arg1 = s.arg1 := rfl
@[simp] theorem clearIx_hin (s : State) : (s.clearIx).hin = s.hin := rfl
@[simp] theorem clearIx_resId (s : State) : (s.clearIx).resId = s.resId := rfl
@[simp] theorem clearIx_resWeak (s : State) : (s.clearIx).resWeak = s.resWeak := rfl
@[simp] theorem clearIx_resHash (s : State) : (s.clearIx).resHash = s.resHash := rfl
@[simp] theorem clearIx_busy (s : State) : (s.clearIx).busy = s.busy := rfl
@[simp] theorem clearIx_hit (s : State) : (s.clearIx).hit = s.hit := rfl
@[simp] theorem clearIx_whit (s : State) : (s.clearIx).whit = s.whit := rfl
@[simp] theorem clearIx_lost (s : State) : (s.clearIx).lost = s.lost := rfl
@[simp] theorem clearIx_dropped (s : State) : (s.clearIx).dropped = s.dropped := rfl
@[simp] theorem clearIx_err (s : State) : (s.clearIx).err = s.err := rfl
@[simp] theorem clearIx_errInfo (s : State) : (s.clearIx).errInfo = s.errInfo := rfl
@[simp] theorem clearIx_pend (s : State) : (s.clearIx).pend = s.pend := rfl
@[simp] theorem clearIx_inputs (s : State) : (s.clearIx).inputs = s.inputs := rfl
@[simp] theorem clearIx_responses (s : State) : (s.clearIx).responses = s.responses := rfl

/-! ## setBlockLen -/

@[simp] theorem setBlockLen_a (v : Word) (s : State) : (s.setBlockLen v).a = s.a := rfl
@[simp] theorem setBlockLen_b (v : Word) (s : State) : (s.setBlockLen v).b = s.b := rfl
@[simp] theorem setBlockLen_count (v : Word) (s : State) : (s.setBlockLen v).count = s.count := rfl
@[simp] theorem setBlockLen_msg (v : Word) (s : State) : (s.setBlockLen v).msg = s.msg := rfl
@[simp] theorem setBlockLen_shLen (v : Word) (s : State) : (s.setBlockLen v).shLen = s.shLen := rfl
@[simp] theorem setBlockLen_digest (v : Word) (s : State) : (s.setBlockLen v).digest = s.digest := rfl
@[simp] theorem setBlockLen_shValid (v : Word) (s : State) : (s.setBlockLen v).shValid = s.shValid := rfl
@[simp] theorem setBlockLen_blockLen (v : Word) (s : State) : (s.setBlockLen v).blockLen = v := rfl
@[simp] theorem setBlockLen_n (v : Word) (s : State) : (s.setBlockLen v).n = s.n := rfl
@[simp] theorem setBlockLen_hashes (v : Word) (s : State) : (s.setBlockLen v).hashes = s.hashes := rfl
@[simp] theorem setBlockLen_map (v : Word) (s : State) : (s.setBlockLen v).map = s.map := rfl
@[simp] theorem setBlockLen_arg0 (v : Word) (s : State) : (s.setBlockLen v).arg0 = s.arg0 := rfl
@[simp] theorem setBlockLen_arg1 (v : Word) (s : State) : (s.setBlockLen v).arg1 = s.arg1 := rfl
@[simp] theorem setBlockLen_hin (v : Word) (s : State) : (s.setBlockLen v).hin = s.hin := rfl
@[simp] theorem setBlockLen_resId (v : Word) (s : State) : (s.setBlockLen v).resId = s.resId := rfl
@[simp] theorem setBlockLen_resWeak (v : Word) (s : State) : (s.setBlockLen v).resWeak = s.resWeak := rfl
@[simp] theorem setBlockLen_resHash (v : Word) (s : State) : (s.setBlockLen v).resHash = s.resHash := rfl
@[simp] theorem setBlockLen_busy (v : Word) (s : State) : (s.setBlockLen v).busy = s.busy := rfl
@[simp] theorem setBlockLen_hit (v : Word) (s : State) : (s.setBlockLen v).hit = s.hit := rfl
@[simp] theorem setBlockLen_whit (v : Word) (s : State) : (s.setBlockLen v).whit = s.whit := rfl
@[simp] theorem setBlockLen_lost (v : Word) (s : State) : (s.setBlockLen v).lost = s.lost := rfl
@[simp] theorem setBlockLen_dropped (v : Word) (s : State) : (s.setBlockLen v).dropped = s.dropped := rfl
@[simp] theorem setBlockLen_err (v : Word) (s : State) : (s.setBlockLen v).err = s.err := rfl
@[simp] theorem setBlockLen_errInfo (v : Word) (s : State) : (s.setBlockLen v).errInfo = s.errInfo := rfl
@[simp] theorem setBlockLen_pend (v : Word) (s : State) : (s.setBlockLen v).pend = s.pend := rfl
@[simp] theorem setBlockLen_inputs (v : Word) (s : State) : (s.setBlockLen v).inputs = s.inputs := rfl
@[simp] theorem setBlockLen_responses (v : Word) (s : State) : (s.setBlockLen v).responses = s.responses := rfl

/-! ## appendBlock -/

@[simp] theorem appendBlock_a (w : Word) (h : Hash) (s : State) : (s.appendBlock w h).a = s.a := rfl
@[simp] theorem appendBlock_b (w : Word) (h : Hash) (s : State) : (s.appendBlock w h).b = s.b := rfl
@[simp] theorem appendBlock_count (w : Word) (h : Hash) (s : State) : (s.appendBlock w h).count = s.count := rfl
@[simp] theorem appendBlock_msg (w : Word) (h : Hash) (s : State) : (s.appendBlock w h).msg = s.msg := rfl
@[simp] theorem appendBlock_shLen (w : Word) (h : Hash) (s : State) : (s.appendBlock w h).shLen = s.shLen := rfl
@[simp] theorem appendBlock_digest (w : Word) (h : Hash) (s : State) : (s.appendBlock w h).digest = s.digest := rfl
@[simp] theorem appendBlock_shValid (w : Word) (h : Hash) (s : State) : (s.appendBlock w h).shValid = s.shValid := rfl
@[simp] theorem appendBlock_blockLen (w : Word) (h : Hash) (s : State) : (s.appendBlock w h).blockLen = s.blockLen := rfl
@[simp] theorem appendBlock_n (w : Word) (h : Hash) (s : State) : (s.appendBlock w h).n = s.n + 1 := rfl
@[simp] theorem appendBlock_hashes (w : Word) (h : Hash) (s : State) : (s.appendBlock w h).hashes = s.hashes.take s.n.toNat ++ [h] := rfl
@[simp] theorem appendBlock_map (w : Word) (h : Hash) (s : State) : (s.appendBlock w h).map = mapInsert w s.n s.map := rfl
@[simp] theorem appendBlock_arg0 (w : Word) (h : Hash) (s : State) : (s.appendBlock w h).arg0 = s.arg0 := rfl
@[simp] theorem appendBlock_arg1 (w : Word) (h : Hash) (s : State) : (s.appendBlock w h).arg1 = s.arg1 := rfl
@[simp] theorem appendBlock_hin (w : Word) (h : Hash) (s : State) : (s.appendBlock w h).hin = s.hin := rfl
@[simp] theorem appendBlock_resId (w : Word) (h : Hash) (s : State) : (s.appendBlock w h).resId = s.n := rfl
@[simp] theorem appendBlock_resWeak (w : Word) (h : Hash) (s : State) : (s.appendBlock w h).resWeak = s.resWeak := rfl
@[simp] theorem appendBlock_resHash (w : Word) (h : Hash) (s : State) : (s.appendBlock w h).resHash = s.resHash := rfl
@[simp] theorem appendBlock_busy (w : Word) (h : Hash) (s : State) : (s.appendBlock w h).busy = s.busy := rfl
@[simp] theorem appendBlock_hit (w : Word) (h : Hash) (s : State) : (s.appendBlock w h).hit = s.hit := rfl
@[simp] theorem appendBlock_whit (w : Word) (h : Hash) (s : State) : (s.appendBlock w h).whit = s.whit := rfl
@[simp] theorem appendBlock_lost (w : Word) (h : Hash) (s : State) : (s.appendBlock w h).lost = s.lost := rfl
@[simp] theorem appendBlock_dropped (w : Word) (h : Hash) (s : State) : (s.appendBlock w h).dropped = s.dropped := rfl
@[simp] theorem appendBlock_err (w : Word) (h : Hash) (s : State) : (s.appendBlock w h).err = s.err := rfl
@[simp] theorem appendBlock_errInfo (w : Word) (h : Hash) (s : State) : (s.appendBlock w h).errInfo = s.errInfo := rfl
@[simp] theorem appendBlock_pend (w : Word) (h : Hash) (s : State) : (s.appendBlock w h).pend = s.pend := rfl
@[simp] theorem appendBlock_inputs (w : Word) (h : Hash) (s : State) : (s.appendBlock w h).inputs = s.inputs := rfl
@[simp] theorem appendBlock_responses (w : Word) (h : Hash) (s : State) : (s.appendBlock w h).responses = s.responses := rfl

/-! ## setReadBack -/

@[simp] theorem setReadBack_a (w : Word) (h : Hash) (k : Option Word) (s : State) : (s.setReadBack w h k).a = s.a := rfl
@[simp] theorem setReadBack_b (w : Word) (h : Hash) (k : Option Word) (s : State) : (s.setReadBack w h k).b = s.b := rfl
@[simp] theorem setReadBack_count (w : Word) (h : Hash) (k : Option Word) (s : State) : (s.setReadBack w h k).count = s.count := rfl
@[simp] theorem setReadBack_msg (w : Word) (h : Hash) (k : Option Word) (s : State) : (s.setReadBack w h k).msg = s.msg := rfl
@[simp] theorem setReadBack_shLen (w : Word) (h : Hash) (k : Option Word) (s : State) : (s.setReadBack w h k).shLen = s.shLen := rfl
@[simp] theorem setReadBack_digest (w : Word) (h : Hash) (k : Option Word) (s : State) : (s.setReadBack w h k).digest = s.digest := rfl
@[simp] theorem setReadBack_shValid (w : Word) (h : Hash) (k : Option Word) (s : State) : (s.setReadBack w h k).shValid = s.shValid := rfl
@[simp] theorem setReadBack_blockLen (w : Word) (h : Hash) (k : Option Word) (s : State) : (s.setReadBack w h k).blockLen = s.blockLen := rfl
@[simp] theorem setReadBack_n (w : Word) (h : Hash) (k : Option Word) (s : State) : (s.setReadBack w h k).n = s.n := rfl
@[simp] theorem setReadBack_hashes (w : Word) (h : Hash) (k : Option Word) (s : State) : (s.setReadBack w h k).hashes = s.hashes := rfl
@[simp] theorem setReadBack_map (w : Word) (h : Hash) (k : Option Word) (s : State) : (s.setReadBack w h k).map = s.map := rfl
@[simp] theorem setReadBack_arg0 (w : Word) (h : Hash) (k : Option Word) (s : State) : (s.setReadBack w h k).arg0 = s.arg0 := rfl
@[simp] theorem setReadBack_arg1 (w : Word) (h : Hash) (k : Option Word) (s : State) : (s.setReadBack w h k).arg1 = s.arg1 := rfl
@[simp] theorem setReadBack_hin (w : Word) (h : Hash) (k : Option Word) (s : State) : (s.setReadBack w h k).hin = s.hin := rfl
@[simp] theorem setReadBack_resId (w : Word) (h : Hash) (k : Option Word) (s : State) : (s.setReadBack w h k).resId = w := rfl
@[simp] theorem setReadBack_resWeak (w : Word) (h : Hash) (k : Option Word) (s : State) : (s.setReadBack w h k).resWeak = k.getD 0 := rfl
@[simp] theorem setReadBack_resHash (w : Word) (h : Hash) (k : Option Word) (s : State) : (s.setReadBack w h k).resHash = h := rfl
@[simp] theorem setReadBack_busy (w : Word) (h : Hash) (k : Option Word) (s : State) : (s.setReadBack w h k).busy = s.busy := rfl
@[simp] theorem setReadBack_hit (w : Word) (h : Hash) (k : Option Word) (s : State) : (s.setReadBack w h k).hit = s.hit := rfl
@[simp] theorem setReadBack_whit (w : Word) (h : Hash) (k : Option Word) (s : State) : (s.setReadBack w h k).whit = s.whit := rfl
@[simp] theorem setReadBack_lost (w : Word) (h : Hash) (k : Option Word) (s : State) : (s.setReadBack w h k).lost = k.isNone := rfl
@[simp] theorem setReadBack_dropped (w : Word) (h : Hash) (k : Option Word) (s : State) : (s.setReadBack w h k).dropped = s.dropped := rfl
@[simp] theorem setReadBack_err (w : Word) (h : Hash) (k : Option Word) (s : State) : (s.setReadBack w h k).err = s.err := rfl
@[simp] theorem setReadBack_errInfo (w : Word) (h : Hash) (k : Option Word) (s : State) : (s.setReadBack w h k).errInfo = s.errInfo := rfl
@[simp] theorem setReadBack_pend (w : Word) (h : Hash) (k : Option Word) (s : State) : (s.setReadBack w h k).pend = s.pend := rfl
@[simp] theorem setReadBack_inputs (w : Word) (h : Hash) (k : Option Word) (s : State) : (s.setReadBack w h k).inputs = s.inputs := rfl
@[simp] theorem setReadBack_responses (w : Word) (h : Hash) (k : Option Word) (s : State) : (s.setReadBack w h k).responses = s.responses := rfl

/-! ## raiseError -/

@[simp] theorem raiseError_a (c : ErrCode) (w : Word) (s : State) : (s.raiseError c w).a = s.a := rfl
@[simp] theorem raiseError_b (c : ErrCode) (w : Word) (s : State) : (s.raiseError c w).b = s.b := rfl
@[simp] theorem raiseError_count (c : ErrCode) (w : Word) (s : State) : (s.raiseError c w).count = s.count := rfl
@[simp] theorem raiseError_msg (c : ErrCode) (w : Word) (s : State) : (s.raiseError c w).msg = s.msg := rfl
@[simp] theorem raiseError_shLen (c : ErrCode) (w : Word) (s : State) : (s.raiseError c w).shLen = s.shLen := rfl
@[simp] theorem raiseError_digest (c : ErrCode) (w : Word) (s : State) : (s.raiseError c w).digest = s.digest := rfl
@[simp] theorem raiseError_shValid (c : ErrCode) (w : Word) (s : State) : (s.raiseError c w).shValid = s.shValid := rfl
@[simp] theorem raiseError_blockLen (c : ErrCode) (w : Word) (s : State) : (s.raiseError c w).blockLen = s.blockLen := rfl
@[simp] theorem raiseError_n (c : ErrCode) (w : Word) (s : State) : (s.raiseError c w).n = s.n := rfl
@[simp] theorem raiseError_hashes (c : ErrCode) (w : Word) (s : State) : (s.raiseError c w).hashes = s.hashes := rfl
@[simp] theorem raiseError_map (c : ErrCode) (w : Word) (s : State) : (s.raiseError c w).map = s.map := rfl
@[simp] theorem raiseError_arg0 (c : ErrCode) (w : Word) (s : State) : (s.raiseError c w).arg0 = s.arg0 := rfl
@[simp] theorem raiseError_arg1 (c : ErrCode) (w : Word) (s : State) : (s.raiseError c w).arg1 = s.arg1 := rfl
@[simp] theorem raiseError_hin (c : ErrCode) (w : Word) (s : State) : (s.raiseError c w).hin = s.hin := rfl
@[simp] theorem raiseError_resId (c : ErrCode) (w : Word) (s : State) : (s.raiseError c w).resId = s.resId := rfl
@[simp] theorem raiseError_resWeak (c : ErrCode) (w : Word) (s : State) : (s.raiseError c w).resWeak = s.resWeak := rfl
@[simp] theorem raiseError_resHash (c : ErrCode) (w : Word) (s : State) : (s.raiseError c w).resHash = s.resHash := rfl
@[simp] theorem raiseError_busy (c : ErrCode) (w : Word) (s : State) : (s.raiseError c w).busy = s.busy := rfl
@[simp] theorem raiseError_hit (c : ErrCode) (w : Word) (s : State) : (s.raiseError c w).hit = s.hit := rfl
@[simp] theorem raiseError_whit (c : ErrCode) (w : Word) (s : State) : (s.raiseError c w).whit = s.whit := rfl
@[simp] theorem raiseError_lost (c : ErrCode) (w : Word) (s : State) : (s.raiseError c w).lost = s.lost := rfl
@[simp] theorem raiseError_dropped (c : ErrCode) (w : Word) (s : State) : (s.raiseError c w).dropped = s.dropped := rfl
@[simp] theorem raiseError_err (c : ErrCode) (w : Word) (s : State) : (s.raiseError c w).err = c := rfl
@[simp] theorem raiseError_errInfo (c : ErrCode) (w : Word) (s : State) : (s.raiseError c w).errInfo = w := rfl
@[simp] theorem raiseError_pend (c : ErrCode) (w : Word) (s : State) : (s.raiseError c w).pend = s.pend := rfl
@[simp] theorem raiseError_inputs (c : ErrCode) (w : Word) (s : State) : (s.raiseError c w).inputs = s.inputs := rfl
@[simp] theorem raiseError_responses (c : ErrCode) (w : Word) (s : State) : (s.raiseError c w).responses = s.responses := rfl

/-! ## dropCommand -/

@[simp] theorem dropCommand_a (s : State) : (s.dropCommand).a = s.a := rfl
@[simp] theorem dropCommand_b (s : State) : (s.dropCommand).b = s.b := rfl
@[simp] theorem dropCommand_count (s : State) : (s.dropCommand).count = s.count := rfl
@[simp] theorem dropCommand_msg (s : State) : (s.dropCommand).msg = s.msg := rfl
@[simp] theorem dropCommand_shLen (s : State) : (s.dropCommand).shLen = s.shLen := rfl
@[simp] theorem dropCommand_digest (s : State) : (s.dropCommand).digest = s.digest := rfl
@[simp] theorem dropCommand_shValid (s : State) : (s.dropCommand).shValid = s.shValid := rfl
@[simp] theorem dropCommand_blockLen (s : State) : (s.dropCommand).blockLen = s.blockLen := rfl
@[simp] theorem dropCommand_n (s : State) : (s.dropCommand).n = s.n := rfl
@[simp] theorem dropCommand_hashes (s : State) : (s.dropCommand).hashes = s.hashes := rfl
@[simp] theorem dropCommand_map (s : State) : (s.dropCommand).map = s.map := rfl
@[simp] theorem dropCommand_arg0 (s : State) : (s.dropCommand).arg0 = s.arg0 := rfl
@[simp] theorem dropCommand_arg1 (s : State) : (s.dropCommand).arg1 = s.arg1 := rfl
@[simp] theorem dropCommand_hin (s : State) : (s.dropCommand).hin = s.hin := rfl
@[simp] theorem dropCommand_resId (s : State) : (s.dropCommand).resId = s.resId := rfl
@[simp] theorem dropCommand_resWeak (s : State) : (s.dropCommand).resWeak = s.resWeak := rfl
@[simp] theorem dropCommand_resHash (s : State) : (s.dropCommand).resHash = s.resHash := rfl
@[simp] theorem dropCommand_busy (s : State) : (s.dropCommand).busy = s.busy := rfl
@[simp] theorem dropCommand_hit (s : State) : (s.dropCommand).hit = s.hit := rfl
@[simp] theorem dropCommand_whit (s : State) : (s.dropCommand).whit = s.whit := rfl
@[simp] theorem dropCommand_lost (s : State) : (s.dropCommand).lost = s.lost := rfl
@[simp] theorem dropCommand_dropped (s : State) : (s.dropCommand).dropped = true := rfl
@[simp] theorem dropCommand_err (s : State) : (s.dropCommand).err = s.err := rfl
@[simp] theorem dropCommand_errInfo (s : State) : (s.dropCommand).errInfo = s.errInfo := rfl
@[simp] theorem dropCommand_pend (s : State) : (s.dropCommand).pend = s.pend := rfl
@[simp] theorem dropCommand_inputs (s : State) : (s.dropCommand).inputs = s.inputs := rfl
@[simp] theorem dropCommand_responses (s : State) : (s.dropCommand).responses = s.responses := rfl

/-! ## clearError -/

@[simp] theorem clearError_a (s : State) : (s.clearError).a = s.a := rfl
@[simp] theorem clearError_b (s : State) : (s.clearError).b = s.b := rfl
@[simp] theorem clearError_count (s : State) : (s.clearError).count = s.count := rfl
@[simp] theorem clearError_msg (s : State) : (s.clearError).msg = s.msg := rfl
@[simp] theorem clearError_shLen (s : State) : (s.clearError).shLen = s.shLen := rfl
@[simp] theorem clearError_digest (s : State) : (s.clearError).digest = s.digest := rfl
@[simp] theorem clearError_shValid (s : State) : (s.clearError).shValid = s.shValid := rfl
@[simp] theorem clearError_blockLen (s : State) : (s.clearError).blockLen = s.blockLen := rfl
@[simp] theorem clearError_n (s : State) : (s.clearError).n = s.n := rfl
@[simp] theorem clearError_hashes (s : State) : (s.clearError).hashes = s.hashes := rfl
@[simp] theorem clearError_map (s : State) : (s.clearError).map = s.map := rfl
@[simp] theorem clearError_arg0 (s : State) : (s.clearError).arg0 = s.arg0 := rfl
@[simp] theorem clearError_arg1 (s : State) : (s.clearError).arg1 = s.arg1 := rfl
@[simp] theorem clearError_hin (s : State) : (s.clearError).hin = s.hin := rfl
@[simp] theorem clearError_resId (s : State) : (s.clearError).resId = s.resId := rfl
@[simp] theorem clearError_resWeak (s : State) : (s.clearError).resWeak = s.resWeak := rfl
@[simp] theorem clearError_resHash (s : State) : (s.clearError).resHash = s.resHash := rfl
@[simp] theorem clearError_busy (s : State) : (s.clearError).busy = s.busy := rfl
@[simp] theorem clearError_hit (s : State) : (s.clearError).hit = s.hit := rfl
@[simp] theorem clearError_whit (s : State) : (s.clearError).whit = s.whit := rfl
@[simp] theorem clearError_lost (s : State) : (s.clearError).lost = s.lost := rfl
@[simp] theorem clearError_dropped (s : State) : (s.clearError).dropped = s.dropped := rfl
@[simp] theorem clearError_err (s : State) : (s.clearError).err = .noError := rfl
@[simp] theorem clearError_errInfo (s : State) : (s.clearError).errInfo = 0 := rfl
@[simp] theorem clearError_pend (s : State) : (s.clearError).pend = s.pend := rfl
@[simp] theorem clearError_inputs (s : State) : (s.clearError).inputs = s.inputs := rfl
@[simp] theorem clearError_responses (s : State) : (s.clearError).responses = s.responses := rfl

/-! ## clearDropped -/

@[simp] theorem clearDropped_a (s : State) : (s.clearDropped).a = s.a := rfl
@[simp] theorem clearDropped_b (s : State) : (s.clearDropped).b = s.b := rfl
@[simp] theorem clearDropped_count (s : State) : (s.clearDropped).count = s.count := rfl
@[simp] theorem clearDropped_msg (s : State) : (s.clearDropped).msg = s.msg := rfl
@[simp] theorem clearDropped_shLen (s : State) : (s.clearDropped).shLen = s.shLen := rfl
@[simp] theorem clearDropped_digest (s : State) : (s.clearDropped).digest = s.digest := rfl
@[simp] theorem clearDropped_shValid (s : State) : (s.clearDropped).shValid = s.shValid := rfl
@[simp] theorem clearDropped_blockLen (s : State) : (s.clearDropped).blockLen = s.blockLen := rfl
@[simp] theorem clearDropped_n (s : State) : (s.clearDropped).n = s.n := rfl
@[simp] theorem clearDropped_hashes (s : State) : (s.clearDropped).hashes = s.hashes := rfl
@[simp] theorem clearDropped_map (s : State) : (s.clearDropped).map = s.map := rfl
@[simp] theorem clearDropped_arg0 (s : State) : (s.clearDropped).arg0 = s.arg0 := rfl
@[simp] theorem clearDropped_arg1 (s : State) : (s.clearDropped).arg1 = s.arg1 := rfl
@[simp] theorem clearDropped_hin (s : State) : (s.clearDropped).hin = s.hin := rfl
@[simp] theorem clearDropped_resId (s : State) : (s.clearDropped).resId = s.resId := rfl
@[simp] theorem clearDropped_resWeak (s : State) : (s.clearDropped).resWeak = s.resWeak := rfl
@[simp] theorem clearDropped_resHash (s : State) : (s.clearDropped).resHash = s.resHash := rfl
@[simp] theorem clearDropped_busy (s : State) : (s.clearDropped).busy = s.busy := rfl
@[simp] theorem clearDropped_hit (s : State) : (s.clearDropped).hit = s.hit := rfl
@[simp] theorem clearDropped_whit (s : State) : (s.clearDropped).whit = s.whit := rfl
@[simp] theorem clearDropped_lost (s : State) : (s.clearDropped).lost = s.lost := rfl
@[simp] theorem clearDropped_dropped (s : State) : (s.clearDropped).dropped = false := rfl
@[simp] theorem clearDropped_err (s : State) : (s.clearDropped).err = s.err := rfl
@[simp] theorem clearDropped_errInfo (s : State) : (s.clearDropped).errInfo = s.errInfo := rfl
@[simp] theorem clearDropped_pend (s : State) : (s.clearDropped).pend = s.pend := rfl
@[simp] theorem clearDropped_inputs (s : State) : (s.clearDropped).inputs = s.inputs := rfl
@[simp] theorem clearDropped_responses (s : State) : (s.clearDropped).responses = s.responses := rfl

/-! ## accept -/

@[simp] theorem accept_a (w : Word) (s : State) : (s.accept w).a = s.a := rfl
@[simp] theorem accept_b (w : Word) (s : State) : (s.accept w).b = s.b := rfl
@[simp] theorem accept_count (w : Word) (s : State) : (s.accept w).count = s.count := rfl
@[simp] theorem accept_msg (w : Word) (s : State) : (s.accept w).msg = s.msg := rfl
@[simp] theorem accept_shLen (w : Word) (s : State) : (s.accept w).shLen = s.shLen := rfl
@[simp] theorem accept_digest (w : Word) (s : State) : (s.accept w).digest = s.digest := rfl
@[simp] theorem accept_shValid (w : Word) (s : State) : (s.accept w).shValid = s.shValid := rfl
@[simp] theorem accept_blockLen (w : Word) (s : State) : (s.accept w).blockLen = s.blockLen := rfl
@[simp] theorem accept_n (w : Word) (s : State) : (s.accept w).n = s.n := rfl
@[simp] theorem accept_hashes (w : Word) (s : State) : (s.accept w).hashes = s.hashes := rfl
@[simp] theorem accept_map (w : Word) (s : State) : (s.accept w).map = s.map := rfl
@[simp] theorem accept_arg0 (w : Word) (s : State) : (s.accept w).arg0 = s.arg0 := rfl
@[simp] theorem accept_arg1 (w : Word) (s : State) : (s.accept w).arg1 = s.arg1 := rfl
@[simp] theorem accept_hin (w : Word) (s : State) : (s.accept w).hin = s.hin := rfl
@[simp] theorem accept_resId (w : Word) (s : State) : (s.accept w).resId = s.resId := rfl
@[simp] theorem accept_resWeak (w : Word) (s : State) : (s.accept w).resWeak = s.resWeak := rfl
@[simp] theorem accept_resHash (w : Word) (s : State) : (s.accept w).resHash = s.resHash := rfl
@[simp] theorem accept_busy (w : Word) (s : State) : (s.accept w).busy = true := rfl
@[simp] theorem accept_hit (w : Word) (s : State) : (s.accept w).hit = s.hit := rfl
@[simp] theorem accept_whit (w : Word) (s : State) : (s.accept w).whit = s.whit := rfl
@[simp] theorem accept_lost (w : Word) (s : State) : (s.accept w).lost = s.lost := rfl
@[simp] theorem accept_dropped (w : Word) (s : State) : (s.accept w).dropped = s.dropped := rfl
@[simp] theorem accept_err (w : Word) (s : State) : (s.accept w).err = s.err := rfl
@[simp] theorem accept_errInfo (w : Word) (s : State) : (s.accept w).errInfo = s.errInfo := rfl
@[simp] theorem accept_pend (w : Word) (s : State) : (s.accept w).pend = some ⟨w, s.arg0, s.arg1, s.hin⟩ := rfl
@[simp] theorem accept_inputs (w : Word) (s : State) : (s.accept w).inputs = s.inputs := rfl
@[simp] theorem accept_responses (w : Word) (s : State) : (s.accept w).responses = s.responses := rfl

/-! ## retire -/

@[simp] theorem retire_a (s : State) : (s.retire).a = s.a := rfl
@[simp] theorem retire_b (s : State) : (s.retire).b = s.b := rfl
@[simp] theorem retire_count (s : State) : (s.retire).count = s.count := rfl
@[simp] theorem retire_msg (s : State) : (s.retire).msg = s.msg := rfl
@[simp] theorem retire_shLen (s : State) : (s.retire).shLen = s.shLen := rfl
@[simp] theorem retire_digest (s : State) : (s.retire).digest = s.digest := rfl
@[simp] theorem retire_shValid (s : State) : (s.retire).shValid = s.shValid := rfl
@[simp] theorem retire_blockLen (s : State) : (s.retire).blockLen = s.blockLen := rfl
@[simp] theorem retire_n (s : State) : (s.retire).n = s.n := rfl
@[simp] theorem retire_hashes (s : State) : (s.retire).hashes = s.hashes := rfl
@[simp] theorem retire_map (s : State) : (s.retire).map = s.map := rfl
@[simp] theorem retire_arg0 (s : State) : (s.retire).arg0 = s.arg0 := rfl
@[simp] theorem retire_arg1 (s : State) : (s.retire).arg1 = s.arg1 := rfl
@[simp] theorem retire_hin (s : State) : (s.retire).hin = s.hin := rfl
@[simp] theorem retire_resId (s : State) : (s.retire).resId = s.resId := rfl
@[simp] theorem retire_resWeak (s : State) : (s.retire).resWeak = s.resWeak := rfl
@[simp] theorem retire_resHash (s : State) : (s.retire).resHash = s.resHash := rfl
@[simp] theorem retire_busy (s : State) : (s.retire).busy = false := rfl
@[simp] theorem retire_hit (s : State) : (s.retire).hit = s.hit := rfl
@[simp] theorem retire_whit (s : State) : (s.retire).whit = s.whit := rfl
@[simp] theorem retire_lost (s : State) : (s.retire).lost = s.lost := rfl
@[simp] theorem retire_dropped (s : State) : (s.retire).dropped = s.dropped := rfl
@[simp] theorem retire_err (s : State) : (s.retire).err = s.err := rfl
@[simp] theorem retire_errInfo (s : State) : (s.retire).errInfo = s.errInfo := rfl
@[simp] theorem retire_pend (s : State) : (s.retire).pend = none := rfl
@[simp] theorem retire_inputs (s : State) : (s.retire).inputs = s.inputs := rfl
@[simp] theorem retire_responses (s : State) : (s.retire).responses = s.responses := rfl

/-! ## respond -/

@[simp] theorem respond_a (r : Response) (s : State) : (s.respond r).a = s.a := rfl
@[simp] theorem respond_b (r : Response) (s : State) : (s.respond r).b = s.b := rfl
@[simp] theorem respond_count (r : Response) (s : State) : (s.respond r).count = s.count := rfl
@[simp] theorem respond_msg (r : Response) (s : State) : (s.respond r).msg = s.msg := rfl
@[simp] theorem respond_shLen (r : Response) (s : State) : (s.respond r).shLen = s.shLen := rfl
@[simp] theorem respond_digest (r : Response) (s : State) : (s.respond r).digest = s.digest := rfl
@[simp] theorem respond_shValid (r : Response) (s : State) : (s.respond r).shValid = s.shValid := rfl
@[simp] theorem respond_blockLen (r : Response) (s : State) : (s.respond r).blockLen = s.blockLen := rfl
@[simp] theorem respond_n (r : Response) (s : State) : (s.respond r).n = s.n := rfl
@[simp] theorem respond_hashes (r : Response) (s : State) : (s.respond r).hashes = s.hashes := rfl
@[simp] theorem respond_map (r : Response) (s : State) : (s.respond r).map = s.map := rfl
@[simp] theorem respond_arg0 (r : Response) (s : State) : (s.respond r).arg0 = s.arg0 := rfl
@[simp] theorem respond_arg1 (r : Response) (s : State) : (s.respond r).arg1 = s.arg1 := rfl
@[simp] theorem respond_hin (r : Response) (s : State) : (s.respond r).hin = s.hin := rfl
@[simp] theorem respond_resId (r : Response) (s : State) : (s.respond r).resId = s.resId := rfl
@[simp] theorem respond_resWeak (r : Response) (s : State) : (s.respond r).resWeak = s.resWeak := rfl
@[simp] theorem respond_resHash (r : Response) (s : State) : (s.respond r).resHash = s.resHash := rfl
@[simp] theorem respond_busy (r : Response) (s : State) : (s.respond r).busy = s.busy := rfl
@[simp] theorem respond_hit (r : Response) (s : State) : (s.respond r).hit = s.hit := rfl
@[simp] theorem respond_whit (r : Response) (s : State) : (s.respond r).whit = s.whit := rfl
@[simp] theorem respond_lost (r : Response) (s : State) : (s.respond r).lost = s.lost := rfl
@[simp] theorem respond_dropped (r : Response) (s : State) : (s.respond r).dropped = s.dropped := rfl
@[simp] theorem respond_err (r : Response) (s : State) : (s.respond r).err = s.err := rfl
@[simp] theorem respond_errInfo (r : Response) (s : State) : (s.respond r).errInfo = s.errInfo := rfl
@[simp] theorem respond_pend (r : Response) (s : State) : (s.respond r).pend = s.pend := rfl
@[simp] theorem respond_inputs (r : Response) (s : State) : (s.respond r).inputs = s.inputs := rfl
@[simp] theorem respond_responses (r : Response) (s : State) : (s.respond r).responses = s.responses ++ [r] := rfl

/-! ## setArg0 -/

@[simp] theorem setArg0_a (v : Word) (s : State) : (s.setArg0 v).a = s.a := rfl
@[simp] theorem setArg0_b (v : Word) (s : State) : (s.setArg0 v).b = s.b := rfl
@[simp] theorem setArg0_count (v : Word) (s : State) : (s.setArg0 v).count = s.count := rfl
@[simp] theorem setArg0_msg (v : Word) (s : State) : (s.setArg0 v).msg = s.msg := rfl
@[simp] theorem setArg0_shLen (v : Word) (s : State) : (s.setArg0 v).shLen = s.shLen := rfl
@[simp] theorem setArg0_digest (v : Word) (s : State) : (s.setArg0 v).digest = s.digest := rfl
@[simp] theorem setArg0_shValid (v : Word) (s : State) : (s.setArg0 v).shValid = s.shValid := rfl
@[simp] theorem setArg0_blockLen (v : Word) (s : State) : (s.setArg0 v).blockLen = s.blockLen := rfl
@[simp] theorem setArg0_n (v : Word) (s : State) : (s.setArg0 v).n = s.n := rfl
@[simp] theorem setArg0_hashes (v : Word) (s : State) : (s.setArg0 v).hashes = s.hashes := rfl
@[simp] theorem setArg0_map (v : Word) (s : State) : (s.setArg0 v).map = s.map := rfl
@[simp] theorem setArg0_arg0 (v : Word) (s : State) : (s.setArg0 v).arg0 = v := rfl
@[simp] theorem setArg0_arg1 (v : Word) (s : State) : (s.setArg0 v).arg1 = s.arg1 := rfl
@[simp] theorem setArg0_hin (v : Word) (s : State) : (s.setArg0 v).hin = s.hin := rfl
@[simp] theorem setArg0_resId (v : Word) (s : State) : (s.setArg0 v).resId = s.resId := rfl
@[simp] theorem setArg0_resWeak (v : Word) (s : State) : (s.setArg0 v).resWeak = s.resWeak := rfl
@[simp] theorem setArg0_resHash (v : Word) (s : State) : (s.setArg0 v).resHash = s.resHash := rfl
@[simp] theorem setArg0_busy (v : Word) (s : State) : (s.setArg0 v).busy = s.busy := rfl
@[simp] theorem setArg0_hit (v : Word) (s : State) : (s.setArg0 v).hit = s.hit := rfl
@[simp] theorem setArg0_whit (v : Word) (s : State) : (s.setArg0 v).whit = s.whit := rfl
@[simp] theorem setArg0_lost (v : Word) (s : State) : (s.setArg0 v).lost = s.lost := rfl
@[simp] theorem setArg0_dropped (v : Word) (s : State) : (s.setArg0 v).dropped = s.dropped := rfl
@[simp] theorem setArg0_err (v : Word) (s : State) : (s.setArg0 v).err = s.err := rfl
@[simp] theorem setArg0_errInfo (v : Word) (s : State) : (s.setArg0 v).errInfo = s.errInfo := rfl
@[simp] theorem setArg0_pend (v : Word) (s : State) : (s.setArg0 v).pend = s.pend := rfl
@[simp] theorem setArg0_inputs (v : Word) (s : State) : (s.setArg0 v).inputs = s.inputs := rfl
@[simp] theorem setArg0_responses (v : Word) (s : State) : (s.setArg0 v).responses = s.responses := rfl

/-! ## setArg1 -/

@[simp] theorem setArg1_a (v : Word) (s : State) : (s.setArg1 v).a = s.a := rfl
@[simp] theorem setArg1_b (v : Word) (s : State) : (s.setArg1 v).b = s.b := rfl
@[simp] theorem setArg1_count (v : Word) (s : State) : (s.setArg1 v).count = s.count := rfl
@[simp] theorem setArg1_msg (v : Word) (s : State) : (s.setArg1 v).msg = s.msg := rfl
@[simp] theorem setArg1_shLen (v : Word) (s : State) : (s.setArg1 v).shLen = s.shLen := rfl
@[simp] theorem setArg1_digest (v : Word) (s : State) : (s.setArg1 v).digest = s.digest := rfl
@[simp] theorem setArg1_shValid (v : Word) (s : State) : (s.setArg1 v).shValid = s.shValid := rfl
@[simp] theorem setArg1_blockLen (v : Word) (s : State) : (s.setArg1 v).blockLen = s.blockLen := rfl
@[simp] theorem setArg1_n (v : Word) (s : State) : (s.setArg1 v).n = s.n := rfl
@[simp] theorem setArg1_hashes (v : Word) (s : State) : (s.setArg1 v).hashes = s.hashes := rfl
@[simp] theorem setArg1_map (v : Word) (s : State) : (s.setArg1 v).map = s.map := rfl
@[simp] theorem setArg1_arg0 (v : Word) (s : State) : (s.setArg1 v).arg0 = s.arg0 := rfl
@[simp] theorem setArg1_arg1 (v : Word) (s : State) : (s.setArg1 v).arg1 = v := rfl
@[simp] theorem setArg1_hin (v : Word) (s : State) : (s.setArg1 v).hin = s.hin := rfl
@[simp] theorem setArg1_resId (v : Word) (s : State) : (s.setArg1 v).resId = s.resId := rfl
@[simp] theorem setArg1_resWeak (v : Word) (s : State) : (s.setArg1 v).resWeak = s.resWeak := rfl
@[simp] theorem setArg1_resHash (v : Word) (s : State) : (s.setArg1 v).resHash = s.resHash := rfl
@[simp] theorem setArg1_busy (v : Word) (s : State) : (s.setArg1 v).busy = s.busy := rfl
@[simp] theorem setArg1_hit (v : Word) (s : State) : (s.setArg1 v).hit = s.hit := rfl
@[simp] theorem setArg1_whit (v : Word) (s : State) : (s.setArg1 v).whit = s.whit := rfl
@[simp] theorem setArg1_lost (v : Word) (s : State) : (s.setArg1 v).lost = s.lost := rfl
@[simp] theorem setArg1_dropped (v : Word) (s : State) : (s.setArg1 v).dropped = s.dropped := rfl
@[simp] theorem setArg1_err (v : Word) (s : State) : (s.setArg1 v).err = s.err := rfl
@[simp] theorem setArg1_errInfo (v : Word) (s : State) : (s.setArg1 v).errInfo = s.errInfo := rfl
@[simp] theorem setArg1_pend (v : Word) (s : State) : (s.setArg1 v).pend = s.pend := rfl
@[simp] theorem setArg1_inputs (v : Word) (s : State) : (s.setArg1 v).inputs = s.inputs := rfl
@[simp] theorem setArg1_responses (v : Word) (s : State) : (s.setArg1 v).responses = s.responses := rfl

/-! ## setHin -/

@[simp] theorem setHin_a (k : Fin 8) (v : Word) (s : State) : (s.setHin k v).a = s.a := rfl
@[simp] theorem setHin_b (k : Fin 8) (v : Word) (s : State) : (s.setHin k v).b = s.b := rfl
@[simp] theorem setHin_count (k : Fin 8) (v : Word) (s : State) : (s.setHin k v).count = s.count := rfl
@[simp] theorem setHin_msg (k : Fin 8) (v : Word) (s : State) : (s.setHin k v).msg = s.msg := rfl
@[simp] theorem setHin_shLen (k : Fin 8) (v : Word) (s : State) : (s.setHin k v).shLen = s.shLen := rfl
@[simp] theorem setHin_digest (k : Fin 8) (v : Word) (s : State) : (s.setHin k v).digest = s.digest := rfl
@[simp] theorem setHin_shValid (k : Fin 8) (v : Word) (s : State) : (s.setHin k v).shValid = s.shValid := rfl
@[simp] theorem setHin_blockLen (k : Fin 8) (v : Word) (s : State) : (s.setHin k v).blockLen = s.blockLen := rfl
@[simp] theorem setHin_n (k : Fin 8) (v : Word) (s : State) : (s.setHin k v).n = s.n := rfl
@[simp] theorem setHin_hashes (k : Fin 8) (v : Word) (s : State) : (s.setHin k v).hashes = s.hashes := rfl
@[simp] theorem setHin_map (k : Fin 8) (v : Word) (s : State) : (s.setHin k v).map = s.map := rfl
@[simp] theorem setHin_arg0 (k : Fin 8) (v : Word) (s : State) : (s.setHin k v).arg0 = s.arg0 := rfl
@[simp] theorem setHin_arg1 (k : Fin 8) (v : Word) (s : State) : (s.setHin k v).arg1 = s.arg1 := rfl
@[simp] theorem setHin_hin (k : Fin 8) (v : Word) (s : State) : (s.setHin k v).hin = setHashWord s.hin k v := rfl
@[simp] theorem setHin_resId (k : Fin 8) (v : Word) (s : State) : (s.setHin k v).resId = s.resId := rfl
@[simp] theorem setHin_resWeak (k : Fin 8) (v : Word) (s : State) : (s.setHin k v).resWeak = s.resWeak := rfl
@[simp] theorem setHin_resHash (k : Fin 8) (v : Word) (s : State) : (s.setHin k v).resHash = s.resHash := rfl
@[simp] theorem setHin_busy (k : Fin 8) (v : Word) (s : State) : (s.setHin k v).busy = s.busy := rfl
@[simp] theorem setHin_hit (k : Fin 8) (v : Word) (s : State) : (s.setHin k v).hit = s.hit := rfl
@[simp] theorem setHin_whit (k : Fin 8) (v : Word) (s : State) : (s.setHin k v).whit = s.whit := rfl
@[simp] theorem setHin_lost (k : Fin 8) (v : Word) (s : State) : (s.setHin k v).lost = s.lost := rfl
@[simp] theorem setHin_dropped (k : Fin 8) (v : Word) (s : State) : (s.setHin k v).dropped = s.dropped := rfl
@[simp] theorem setHin_err (k : Fin 8) (v : Word) (s : State) : (s.setHin k v).err = s.err := rfl
@[simp] theorem setHin_errInfo (k : Fin 8) (v : Word) (s : State) : (s.setHin k v).errInfo = s.errInfo := rfl
@[simp] theorem setHin_pend (k : Fin 8) (v : Word) (s : State) : (s.setHin k v).pend = s.pend := rfl
@[simp] theorem setHin_inputs (k : Fin 8) (v : Word) (s : State) : (s.setHin k v).inputs = s.inputs := rfl
@[simp] theorem setHin_responses (k : Fin 8) (v : Word) (s : State) : (s.setHin k v).responses = s.responses := rfl

/-! ## setInputs -/

@[simp] theorem setInputs_a (l : List Input) (s : State) : (s.setInputs l).a = s.a := rfl
@[simp] theorem setInputs_b (l : List Input) (s : State) : (s.setInputs l).b = s.b := rfl
@[simp] theorem setInputs_count (l : List Input) (s : State) : (s.setInputs l).count = s.count := rfl
@[simp] theorem setInputs_msg (l : List Input) (s : State) : (s.setInputs l).msg = s.msg := rfl
@[simp] theorem setInputs_shLen (l : List Input) (s : State) : (s.setInputs l).shLen = s.shLen := rfl
@[simp] theorem setInputs_digest (l : List Input) (s : State) : (s.setInputs l).digest = s.digest := rfl
@[simp] theorem setInputs_shValid (l : List Input) (s : State) : (s.setInputs l).shValid = s.shValid := rfl
@[simp] theorem setInputs_blockLen (l : List Input) (s : State) : (s.setInputs l).blockLen = s.blockLen := rfl
@[simp] theorem setInputs_n (l : List Input) (s : State) : (s.setInputs l).n = s.n := rfl
@[simp] theorem setInputs_hashes (l : List Input) (s : State) : (s.setInputs l).hashes = s.hashes := rfl
@[simp] theorem setInputs_map (l : List Input) (s : State) : (s.setInputs l).map = s.map := rfl
@[simp] theorem setInputs_arg0 (l : List Input) (s : State) : (s.setInputs l).arg0 = s.arg0 := rfl
@[simp] theorem setInputs_arg1 (l : List Input) (s : State) : (s.setInputs l).arg1 = s.arg1 := rfl
@[simp] theorem setInputs_hin (l : List Input) (s : State) : (s.setInputs l).hin = s.hin := rfl
@[simp] theorem setInputs_resId (l : List Input) (s : State) : (s.setInputs l).resId = s.resId := rfl
@[simp] theorem setInputs_resWeak (l : List Input) (s : State) : (s.setInputs l).resWeak = s.resWeak := rfl
@[simp] theorem setInputs_resHash (l : List Input) (s : State) : (s.setInputs l).resHash = s.resHash := rfl
@[simp] theorem setInputs_busy (l : List Input) (s : State) : (s.setInputs l).busy = s.busy := rfl
@[simp] theorem setInputs_hit (l : List Input) (s : State) : (s.setInputs l).hit = s.hit := rfl
@[simp] theorem setInputs_whit (l : List Input) (s : State) : (s.setInputs l).whit = s.whit := rfl
@[simp] theorem setInputs_lost (l : List Input) (s : State) : (s.setInputs l).lost = s.lost := rfl
@[simp] theorem setInputs_dropped (l : List Input) (s : State) : (s.setInputs l).dropped = s.dropped := rfl
@[simp] theorem setInputs_err (l : List Input) (s : State) : (s.setInputs l).err = s.err := rfl
@[simp] theorem setInputs_errInfo (l : List Input) (s : State) : (s.setInputs l).errInfo = s.errInfo := rfl
@[simp] theorem setInputs_pend (l : List Input) (s : State) : (s.setInputs l).pend = s.pend := rfl
@[simp] theorem setInputs_inputs (l : List Input) (s : State) : (s.setInputs l).inputs = l := rfl
@[simp] theorem setInputs_responses (l : List Input) (s : State) : (s.setInputs l).responses = s.responses := rfl

/-! ## resetBlock -/

@[simp] theorem resetBlock_a (s : State) : s.resetBlock.a = State.reset.a := rfl
@[simp] theorem resetBlock_b (s : State) : s.resetBlock.b = State.reset.b := rfl
@[simp] theorem resetBlock_count (s : State) : s.resetBlock.count = State.reset.count := rfl
@[simp] theorem resetBlock_msg (s : State) : s.resetBlock.msg = State.reset.msg := rfl
@[simp] theorem resetBlock_shLen (s : State) : s.resetBlock.shLen = State.reset.shLen := rfl
@[simp] theorem resetBlock_digest (s : State) : s.resetBlock.digest = State.reset.digest := rfl
@[simp] theorem resetBlock_shValid (s : State) : s.resetBlock.shValid = State.reset.shValid := rfl
@[simp] theorem resetBlock_blockLen (s : State) : s.resetBlock.blockLen = State.reset.blockLen := rfl
@[simp] theorem resetBlock_n (s : State) : s.resetBlock.n = State.reset.n := rfl
@[simp] theorem resetBlock_hashes (s : State) : s.resetBlock.hashes = State.reset.hashes := rfl
@[simp] theorem resetBlock_map (s : State) : s.resetBlock.map = State.reset.map := rfl
@[simp] theorem resetBlock_arg0 (s : State) : s.resetBlock.arg0 = State.reset.arg0 := rfl
@[simp] theorem resetBlock_arg1 (s : State) : s.resetBlock.arg1 = State.reset.arg1 := rfl
@[simp] theorem resetBlock_hin (s : State) : s.resetBlock.hin = State.reset.hin := rfl
@[simp] theorem resetBlock_resId (s : State) : s.resetBlock.resId = State.reset.resId := rfl
@[simp] theorem resetBlock_resWeak (s : State) : s.resetBlock.resWeak = State.reset.resWeak := rfl
@[simp] theorem resetBlock_resHash (s : State) : s.resetBlock.resHash = State.reset.resHash := rfl
@[simp] theorem resetBlock_busy (s : State) : s.resetBlock.busy = State.reset.busy := rfl
@[simp] theorem resetBlock_hit (s : State) : s.resetBlock.hit = State.reset.hit := rfl
@[simp] theorem resetBlock_whit (s : State) : s.resetBlock.whit = State.reset.whit := rfl
@[simp] theorem resetBlock_lost (s : State) : s.resetBlock.lost = State.reset.lost := rfl
@[simp] theorem resetBlock_dropped (s : State) : s.resetBlock.dropped = State.reset.dropped := rfl
@[simp] theorem resetBlock_err (s : State) : s.resetBlock.err = State.reset.err := rfl
@[simp] theorem resetBlock_errInfo (s : State) : s.resetBlock.errInfo = State.reset.errInfo := rfl
@[simp] theorem resetBlock_pend (s : State) : s.resetBlock.pend = State.reset.pend := rfl
@[simp] theorem resetBlock_inputs (s : State) : s.resetBlock.inputs = s.inputs := rfl
@[simp] theorem resetBlock_responses (s : State) : s.resetBlock.responses = s.responses := rfl

/-! ## setLookup, writeStatus and writeCtrl, which choose between updates -/

@[simp] theorem setLookup_a (r : Option Word) (g : Word → Bool) (s : State) : (s.setLookup r g).a = s.a := by cases r <;> rfl
@[simp] theorem setLookup_b (r : Option Word) (g : Word → Bool) (s : State) : (s.setLookup r g).b = s.b := by cases r <;> rfl
@[simp] theorem setLookup_count (r : Option Word) (g : Word → Bool) (s : State) : (s.setLookup r g).count = s.count := by cases r <;> rfl
@[simp] theorem setLookup_msg (r : Option Word) (g : Word → Bool) (s : State) : (s.setLookup r g).msg = s.msg := by cases r <;> rfl
@[simp] theorem setLookup_shLen (r : Option Word) (g : Word → Bool) (s : State) : (s.setLookup r g).shLen = s.shLen := by cases r <;> rfl
@[simp] theorem setLookup_digest (r : Option Word) (g : Word → Bool) (s : State) : (s.setLookup r g).digest = s.digest := by cases r <;> rfl
@[simp] theorem setLookup_shValid (r : Option Word) (g : Word → Bool) (s : State) : (s.setLookup r g).shValid = s.shValid := by cases r <;> rfl
@[simp] theorem setLookup_blockLen (r : Option Word) (g : Word → Bool) (s : State) : (s.setLookup r g).blockLen = s.blockLen := by cases r <;> rfl
@[simp] theorem setLookup_n (r : Option Word) (g : Word → Bool) (s : State) : (s.setLookup r g).n = s.n := by cases r <;> rfl
@[simp] theorem setLookup_hashes (r : Option Word) (g : Word → Bool) (s : State) : (s.setLookup r g).hashes = s.hashes := by cases r <;> rfl
@[simp] theorem setLookup_map (r : Option Word) (g : Word → Bool) (s : State) : (s.setLookup r g).map = s.map := by cases r <;> rfl
@[simp] theorem setLookup_arg0 (r : Option Word) (g : Word → Bool) (s : State) : (s.setLookup r g).arg0 = s.arg0 := by cases r <;> rfl
@[simp] theorem setLookup_arg1 (r : Option Word) (g : Word → Bool) (s : State) : (s.setLookup r g).arg1 = s.arg1 := by cases r <;> rfl
@[simp] theorem setLookup_hin (r : Option Word) (g : Word → Bool) (s : State) : (s.setLookup r g).hin = s.hin := by cases r <;> rfl
@[simp] theorem setLookup_resWeak (r : Option Word) (g : Word → Bool) (s : State) : (s.setLookup r g).resWeak = s.resWeak := by cases r <;> rfl
@[simp] theorem setLookup_resHash (r : Option Word) (g : Word → Bool) (s : State) : (s.setLookup r g).resHash = s.resHash := by cases r <;> rfl
@[simp] theorem setLookup_busy (r : Option Word) (g : Word → Bool) (s : State) : (s.setLookup r g).busy = s.busy := by cases r <;> rfl
@[simp] theorem setLookup_lost (r : Option Word) (g : Word → Bool) (s : State) : (s.setLookup r g).lost = s.lost := by cases r <;> rfl
@[simp] theorem setLookup_dropped (r : Option Word) (g : Word → Bool) (s : State) : (s.setLookup r g).dropped = s.dropped := by cases r <;> rfl
@[simp] theorem setLookup_err (r : Option Word) (g : Word → Bool) (s : State) : (s.setLookup r g).err = s.err := by cases r <;> rfl
@[simp] theorem setLookup_errInfo (r : Option Word) (g : Word → Bool) (s : State) : (s.setLookup r g).errInfo = s.errInfo := by cases r <;> rfl
@[simp] theorem setLookup_pend (r : Option Word) (g : Word → Bool) (s : State) : (s.setLookup r g).pend = s.pend := by cases r <;> rfl
@[simp] theorem setLookup_inputs (r : Option Word) (g : Word → Bool) (s : State) : (s.setLookup r g).inputs = s.inputs := by cases r <;> rfl
@[simp] theorem setLookup_responses (r : Option Word) (g : Word → Bool) (s : State) : (s.setLookup r g).responses = s.responses := by cases r <;> rfl
@[simp] theorem setLookup_whit (r : Option Word) (g : Word → Bool) (s : State) : (s.setLookup r g).whit = r.isSome := by cases r <;> rfl
@[simp] theorem setLookup_hit (r : Option Word) (g : Word → Bool) (s : State) : (s.setLookup r g).hit = r.any g := by cases r <;> rfl
@[simp] theorem setLookup_resId (r : Option Word) (g : Word → Bool) (s : State) : (s.setLookup r g).resId = r.getD 0 := by cases r <;> rfl

@[simp] theorem writeStatus_a (v : Word) (s : State) : (s.writeStatus v).a = s.a := by unfold State.writeStatus; split <;> split <;> rfl
@[simp] theorem writeStatus_b (v : Word) (s : State) : (s.writeStatus v).b = s.b := by unfold State.writeStatus; split <;> split <;> rfl
@[simp] theorem writeStatus_count (v : Word) (s : State) : (s.writeStatus v).count = s.count := by unfold State.writeStatus; split <;> split <;> rfl
@[simp] theorem writeStatus_msg (v : Word) (s : State) : (s.writeStatus v).msg = s.msg := by unfold State.writeStatus; split <;> split <;> rfl
@[simp] theorem writeStatus_shLen (v : Word) (s : State) : (s.writeStatus v).shLen = s.shLen := by unfold State.writeStatus; split <;> split <;> rfl
@[simp] theorem writeStatus_digest (v : Word) (s : State) : (s.writeStatus v).digest = s.digest := by unfold State.writeStatus; split <;> split <;> rfl
@[simp] theorem writeStatus_shValid (v : Word) (s : State) : (s.writeStatus v).shValid = s.shValid := by unfold State.writeStatus; split <;> split <;> rfl
@[simp] theorem writeStatus_blockLen (v : Word) (s : State) : (s.writeStatus v).blockLen = s.blockLen := by unfold State.writeStatus; split <;> split <;> rfl
@[simp] theorem writeStatus_n (v : Word) (s : State) : (s.writeStatus v).n = s.n := by unfold State.writeStatus; split <;> split <;> rfl
@[simp] theorem writeStatus_hashes (v : Word) (s : State) : (s.writeStatus v).hashes = s.hashes := by unfold State.writeStatus; split <;> split <;> rfl
@[simp] theorem writeStatus_map (v : Word) (s : State) : (s.writeStatus v).map = s.map := by unfold State.writeStatus; split <;> split <;> rfl
@[simp] theorem writeStatus_arg0 (v : Word) (s : State) : (s.writeStatus v).arg0 = s.arg0 := by unfold State.writeStatus; split <;> split <;> rfl
@[simp] theorem writeStatus_arg1 (v : Word) (s : State) : (s.writeStatus v).arg1 = s.arg1 := by unfold State.writeStatus; split <;> split <;> rfl
@[simp] theorem writeStatus_hin (v : Word) (s : State) : (s.writeStatus v).hin = s.hin := by unfold State.writeStatus; split <;> split <;> rfl
@[simp] theorem writeStatus_resId (v : Word) (s : State) : (s.writeStatus v).resId = s.resId := by unfold State.writeStatus; split <;> split <;> rfl
@[simp] theorem writeStatus_resWeak (v : Word) (s : State) : (s.writeStatus v).resWeak = s.resWeak := by unfold State.writeStatus; split <;> split <;> rfl
@[simp] theorem writeStatus_resHash (v : Word) (s : State) : (s.writeStatus v).resHash = s.resHash := by unfold State.writeStatus; split <;> split <;> rfl
@[simp] theorem writeStatus_busy (v : Word) (s : State) : (s.writeStatus v).busy = s.busy := by unfold State.writeStatus; split <;> split <;> rfl
@[simp] theorem writeStatus_hit (v : Word) (s : State) : (s.writeStatus v).hit = s.hit := by unfold State.writeStatus; split <;> split <;> rfl
@[simp] theorem writeStatus_whit (v : Word) (s : State) : (s.writeStatus v).whit = s.whit := by unfold State.writeStatus; split <;> split <;> rfl
@[simp] theorem writeStatus_lost (v : Word) (s : State) : (s.writeStatus v).lost = s.lost := by unfold State.writeStatus; split <;> split <;> rfl
@[simp] theorem writeStatus_pend (v : Word) (s : State) : (s.writeStatus v).pend = s.pend := by unfold State.writeStatus; split <;> split <;> rfl
@[simp] theorem writeStatus_inputs (v : Word) (s : State) : (s.writeStatus v).inputs = s.inputs := by unfold State.writeStatus; split <;> split <;> rfl
@[simp] theorem writeStatus_responses (v : Word) (s : State) : (s.writeStatus v).responses = s.responses := by unfold State.writeStatus; split <;> split <;> rfl
@[simp] theorem writeStatus_dropped (v : Word) (s : State) : (s.writeStatus v).dropped = (s.dropped && !v.getLsbD 5) := by
  unfold State.writeStatus; split <;> split <;> simp_all
@[simp] theorem writeStatus_err (v : Word) (s : State) :
    (s.writeStatus v).err = if v.getLsbD 31 then .noError else s.err := by
  unfold State.writeStatus; split <;> split <;> rfl
@[simp] theorem writeStatus_errInfo (v : Word) (s : State) :
    (s.writeStatus v).errInfo = if v.getLsbD 31 then 0 else s.errInfo := by
  unfold State.writeStatus; split <;> split <;> rfl

theorem writeCtrl_reset (v : Word) (s : State) (h : v.getLsbD 0 = true) : s.writeCtrl v = s.resetBlock :=
  if_pos h
theorem writeCtrl_ignored (v : Word) (s : State) (h : v.getLsbD 0 = false) : s.writeCtrl v = s :=
  if_neg (by rw [h]; decide)

end Sys2Proof.Machine
end

