-- ==== Sys2Proof/Laws/Exec.lean ====
section
/-! SUPPORT. What each meaning that chooses can do, once: if it answers a next state, then one of these cases holds. And what no
command touches. -/

namespace Sys2Proof.Machine

variable {s t : State}

theorem execXfeed_cases {x : Byte} (h : execXfeed x s = .next t) :
    (s.shFull = true ∧ t = s.raiseError .shOverflow (encode (.xfeed x))) ∨
      (s.shFull = false ∧ t = (s.feedRc x).feedSh x) := by
  unfold execXfeed at h
  split at h
  · rename_i hf
    exact .inl ⟨hf, (Host.Outcome.next.inj h).symm⟩
  · rename_i hf
    exact .inr ⟨by simpa using hf, (Host.Outcome.next.inj h).symm⟩

theorem execShFeed_cases {x : Byte} (h : execShFeed x s = .next t) :
    (s.shFull = true ∧ t = s.raiseError .shOverflow (encode (.shFeed x))) ∨
      (s.shFull = false ∧ t = s.feedSh x) := by
  unfold execShFeed at h
  split at h
  · rename_i hf
    exact .inl ⟨hf, (Host.Outcome.next.inj h).symm⟩
  · rename_i hf
    exact .inr ⟨by simpa using hf, (Host.Outcome.next.inj h).symm⟩

theorem execIxSetbl_cases {chk : Bool} (h : execIxSetbl chk s = .next t) :
    (s.n ≠ 0 ∧ t = s.raiseError .state (encode (.ixSetbl chk))) ∨
      (s.n = 0 ∧ chk = true ∧ s.latchedArg0.toNat < 32 ∧ t = s.raiseError .config (encode (.ixSetbl chk))) ∨
      (s.n = 0 ∧ (chk = true → 32 ≤ s.latchedArg0.toNat) ∧ t = s.setBlockLen s.latchedArg0) := by
  unfold execIxSetbl at h
  split at h
  · rename_i hn
    exact .inl ⟨hn, (Host.Outcome.next.inj h).symm⟩
  · rename_i hn
    have hn : s.n = 0 := by simpa using hn
    split at h
    · rename_i hc
      exact .inr (.inl ⟨hn, hc.1, hc.2, (Host.Outcome.next.inj h).symm⟩)
    · rename_i hc
      exact .inr (.inr ⟨hn, fun he => Nat.le_of_not_lt fun hl => hc ⟨he, hl⟩, (Host.Outcome.next.inj h).symm⟩)

theorem execIxAppend_cases {src : Src} (h : execIxAppend src s = .next t) :
    (s.digestMissing src = true ∧ t = s.raiseError .noDigest (encode (.ixAppend src))) ∨
      (s.digestMissing src = false ∧ s.n.toNat = Config.ixCap ∧
        t = s.raiseError .full (encode (.ixAppend src))) ∨
      (s.digestMissing src = false ∧ s.n.toNat ≠ Config.ixCap ∧
        t = s.appendBlock (s.weakOperand src) (s.hashOperand src)) := by
  unfold execIxAppend at h
  split at h
  · rename_i hd
    exact .inl ⟨hd, (Host.Outcome.next.inj h).symm⟩
  · rename_i hd
    have hd : s.digestMissing src = false := by simpa using hd
    split at h
    · rename_i hn
      exact .inr (.inl ⟨hd, hn, (Host.Outcome.next.inj h).symm⟩)
    · rename_i hn
      exact .inr (.inr ⟨hd, hn, (Host.Outcome.next.inj h).symm⟩)

theorem execIxMatch_cases {src : Src} (h : execIxMatch src s = .next t) :
    (s.digestMissing src = true ∧ t = s.raiseError .noDigest (encode (.ixMatch src))) ∨
      (s.digestMissing src = false ∧
        t = s.setLookup (mapFind (s.weakOperand src) s.map) (fun id => s.hashAt id == s.hashOperand src)) := by
  unfold execIxMatch at h
  split at h
  · rename_i hd
    exact .inl ⟨hd, (Host.Outcome.next.inj h).symm⟩
  · rename_i hd
    exact .inr ⟨by simpa using hd, (Host.Outcome.next.inj h).symm⟩

theorem execIxRead_cases (h : execIxRead s = .next t) :
    (s.n.toNat ≤ s.latchedArg1.toNat ∧ t = s.raiseError .range (encode .ixRead)) ∨
      (s.latchedArg1.toNat < s.n.toNat ∧
        t = s.setReadBack s.latchedArg1 (s.hashAt s.latchedArg1) (mapKeyOf s.latchedArg1 s.map)) := by
  unfold execIxRead at h
  split at h
  · rename_i hn
    exact .inl ⟨hn, (Host.Outcome.next.inj h).symm⟩
  · rename_i hn
    exact .inr ⟨Nat.lt_of_not_le hn, (Host.Outcome.next.inj h).symm⟩

/-- No command touches the operand registers, the command in flight or the host's side of the bus (R26, R89). -/
theorem exec_port_args {i : Instr} (h : exec i s = .next t) : samePort s t ∧ sameArgs s t := by
  cases i with
  | nop | rcClear | rcFeed | rcRoll | shStart | shFinal | ixClear =>
    cases h
    exact ⟨⟨rfl, rfl, rfl, rfl⟩, rfl, rfl, rfl⟩
  | xfeed x => rcases execXfeed_cases h with ⟨-, rfl⟩ | ⟨-, rfl⟩ <;> exact ⟨⟨rfl, rfl, rfl, rfl⟩, rfl, rfl, rfl⟩
  | shFeed x => rcases execShFeed_cases h with ⟨-, rfl⟩ | ⟨-, rfl⟩ <;> exact ⟨⟨rfl, rfl, rfl, rfl⟩, rfl, rfl, rfl⟩
  | ixSetbl c =>
    rcases execIxSetbl_cases h with ⟨-, rfl⟩ | ⟨-, -, -, rfl⟩ | ⟨-, -, rfl⟩ <;>
      exact ⟨⟨rfl, rfl, rfl, rfl⟩, rfl, rfl, rfl⟩
  | ixAppend src =>
    rcases execIxAppend_cases h with ⟨-, rfl⟩ | ⟨-, -, rfl⟩ | ⟨-, -, rfl⟩ <;>
      exact ⟨⟨rfl, rfl, rfl, rfl⟩, rfl, rfl, rfl⟩
  | ixLookup src =>
    cases h
    refine ⟨⟨?_, ?_, ?_, ?_⟩, ?_, ?_, ?_⟩ <;> simp
  | ixMatch src =>
    rcases execIxMatch_cases h with ⟨-, rfl⟩ | ⟨-, rfl⟩
    · exact ⟨⟨rfl, rfl, rfl, rfl⟩, rfl, rfl, rfl⟩
    · refine ⟨⟨?_, ?_, ?_, ?_⟩, ?_, ?_, ?_⟩ <;> simp
  | ixRead =>
    rcases execIxRead_cases h with ⟨-, rfl⟩ | ⟨-, rfl⟩ <;> exact ⟨⟨rfl, rfl, rfl, rfl⟩, rfl, rfl, rfl⟩

end Sys2Proof.Machine
end

