-- ==== Sys2Proof/Laws/Step.lean ====
section
/-! SUPPORT. What an event, an accepted word and a step can do, once. -/

namespace Sys2Proof.Machine

variable {s t : State}

theorem andThen_eq_next {σ τ φ ρ : Type} {o : Host.Outcome σ φ ρ} {f : σ → Host.Outcome τ φ ρ} {r : τ}
    (h : andThen o f = .next r) : ∃ u, o = .next u ∧ f u = .next r := by
  cases o with
  | next u => exact ⟨u, rfl, h⟩
  | fault f => cases h
  | refused f => cases h

@[simp] theorem andThen_next {σ τ φ ρ : Type} (u : σ) (f : σ → Host.Outcome τ φ ρ) : andThen (.next u) f = f u := rfl

theorem andThen_ite {σ τ φ ρ : Type} (c : Prop) [Decidable c] (o q : Host.Outcome σ φ ρ)
    (f : σ → Host.Outcome τ φ ρ) : andThen (if c then o else q) f = if c then andThen o f else andThen q f := by
  split <;> rfl

theorem andThen_assoc {σ τ υ φ ρ : Type} (o : Host.Outcome σ φ ρ) (f : σ → Host.Outcome τ φ ρ)
    (g : τ → Host.Outcome υ φ ρ) : andThen (andThen o f) g = andThen o (fun s => andThen (f s) g) := by
  cases o <;> rfl

/-- A 32-bit access at an aligned, mapped offset is answered. -/
theorem busAccess_reg {off : Offset} {r : Reg} (k : AccessKind) (s : State) (hr : regAt off = some r)
    (ha : off.toNat % 4 = 0) : busAccess ⟨k, 32, off⟩ s = .next (accessReg r k s) := by
  simp [busAccess, Access.wordWide, Access.aligned, ha, hr]

/-- The map of R31 and the offsets of the registers agree. -/
theorem regAt_regOffset (r : Reg) : regAt (regOffset r) = some r ∧ (regOffset r).toNat % 4 = 0 := by
  cases r with
  | hin k | digest k | resHash k => revert k; decide
  | _ => decide

/-- An event that is answered is a reset, or an access of the supported form to a mapped register. -/
theorem takeEvent_cases {e : Event} (h : takeEvent e s = .next t) :
    (e = .resetLine ∧ t = s.resetBlock) ∨
      ∃ a r, e = .bus a ∧ a.wellFormed = true ∧ regAt a.off = some r ∧ t = accessReg r a.kind s := by
  cases e with
  | resetLine => exact .inl ⟨rfl, (Host.Outcome.next.inj h).symm⟩
  | bus a =>
    simp only [takeEvent, busAccess] at h
    split at h
    · cases h
    · rename_i hw
      split at h
      · cases h
      · rename_i ha
        split at h
        · cases h
        · rename_i r hr
          exact .inr ⟨a, r, rfl, by simp [Access.wellFormed] at hw ha ⊢; exact ⟨hw, ha⟩, hr,
            (Host.Outcome.next.inj h).symm⟩

/-- An accepted word is dropped, raises a decode error, or is a command that is executed. -/
theorem runWord_cases {w : Word} (h : runWord w s = .next t) :
    (s.err ≠ .noError ∧ t = s.dropCommand) ∨
      (s.err = .noError ∧ decode w = .illegalOp ∧ t = s.raiseError .illegalOp w) ∨
      (s.err = .noError ∧ decode w = .rsvdField ∧ t = s.raiseError .rsvdField w) ∨
      ∃ i, s.err = .noError ∧ decode w = .command i ∧ exec i s = .next t := by
  unfold runWord at h
  split at h
  · rename_i he
    exact .inl ⟨he, (Host.Outcome.next.inj h).symm⟩
  · rename_i he
    have he : s.err = .noError := by simpa using he
    split at h
    · exact .inr (.inl ⟨he, ‹_›, (Host.Outcome.next.inj h).symm⟩)
    · exact .inr (.inr (.inl ⟨he, ‹_›, (Host.Outcome.next.inj h).symm⟩))
    · exact .inr (.inr (.inr ⟨_, he, ‹_›, h⟩))

/-- A step completes the command in flight, lets the host's next input take effect, or is idle. -/
theorem step_cases (h : step s = .next t) :
    (∃ p u, s.pend = some p ∧ s.nextHeld ∧ runWord p.word s = .next u ∧ t = u.retire) ∨
      (∃ i rest, s.inputs = i :: rest ∧ (s.pend = none ∨ overtakes i = true) ∧
        takeEvent i.event (s.setInputs rest) = .next t) ∨
      (s.pend = none ∧ s.inputs = [] ∧ t = s) := by
  simp only [step, advance] at h
  split at h
  · rename_i p hp hi
    obtain ⟨u, hu, ht⟩ := andThen_eq_next h
    exact .inl ⟨p, u, hp, by simp [State.nextHeld, hi], hu, (Host.Outcome.next.inj ht).symm⟩
  · rename_i p i rest hp hi
    split at h
    · rename_i ho
      exact .inr (.inl ⟨i, rest, hi, .inr ho, h⟩)
    · rename_i ho
      obtain ⟨u, hu, ht⟩ := andThen_eq_next h
      exact .inl ⟨p, u, hp, by simpa [State.nextHeld, hi] using ho, hu, (Host.Outcome.next.inj ht).symm⟩
  · rename_i i rest hp hi
    exact .inr (.inl ⟨i, rest, hi, .inl hp, h⟩)
  · rename_i hp hi
    exact .inr (.inr ⟨hp, hi, (Host.Outcome.next.inj h).symm⟩)

/-- The host's run of the machine is `runSteps`. -/
theorem core_run_eq_runSteps (k : Nat) (s : State) : Sys2Proof.core.run k s = runSteps k s := by
  induction k generalizing s with
  | zero => rfl
  | succ k ih =>
    show Host.Core.run Sys2Proof.core (k + 1) s = _
    simp only [Host.Core.run]
    cases hs : step s with
    | next u =>
      have hs' : Sys2Proof.core.step s = .next u := hs
      simp only [hs', runSteps, hs, andThen]
      exact ih u
    | fault r =>
      have hs' : Sys2Proof.core.step s = .fault r := hs
      simp only [hs', runSteps, hs, andThen]
      rfl
    | refused r =>
      have hs' : Sys2Proof.core.step s = .refused r := hs
      simp only [hs', runSteps, hs, andThen]
      rfl

end Sys2Proof.Machine
end

