-- ==== Sys2Proof/Laws/Assembly.lean ====
section
/-! SUPPORT. What running a host program does: programs compose, a register write stores, and the word of a command executes the
command. -/

namespace Sys2Proof.Machine

theorem runSequential_append (es fs : List Event) (s : State) :
    runSequential (es ++ fs) s = andThen (runSequential es s) (runSequential fs) := by
  induction es generalizing s with
  | nil => rfl
  | cons e es ih =>
    simp only [List.cons_append, runSequential, andThen_assoc]
    exact congrArg _ (funext ih)

theorem runLines_append (ls ms : List AsmLine) (s : State) :
    runLines (ls ++ ms) s = andThen (runLines ls s) (runLines ms) := by
  unfold runLines
  rw [List.map_append]
  exact runSequential_append _ _ s

theorem runLines_nil (s : State) : runLines [] s = .next s := rfl

theorem runLines_cons (l : AsmLine) (ls : List AsmLine) (s : State) :
    runLines (l :: ls) s = andThen (atomically l.event s) (runLines ls) := rfl

/-- An access to an idle block that issues no command is done at once. -/
theorem atomically_regAccess (r : Reg) (k : AccessKind) (s : State) (h : (accessReg r k s).pend = none) :
    atomically (.bus (regAccess r k)) s = .next (accessReg r k s) := by
  obtain ⟨hr, ha⟩ := regAt_regOffset r
  simp only [atomically, takeEvent, regAccess, busAccess_reg k s hr ha, andThen_next, settle, h]

/-- A register write of an idle block's operands. -/
theorem atomically_wr_arg0 (v : Word) (s : State) (h : s.pend = none) :
    atomically (AsmLine.wr .arg0 v).event s = .next ((s.setArg0 v).respond .ok) :=
  atomically_regAccess .arg0 (.write v) s h

theorem atomically_wr_arg1 (v : Word) (s : State) (h : s.pend = none) :
    atomically (AsmLine.wr .arg1 v).event s = .next ((s.setArg1 v).respond .ok) :=
  atomically_regAccess .arg1 (.write v) s h

theorem atomically_wr_hin (k : Fin 8) (v : Word) (s : State) (h : s.pend = none) :
    atomically (AsmLine.wr (.hin k) v).event s = .next ((s.setHin k v).respond .ok) :=
  atomically_regAccess (.hin k) (.write v) s h

/-- A CMD write: acceptance, and then the accepted word runs and retires. -/
theorem atomically_word (w : Word) (s : State) :
    atomically (AsmLine.word w).event s =
      andThen (runWord w ((s.accept w).respond .ok)) (fun t => .next t.retire) := rfl

/-- A CMD write of a word that decodes to a command executes the command, when no error stands. -/
theorem atomically_word_of_decode {w : Word} {i : Instr} (s : State) (hd : decode w = .command i)
    (he : s.err = .noError) :
    atomically (AsmLine.word w).event s =
      andThen (exec i ((s.accept w).respond .ok)) (fun t => .next t.retire) := by
  rw [atomically_word]
  simp [runWord, he, hd]

end Sys2Proof.Machine
end

