-- ==== Sys2Proof/Laws/Decode.lean ====
section
/-! SUPPORT. The fields of a word built from its fields, and the rows of the opcode map. -/

namespace Sys2Proof

/-- Byte 3 of a word built from four bytes. -/
@[simp] theorem wordOfBytes_byte3 (x y z w : Byte) : (wordOfBytes x y z w).extractLsb' 24 8 = x := by
  unfold wordOfBytes
  ext i hi
  have hy : y.getLsbD (24 + i - 16) = false := BitVec.getLsbD_of_ge _ _ (by omega)
  have hz : z.getLsbD (24 + i - 8) = false := BitVec.getLsbD_of_ge _ _ (by omega)
  have hw : w.getLsbD (24 + i) = false := BitVec.getLsbD_of_ge _ _ (by omega)
  have h32 : 24 + i < 32 ∧ i < 32 := by omega
  simp [hy, hz, hw, BitVec.getLsbD_eq_getElem, hi, h32]

/-- Byte 2 of a word built from four bytes. -/
@[simp] theorem wordOfBytes_byte2 (x y z w : Byte) : (wordOfBytes x y z w).extractLsb' 16 8 = y := by
  unfold wordOfBytes
  ext i hi
  have hz : z.getLsbD (16 + i - 8) = false := BitVec.getLsbD_of_ge _ _ (by omega)
  have hw : w.getLsbD (16 + i) = false := BitVec.getLsbD_of_ge _ _ (by omega)
  have h32 : 16 + i < 24 ∧ 16 + i < 32 ∧ i < 32 := by omega
  simp [hz, hw, BitVec.getLsbD_eq_getElem, hi, h32]

/-- Byte 1 of a word built from four bytes. -/
@[simp] theorem wordOfBytes_byte1 (x y z w : Byte) : (wordOfBytes x y z w).extractLsb' 8 8 = z := by
  unfold wordOfBytes
  ext i hi
  have h32 : 8 + i < 16 ∧ 8 + i < 24 ∧ 8 + i < 32 ∧ i < 32 := by omega
  simp [BitVec.getLsbD_eq_getElem, hi, h32]

/-- Byte 0 of a word built from four bytes. -/
@[simp] theorem wordOfBytes_byte0 (x y z w : Byte) : (wordOfBytes x y z w).extractLsb' 0 8 = w := by
  unfold wordOfBytes
  ext i hi
  have h32 : i < 16 ∧ i < 24 ∧ i < 32 := by omega
  simp [BitVec.getLsbD_eq_getElem, hi, h32]

/-- A bit of a word is a bit of one of its bytes. -/
theorem getLsbD_of_byte (v : Word) (i j : Nat) (h1 : j ≤ i) (h2 : i < j + 8) :
    v.getLsbD i = (v.extractLsb' j 8).getLsbD (i - j) := by
  rw [BitVec.getLsbD_extractLsb']
  simp [show i - j < 8 by omega, Nat.add_sub_cancel' h1]

/-- Two words with the same four bytes are equal. -/
theorem word_ext_bytes {v w : Word} (h3 : v.extractLsb' 24 8 = w.extractLsb' 24 8)
    (h2 : v.extractLsb' 16 8 = w.extractLsb' 16 8) (h1 : v.extractLsb' 8 8 = w.extractLsb' 8 8)
    (h0 : v.extractLsb' 0 8 = w.extractLsb' 0 8) : v = w := by
  refine BitVec.eq_of_getLsbD_eq fun i hi => ?_
  rcases (by omega : i < 8 ∨ (8 ≤ i ∧ i < 16) ∨ (16 ≤ i ∧ i < 24) ∨ 24 ≤ i) with h | h | h | h
  · rw [getLsbD_of_byte v i 0 (by omega) (by omega), getLsbD_of_byte w i 0 (by omega) (by omega), h0]
  · rw [getLsbD_of_byte v i 8 h.1 (by omega), getLsbD_of_byte w i 8 h.1 (by omega), h1]
  · rw [getLsbD_of_byte v i 16 h.1 (by omega), getLsbD_of_byte w i 16 h.1 (by omega), h2]
  · rw [getLsbD_of_byte v i 24 h (by omega), getLsbD_of_byte w i 24 h (by omega), h3]

/-- A word is built from its four bytes. -/
theorem wordOfBytes_of_bytes (v : Word) :
    wordOfBytes (v.extractLsb' 24 8) (v.extractLsb' 16 8) (v.extractLsb' 8 8) (v.extractLsb' 0 8) = v :=
  word_ext_bytes (by simp) (by simp) (by simp) (by simp)

@[simp] theorem fieldOp_cmdWord (op x y : Byte) : fieldOp (cmdWord op x y) = op := wordOfBytes_byte3 op x y 0

@[simp] theorem fieldB1_cmdWord (op x y : Byte) : fieldB1 (cmdWord op x y) = x := wordOfBytes_byte2 op x y 0

@[simp] theorem fieldB2_cmdWord (op x y : Byte) : fieldB2 (cmdWord op x y) = y := wordOfBytes_byte1 op x y 0

/-- A row of the map is found under its own opcode, and only there. -/
theorem rowOf_eq_some {op : Byte} {r : OpRow} (h : rowOf op = some r) : r ∈ opTable ∧ fieldOp r.pattern = op :=
  ⟨List.mem_of_find?_eq_some h, by simpa using List.find?_some h⟩

/-- No two rows of the map have one opcode. -/
theorem opcodeMap_opcodes_nodup : (Machine.opcodeMap.map (fun r => fieldOp r.1)).Nodup := by
  have h : Machine.opcodeMap.map (fun r => fieldOp r.1) = Machine.opcodes := rfl
  rw [h]
  decide

/-- A word that matches a row has the row's opcode. -/
theorem fieldOp_of_row {w : Word} : ∀ r ∈ Machine.opcodeMap, w &&& r.2 = r.1 → fieldOp w = fieldOp r.1 := by
  have hmask : ∀ r ∈ Machine.opcodeMap, fieldOp r.2 = 0xFF := by simp [Machine.opcodeMap, fieldOp]
  intro r hr h
  rw [← h]
  have : fieldOp (w &&& r.2) = fieldOp w &&& fieldOp r.2 := by simp [fieldOp, BitVec.extractLsb'_and]
  rw [this, hmask r hr]
  show fieldOp w = fieldOp w &&& BitVec.allOnes 8
  exact BitVec.and_allOnes.symm

/-- No two rows of the map match one word (R54, R57). -/
theorem opcodeMap_disjoint (w : Word) (r q : Word × Word) (hr : r ∈ Machine.opcodeMap) (hq : q ∈ Machine.opcodeMap)
    (h1 : w &&& r.2 = r.1) (h2 : w &&& q.2 = q.1) : r = q :=
  List.inj_on_of_nodup_map opcodeMap_opcodes_nodup hr hq ((fieldOp_of_row r hr h1).symm.trans (fieldOp_of_row q hq h2))

end Sys2Proof
end

