-- ==== Sys2Proof/Laws/HostProcedures.lean ====
section
/-! SUPPORT. What the host's streams, sinks and bases do, once for each operation. -/

namespace Sys2Proof.Machine

@[simp] theorem allows_unlimited (n : Nat) : Budget.allows n none = true := rfl
@[simp] theorem spend_unlimited (n : Nat) : Budget.spend n none = none := rfl
@[simp] theorem cut_unlimited (bytes : List Byte) : Budget.cut bytes none = bytes := rfl

/-- What a budget covers whole it does not cut. -/
theorem cut_of_allows {b : Budget} {bytes : List Byte} (h : b.allows bytes.length = true) : b.cut bytes = bytes := by
  cases b with
  | none => rfl
  | some left => exact List.take_of_length_le (by simpa [Budget.allows] using h)

/-- A cut that is as long as the bytes is the bytes. -/
theorem cut_of_length_eq {b : Budget} {bytes : List Byte} (h : (b.cut bytes).length = bytes.length) :
    b.cut bytes = bytes := by
  cases b with
  | none => rfl
  | some left => exact List.take_of_length_le (by simpa [Budget.cut] using h)

/-- A sink never loses what it holds. -/
theorem put_prefix (bytes : List Byte) (out : Sink) : out.written <+: (out.put bytes).written :=
  List.prefix_append _ _

/-- A write that succeeds adds exactly the bytes. -/
theorem write_eq_next {bytes : List Byte} {out t : Sink} (h : out.write bytes = .next t) :
    t = ⟨out.written ++ bytes, out.room.spend bytes.length⟩ := by
  unfold Sink.write at h
  split at h
  · rename_i ha
    rw [← Host.Outcome.next.inj h, Sink.put, cut_of_allows ha]
  · cases h

/-- A write succeeds or is IOError. -/
theorem write_cases (bytes : List Byte) (out : Sink) :
    (out.room.allows bytes.length = true ∧
        out.write bytes = .next ⟨out.written ++ bytes, out.room.spend bytes.length⟩) ∨
      (out.room.allows bytes.length = false ∧ out.write bytes = .fault .io) := by
  cases h : out.room.allows bytes.length with
  | true => exact .inl ⟨rfl, by simp [Sink.write, h, Sink.put, cut_of_allows h]⟩
  | false => exact .inr ⟨rfl, by simp [Sink.write, h]⟩

/-- Reading a stream that ends cleanly gives the next bytes, fewer only at its end (R109). -/
theorem read_clean (n : Nat) (bytes : List Byte) :
    Stream.read n ⟨bytes, false⟩ = .next (bytes.take n, ⟨bytes.drop n, false⟩) := by
  unfold Stream.read
  split
  · rfl
  · rename_i h
    have hle : bytes.length ≤ n := Nat.le_of_not_le h
    simp [List.take_of_length_le hle, List.drop_eq_nil_of_le hle]

/-- A field that is there is read whole. -/
theorem readField_append (field rest : List Byte) :
    Stream.readField field.length ⟨field ++ rest, false⟩ = .next (field, ⟨rest, false⟩) := by
  simp [Stream.readField, read_clean]

end Sys2Proof.Machine
end

