-- ==== Sys2Proof/Laws/Ops.lean ====
section
/-! SUPPORT. What the shared operations do: the tables of the IX unit, the byte order of the hash registers, and the checksum
of a window. -/

namespace Sys2Proof.Machine

/-! ## MAP -/

theorem mapFind_insert_same (w id : Word) (m : List (Word × Word)) :
    mapFind w (mapInsert w id m) = some id := by
  induction m with
  | nil => simp [mapInsert, mapFind]
  | cons p m ih =>
    obtain ⟨k, j⟩ := p
    unfold mapInsert
    split
    · simp [mapFind]
    · split
      · simp [mapFind]
      · simp [mapFind, *]

theorem mapFind_insert_other (w id v : Word) (m : List (Word × Word)) (h : v ≠ w) :
    mapFind v (mapInsert w id m) = mapFind v m := by
  induction m with
  | nil => simp [mapInsert, mapFind, h.symm]
  | cons p m ih =>
    obtain ⟨k, j⟩ := p
    unfold mapInsert
    split
    · simp [mapFind, h.symm]
    · split
      · rename_i hk
        subst hk
        simp [mapFind, h.symm]
      · simp [mapFind, ih]

/-- An entry of the map after an insertion is the new one, or an old one under another key. -/
theorem mem_mapInsert {w id : Word} {m : List (Word × Word)} {p : Word × Word} (hwf : mapWf m)
    (h : p ∈ mapInsert w id m) : p = (w, id) ∨ (p ∈ m ∧ p.1 ≠ w) := by
  induction m with
  | nil => simpa [mapInsert] using h
  | cons q m ih =>
    obtain ⟨k, j⟩ := q
    obtain ⟨hq, hm⟩ := List.pairwise_cons.1 hwf
    unfold mapInsert at h
    split at h
    · rename_i hlt
      rcases List.mem_cons.1 h with h | h
      · exact .inl h
      · refine .inr ⟨h, fun he => ?_⟩
        rcases List.mem_cons.1 h with h | h
        · rw [h] at he
          simp only at he
          subst he
          omega
        · have := hq p h
          rw [he] at this
          simp only at this
          omega
    · split at h
      · rename_i hk
        rcases List.mem_cons.1 h with h | h
        · exact .inl h
        · refine .inr ⟨List.mem_cons_of_mem _ h, fun he => ?_⟩
          have := hq p h
          rw [he, hk] at this
          simp only at this
          omega
      · rename_i hk
        rcases List.mem_cons.1 h with h | h
        · exact .inr ⟨by rw [h]; exact List.mem_cons_self, by rw [h]; exact hk⟩
        · rcases ih hm h with h | ⟨h, hn⟩
          · exact .inl h
          · exact .inr ⟨List.mem_cons_of_mem _ h, hn⟩

theorem mapInsert_wf (w id : Word) (m : List (Word × Word)) (hwf : mapWf m) : mapWf (mapInsert w id m) := by
  induction m with
  | nil => simp [mapInsert, mapWf]
  | cons q m ih =>
    obtain ⟨k, j⟩ := q
    obtain ⟨hq, hm⟩ := List.pairwise_cons.1 hwf
    unfold mapInsert
    split
    · rename_i hlt
      refine List.pairwise_cons.2 ⟨fun p hp => ?_, hwf⟩
      rcases List.mem_cons.1 hp with hp | hp
      · rw [hp]; exact hlt
      · exact Nat.lt_trans hlt (hq p hp)
    · rename_i hlt
      split
      · rename_i hk
        subst hk
        exact List.pairwise_cons.2 ⟨hq, hm⟩
      · rename_i hk
        refine List.pairwise_cons.2 ⟨fun p hp => ?_, ih hm⟩
        rcases mem_mapInsert hm hp with hp | ⟨hp, -⟩
        · rw [hp]
          have : k.toNat ≠ w.toNat := fun he => hk (BitVec.eq_of_toNat_eq he)
          simp only
          omega
        · exact hq p hp

theorem mapFind_eq_some_of_mem {w id : Word} {m : List (Word × Word)} (hwf : mapWf m) (h : (w, id) ∈ m) :
    mapFind w m = some id := by
  induction m with
  | nil => simp at h
  | cons q m ih =>
    obtain ⟨k, j⟩ := q
    obtain ⟨hq, hm⟩ := List.pairwise_cons.1 hwf
    rcases List.mem_cons.1 h with h | h
    · obtain ⟨rfl, rfl⟩ := Prod.mk.inj h
      simp [mapFind]
    · have hne : k ≠ w := fun he => by
        have := hq _ h
        rw [he] at this
        simp only at this
        omega
      simp [mapFind, hne, ih hm h]

theorem mem_of_mapFind {w id : Word} {m : List (Word × Word)} (h : mapFind w m = some id) : (w, id) ∈ m := by
  induction m with
  | nil => simp [mapFind] at h
  | cons q m ih =>
    obtain ⟨k, j⟩ := q
    unfold mapFind at h
    split at h
    · rename_i hk
      subst hk
      cases h
      exact List.mem_cons_self
    · exact List.mem_cons_of_mem _ (ih h)

/-- `mapKeyOf` finds a key of the block exactly when there is one. -/
theorem mem_of_mapKeyOf {id k : Word} {m : List (Word × Word)} (h : mapKeyOf id m = some k) : (k, id) ∈ m := by
  induction m with
  | nil => simp [mapKeyOf] at h
  | cons q m ih =>
    obtain ⟨k', j⟩ := q
    unfold mapKeyOf at h
    split at h
    · rename_i hk
      subst hk
      cases h
      exact List.mem_cons_self
    · exact List.mem_cons_of_mem _ (ih h)

theorem mapKeyOf_eq_none {id : Word} {m : List (Word × Word)} (h : mapKeyOf id m = none) :
    ∀ p ∈ m, p.2 ≠ id := by
  induction m with
  | nil => simp
  | cons q m ih =>
    obtain ⟨k', j⟩ := q
    unfold mapKeyOf at h
    split at h
    · cases h
    · rename_i hj
      intro p hp
      rcases List.mem_cons.1 hp with hp | hp
      · rw [hp]; exact hj
      · exact ih h p hp

/-! ## The tables keep their form -/

theorem mapWf_clear (s : State) : mapWf s.clearIx.map := List.Pairwise.nil

theorem mapWf_append (w : Word) (h : Hash) (s : State) (hwf : mapWf s.map) : mapWf (s.appendBlock w h).map :=
  mapInsert_wf w s.n s.map hwf

theorem mapWf_reset : mapWf State.reset.map := List.Pairwise.nil

/-! ## The checksum of a window -/

theorem byteSum_append (xs ys : List Byte) : byteSum (xs ++ ys) = byteSum xs + byteSum ys := by
  induction xs with
  | nil => simp [byteSum]
  | cons x xs ih => simp [byteSum, ih, Nat.add_assoc]

/-- One more byte at the back raises the weight of every byte before it by one. -/
theorem weightedSum_append_byte (xs : List Byte) (x : Byte) :
    weightedSum (xs ++ [x]) = weightedSum xs + byteSum (xs ++ [x]) := by
  induction xs with
  | nil => simp [weightedSum, byteSum]
  | cons y ys ih =>
    simp only [List.cons_append, weightedSum, byteSum, ih, List.length_append, List.length_cons, List.length_nil]
    ring

end Sys2Proof.Machine
end

