-- ==== Sys2Proof/Laws/PerInstr.lean ====
section
/-! SUPPORT. Statements for all commands, made per command. `EncodedAsPrinted`: the word of the command has the opcode and the
zero reserved bits of one row of the map of spec/30_encoding.md R54. -/

namespace Sys2Proof.Laws.EncodedAsPrinted

open Sys2Proof Sys2Proof.Machine

/-- The command's word matches a row of the opcode map (R54). -/
def Statement (i : Instr) : Prop := ∃ r ∈ opcodeMap, encode i &&& r.2 = r.1

/-- A byte operand in B1 leaves no bit outside B1. -/
theorem b1_outside (x : Byte) : cmdWord 0 x 0 &&& 0xFF00FFFF = 0 := by revert x; decide

/-- Byte operands in B1 and B2 leave no bit outside them. -/
theorem b1_b2_outside (x y : Byte) : cmdWord 0 x y &&& 0xFF0000FF = 0 := by
  have hx : ∀ x : Byte, cmdWord 0 x 0 &&& 0xFF0000FF = 0 := by decide
  have hy : ∀ y : Byte, cmdWord 0 0 y &&& 0xFF0000FF = 0 := by decide
  have hsplit : cmdWord 0 x y = cmdWord 0 x 0 ||| cmdWord 0 0 y := by simp [cmdWord, wordOfBytes]
  rw [hsplit, BitVec.and_comm, BitVec.and_or_distrib_left, BitVec.and_comm _ (cmdWord 0 x 0),
    BitVec.and_comm _ (cmdWord 0 0 y), hx, hy]
  rfl

/-- The opcode stands beside the operands. -/
theorem cmdWord_split (op x y : Byte) : cmdWord op x y = cmdWord op 0 0 ||| cmdWord 0 x y := by
  simp [cmdWord, wordOfBytes, BitVec.or_assoc]

theorem masked (op x y : Byte) (m : Word) (h : cmdWord 0 x y &&& m = 0) :
    cmdWord op x y &&& m = cmdWord op 0 0 &&& m := by
  rw [cmdWord_split, BitVec.and_comm, BitVec.and_or_distrib_left, BitVec.and_comm _ (cmdWord 0 x y), h]
  simp [BitVec.and_comm]

theorem nop : Statement .nop := ⟨(0x00000000, 0xFFFFFFFF), by decide, by decide⟩

theorem rcClear : Statement .rcClear := ⟨(0x01000000, 0xFFFFFFFF), by decide, by decide⟩

theorem rcFeed (x : Byte) : Statement (.rcFeed x) :=
  ⟨(0x02000000, 0xFF00FFFF), by decide, masked 0x02 x 0 _ (b1_outside x)⟩

theorem rcRoll (out inc : Byte) : Statement (.rcRoll out inc) :=
  ⟨(0x03000000, 0xFF0000FF), by decide, masked 0x03 out inc _ (b1_b2_outside out inc)⟩

theorem xfeed (x : Byte) : Statement (.xfeed x) :=
  ⟨(0x04000000, 0xFF00FFFF), by decide, masked 0x04 x 0 _ (b1_outside x)⟩

theorem shStart : Statement .shStart := ⟨(0x10000000, 0xFFFFFFFF), by decide, by decide⟩

theorem shFeed (x : Byte) : Statement (.shFeed x) :=
  ⟨(0x11000000, 0xFF00FFFF), by decide, masked 0x11 x 0 _ (b1_outside x)⟩

theorem shFinal : Statement .shFinal := ⟨(0x12000000, 0xFFFFFFFF), by decide, by decide⟩

theorem ixClear : Statement .ixClear := ⟨(0x20000000, 0xFFFFFFFF), by decide, by decide⟩

theorem ixSetbl (chk : Bool) : Statement (.ixSetbl chk) :=
  ⟨(0x21000000, 0xFFFEFFFF), by decide, by cases chk <;> decide⟩

theorem ixAppend (src : Src) : Statement (.ixAppend src) :=
  ⟨(0x22000000, 0xFFFEFFFF), by decide, by cases src <;> decide⟩

theorem ixLookup (src : Src) : Statement (.ixLookup src) :=
  ⟨(0x23000000, 0xFFFEFFFF), by decide, by cases src <;> decide⟩

theorem ixMatch (src : Src) : Statement (.ixMatch src) :=
  ⟨(0x24000000, 0xFFFEFFFF), by decide, by cases src <;> decide⟩

theorem ixRead : Statement .ixRead := ⟨(0x25000000, 0xFFFFFFFF), by decide, by decide⟩

end Sys2Proof.Laws.EncodedAsPrinted
end

