-- ==== Sys2Proof/Tests/Slice0.lean ====
section
/-! SUPPORT. Tests: the checks of WellFormed refuse ill-formed accesses, every command's word of spec/30_encoding.md R58 decodes to
it, one step of each command against spec/95_test_vectors.md, and for every statement with hypotheses a state that meets them.
Every expected value is the spec's, named by its test id or rule, not the model's answer. -/

namespace Sys2Proof.Tests

open Sys2Proof Sys2Proof.Machine

/-! ## Helpers -/

/-- The next state of an outcome, if there is one. -/
def after {σ φ ρ : Type} (o : Host.Outcome σ φ ρ) : Option σ :=
  match o with
  | .next s => some s
  | .fault _ => none
  | .refused _ => none

/-- The fault of an outcome, if there is one. -/
def faultOf {σ φ ρ : Type} (o : Host.Outcome σ φ ρ) : Option φ :=
  match o with
  | .next _ => none
  | .fault f => some f
  | .refused _ => none

/-- The command a word decodes to, as the host asks for it. -/
def commandOf (w : Word) : Option Instr := decodeTableWord 32 w.toNat

/-- The checksum of "abc" (T-RC-3). -/
def abc : State := { State.reset with a := 0x0126, b := 0x024A, count := 3 }

/-- A stand-in for sha256("ABCD") with the first word of T-SH-8. -/
def hashABCD : Hash := setHashWord zeroHash 0 0xE12E115A

/-- A stand-in for sha256("B@DD") with the first word of T-SH-9. -/
def hashBADD : Hash := setHashWord zeroHash 0 0x0DB3FA9B

/-- The IX unit of T-IX-6, with the digest and the checksum of "B@DD". -/
def collided : State :=
  { State.reset with
    a := 0x010A, b := 0x0294, count := 4, digest := hashBADD, shValid := true, blockLen := 4, n := 2,
    hashes := [hashABCD, hashBADD], map := [(0x0294010A, 1)], resId := 1 }

/-- One block, found by its weak checksum. -/
def oneBlock : State := { State.reset with n := 1, hashes := [hashABCD], map := [(0x0294010A, 0)] }

/-- One block that no key maps to. -/
def lostBlock : State := { State.reset with n := 1, hashes := [hashABCD], arg1 := 0 }

/-- A message at its limit (T-SH-6), as far as SH_LEN shows. -/
def longMessage : State := { State.reset with shLen := 0xFFFFFFFF }

/-- A table at its limit. -/
def fullTable : State :=
  { State.reset with n := BitVec.ofNat 32 Config.ixCap, hashes := List.replicate Config.ixCap zeroHash }

/-- After T-CT-3. -/
def afterIllegalOp : State := { State.reset with err := .illegalOp, errInfo := 0x7F000000 }

/-- An idle block with the host's accesses to come. -/
def withInputs (l : List Input) : State := { State.reset with inputs := l }

/-- A block with a command in flight and the host's accesses behind it. -/
def busyWith (w : Word) (l : List Input) : State := (State.reset.accept w).setInputs l

/-! ## WellFormed: each check refuses an ill-formed access (R40) -/

theorem test_wf_supported : (regAccess .arg0 .read).wellFormed = true := by decide

theorem test_wf_width_8_refused :
    (Access.mk (.write 0) 8 0x10).wordWide = false ∧ (Access.mk (.write 0) 8 0x10).wellFormed = false := by decide

theorem test_wf_misaligned_refused :
    (Access.mk .read 32 0x02).aligned = false ∧ (Access.mk .read 32 0x02).wellFormed = false := by decide

theorem test_wf_commands : ∀ src chk, (Instr.ixAppend src).wellFormed = true ∧ (Instr.ixSetbl chk).wellFormed = true :=
  fun _ _ => ⟨rfl, rfl⟩

/-! ## Decode: the words of R58 and R60, and words R55 refuses -/

theorem test_decode_nop : commandOf 0x00000000 = some .nop := by decide
theorem test_decode_rcClear : commandOf 0x01000000 = some .rcClear := by decide
theorem test_decode_rcFeed : commandOf 0x02610000 = some (.rcFeed 0x61) := by decide
theorem test_decode_rcRoll : commandOf 0x03616400 = some (.rcRoll 0x61 0x64) := by decide
theorem test_decode_xfeed : commandOf 0x04410000 = some (.xfeed 0x41) := by decide
theorem test_decode_shStart : commandOf 0x10000000 = some .shStart := by decide
theorem test_decode_shFeed : commandOf 0x11630000 = some (.shFeed 0x63) := by decide
theorem test_decode_shFinal : commandOf 0x12000000 = some .shFinal := by decide
theorem test_decode_ixClear : commandOf 0x20000000 = some .ixClear := by decide
theorem test_decode_ixSetbl :
    commandOf 0x21000000 = some (.ixSetbl false) ∧ commandOf 0x21010000 = some (.ixSetbl true) := by decide
theorem test_decode_ixAppend :
    commandOf 0x22000000 = some (.ixAppend .rc) ∧ commandOf 0x22010000 = some (.ixAppend .host) := by decide
theorem test_decode_ixLookup :
    commandOf 0x23000000 = some (.ixLookup .rc) ∧ commandOf 0x23010000 = some (.ixLookup .host) := by decide
theorem test_decode_ixMatch :
    commandOf 0x24000000 = some (.ixMatch .rc) ∧ commandOf 0x24010000 = some (.ixMatch .host) := by decide
theorem test_decode_ixRead : commandOf 0x25000000 = some .ixRead := by decide

/-- T-CT-3, T-CT-6, and the first and last of the ranges of R55. -/
theorem test_decode_illegal :
    [0x7F000000, 0x05000000, 0x0F000000, 0x13000000, 0x1F000000, 0x26000000, 0xFF000000].map decode =
      List.replicate 7 Decoded.illegalOp := by decide

/-- T-CT-2, T-CT-4, T-CT-5, and an unused byte operand. -/
theorem test_decode_reserved :
    [0x00000001, 0x02610001, 0x21030000, 0x22020000, 0x02000100, 0x25010000].map decode =
      List.replicate 6 Decoded.rsvdField := by decide

/-- The words of R60 and R58, from the encoder. -/
theorem test_encode :
    [encode (.rcFeed 0x61), encode (.rcRoll 0x61 0x64), encode (.ixSetbl true), encode (.ixMatch .host), encode .ixRead] =
      [0x02610000, 0x03616400, 0x21010000, 0x24010000, 0x25000000] := by decide

/-- The assembler's lines of R58. -/
theorem test_asmText :
    [asmText (.rcRoll 0x61 0x64), asmText (.ixSetbl true), asmText (.ixMatch .host)] =
      ["rc.roll 97, 100", "ix.setbl chk=1", "ix.match src=host"] := by decide

/-! ## One step of each command (95_test_vectors.md) -/

/-- T-CT-1. -/
theorem test_nop : after (exec .nop collided) = some collided := rfl

/-- T-RC-13. -/
theorem test_rcClear : (after (exec .rcClear abc)).map State.triple = some (0, 0, 0) := by decide

/-- T-RC-2. -/
theorem test_rcFeed : (after (exec (.rcFeed 0x61) State.reset)).map State.triple = some (0x0061, 0x0061, 1) := by decide

/-- T-RC-9: the byte is unsigned. -/
theorem test_rcFeed_unsigned : (after (exec (.rcFeed 0x80) State.reset)).map State.sum = some 0x00800080 := by decide

/-- T-RC-4: out and in are not swapped, and B takes the new A. -/
theorem test_rcRoll :
    (after (exec (.rcRoll 0x61 0x64) abc)).map (fun t => (t.triple, t.sum)) =
      some ((0x0129, 0x0250, 3), 0x02500129) := by decide

/-- T-RC-7: the subtraction wraps. -/
theorem test_rcRoll_wraps :
    (after (exec (.rcRoll 0x01 0x00) State.reset)).map State.triple = some (0xFFFF, 0xFFFF, 0) := by decide

/-- T-RC-15. -/
theorem test_xfeed :
    (after (exec (.xfeed 0x41) State.reset)).map (fun t => (t.triple, t.msg, t.shLen, t.shValid)) =
      some ((0x0041, 0x0041, 1), [0x41], 1, false) := by decide

/-- T-SH-7. -/
theorem test_xfeed_overflow :
    (after (exec (.xfeed 0x05) longMessage)).map (fun t => (t.err, t.errInfo, t.triple, t.shLen)) =
      some (.shOverflow, 0x04050000, (0, 0, 0), 0xFFFFFFFF) := by decide

/-- T-SH-4: DIGEST stays. -/
theorem test_shStart :
    (after (exec .shStart { collided with msg := [0x42], shLen := 1 })).map
        (fun t => (t.msg, t.shLen, t.shValid, hashWord t.digest 0)) = some ([], 0, false, 0x0DB3FA9B) := by decide

/-- R71. -/
theorem test_shFeed :
    (after (exec (.shFeed 0x61) { collided with msg := [0x42], shLen := 1 })).map
        (fun t => (t.msg, t.shLen, t.shValid, t.triple)) = some ([0x42, 0x61], 2, false, (0x010A, 0x0294, 4)) := by decide

/-- T-SH-6. -/
theorem test_shFeed_overflow :
    (after (exec (.shFeed 0x00) longMessage)).map (fun t => (t.err, t.errInfo, t.shLen)) =
      some (.shOverflow, 0x11000000, 0xFFFFFFFF) := by decide

/-- R72: the message stays. -/
theorem test_shFinal :
    (after (exec .shFinal { State.reset with msg := [0x61], shLen := 1 })).map
        (fun t => (t.shValid, t.msg, t.shLen)) = some (true, [0x61], 1) := by decide

/-- T-IX-16: BLOCKLEN and the results stay. -/
theorem test_ixClear :
    (after (exec .ixClear collided)).map (fun t => (t.n, t.map, t.blockLen, t.resId)) = some (0, [], 4, 1) := by decide

/-- T-IX-1. -/
theorem test_ixSetbl_config :
    (after (exec (.ixSetbl true) { State.reset with arg0 := 16 })).map (fun t => (t.err, t.errInfo, t.blockLen)) =
      some (.config, 0x21010000, 32) := by decide

/-- T-IX-4: STATE comes before CONFIG. -/
theorem test_ixSetbl_state :
    (after (exec (.ixSetbl true) { oneBlock with arg0 := 16 })).map (fun t => (t.err, t.blockLen)) =
      some (.state, 32) := by decide

/-- T-IX-5, with the block's own values. -/
theorem test_ixAppend :
    (after (exec (.ixAppend .rc) { State.reset with a := 0x010A, b := 0x0294, digest := hashABCD, shValid := true })).map
        (fun t => (t.n, t.resId, t.map, t.hashes)) = some (1, 0, [(0x0294010A, 0)], [hashABCD]) := rfl

/-- T-IX-14 for ix.append: no digest. -/
theorem test_ixAppend_noDigest :
    (after (exec (.ixAppend .rc) State.reset)).map (fun t => (t.err, t.errInfo, t.n)) =
      some (.noDigest, 0x22000000, 0) := by decide

/-- T-IX-7. -/
theorem test_ixLookup :
    (after (exec (.ixLookup .host) { collided with arg0 := 0x0294010A })).map (fun t => (t.hit, t.whit, t.resId)) =
      some (true, true, 1) := by decide

/-- T-IX-8: a miss clears all three. -/
theorem test_ixLookup_miss :
    (after (exec (.ixLookup .host) { collided with arg0 := 0x12345678, hit := true, whit := true })).map
        (fun t => (t.hit, t.whit, t.resId)) = some (false, false, 0) := by decide

/-- T-IX-9. -/
theorem test_ixMatch :
    (after (exec (.ixMatch .rc) collided)).map (fun t => (t.hit, t.whit, t.resId)) = some (true, true, 1) := by decide

/-- T-IX-18: the lost block is not found. -/
theorem test_ixMatch_collision :
    (after (exec (.ixMatch .host) { collided with arg0 := 0x0294010A, hin := hashABCD })).map
        (fun t => (t.hit, t.whit, t.resId)) = some (false, true, 1) := by decide

/-- T-IX-11: a lost entry. -/
theorem test_ixRead_lost :
    (after (exec .ixRead { collided with arg1 := 0, resWeak := 7 })).map
        (fun t => (t.resId, t.resWeak, t.lost, hashWord t.resHash 0)) = some (0, 0, true, 0xE12E115A) := by decide

/-- T-IX-12. -/
theorem test_ixRead :
    (after (exec .ixRead { collided with arg1 := 1, lost := true })).map
        (fun t => (t.resId, t.resWeak, t.lost, hashWord t.resHash 0)) =
      some (1, 0x0294010A, false, 0x0DB3FA9B) := by decide

/-! ## The step: acceptance, errors, the bus -/

/-- The word the host places runs as the next step (T-RC-2). -/
theorem test_step_runs_word :
    (after (step (State.reset.withFetchWord 32 0x02610000))).map (fun t => (t.triple, t.busy, t.pend)) =
      some ((0x0061, 0x0061, 1), false, none) := by decide

/-- A CMD write is accepted with the operands as they stand (R46). -/
theorem test_step_accepts :
    (after (step { withInputs [AsmLine.input (.command .ixRead)] with arg1 := 9 })).map
        (fun t => (t.busy, t.pend, t.responses)) =
      some (true, some ⟨0x25000000, 0, 9, zeroHash⟩, [.ok]) := by decide

/-- T-CT-11: the error is precise. -/
theorem test_step_illegal :
    (after (step (collided.withFetchWord 32 0xFF000000))).map (fun t => (t.err, t.errInfo, t.n, t.map)) =
      some (.illegalOp, 0xFF000000, 2, [(0x0294010A, 1)]) := by decide

/-- T-CT-7: dropped, and STATUS reads 0x00000120. -/
theorem test_step_dropped :
    (after (step (afterIllegalOp.withFetchWord 32 0x02010000))).map (fun t => (t.a, t.dropped, t.statusWord)) =
      some (0, true, 0x00000120) := by decide

/-- T-CT-8. -/
theorem test_status_clear :
    (after (busAccess (regAccess .status (.write 0x80000020)) { afterIllegalOp with dropped := true })).map
        (fun t => (t.err, t.errInfo, t.dropped, t.statusWord)) = some (.noError, 0, false, 0) := by decide

/-- T-CT-9: bit 5 alone leaves ERR. -/
theorem test_status_dropped_only :
    (after (busAccess (regAccess .status (.write 0x00000020)) { afterIllegalOp with dropped := true })).map
        (fun t => (t.err, t.dropped)) = some (.illegalOp, false) := by decide

/-- T-CT-10. -/
theorem test_soft_reset :
    (after (busAccess (regAccess .ctrl (.write 1)) collided)).map (fun t => { t with responses := [] }) =
      some State.reset := by decide

/-- P2 and P4: STATUS reads 0x00000014 and 0x00000016. -/
theorem test_status_word :
    { collided with whit := true }.statusWord = 0x00000014 ∧
      { collided with whit := true, hit := true }.statusWord = 0x00000016 := by decide

/-- T-BUS-1, T-BUS-2, T-BUS-3. -/
theorem test_bus_errors :
    [Access.mk .read 32 0x02, Access.mk (.write 1) 8 0x10, Access.mk .read 32 0x18].map
        (fun a => faultOf (busAccess a State.reset)) =
      [some .busMisaligned, some .busWidth, some .busUnmapped] := by decide

/-- T-BUS-4: a write to RC_SUM is ignored. -/
theorem test_bus_read_only :
    (after (busAccess (Access.mk (.write 0xFFFFFFFF) 32 0x4C) abc)).map (fun t => (t.sum, t.responses)) =
      some (0x024A0126, [.ok]) := by decide

/-- T-BUS-5 and T-BUS-6: CMD reads 0 and RC_A is zero-extended. -/
theorem test_bus_reads :
    [(0x00 : Offset), 0x40, 0x84].map
        (fun off => (after (busAccess (Access.mk .read 32 off) { State.reset with a := 0xFF00 })).map State.responses) =
      [some [.data 0], some [.data 0x0000FF00], some [.data 0x00000020]] := by decide

/-- T-BUS-8. -/
theorem test_bus_arg1 :
    (after (busAccess (Access.mk (.write 0x12345678) 32 0x14) State.reset)).map (readReg .arg1) =
      some 0x12345678 := by decide

/-- A STATUS read that comes early is answered with BUSY = 1, an early read of another register is held (R47). -/
theorem test_early_reads :
    (after (step (busyWith 0x02610000 [⟨true, .bus (regAccess .status .read)⟩]))).map (fun t => (t.responses, t.a)) =
        some ([.data 1], 0) ∧
      (after (step (busyWith 0x02610000 [⟨true, .bus (regAccess .rcA .read)⟩]))).map (fun t => (t.responses, t.a)) =
        some ([], 0x61) := by decide

/-! ## The host's codecs (T-HP) -/

/-- E7: the 44 bytes. -/
theorem test_serializeDelta :
    (after (serializeDelta [.reusable 0 32, .literal [19], .reusable 32 34] ⟨[], none⟩)).map Sink.written =
      some [0, 0, 0, 0, 0, 0, 0, 0, 0, 0, 0, 0, 0, 0, 0, 0, 0x20, 1, 0, 0, 0, 0, 0, 0, 0, 1, 0x13,
        0, 0, 0, 0, 0, 0, 0, 0, 0x20, 0, 0, 0, 0, 0, 0, 0, 0x22] := by decide

/-- T-HP-11 and T-HP-12. -/
theorem test_deserializeDelta_corrupt :
    faultOf (deserializeDelta ⟨[2], false⟩) = some .corruptData ∧
      faultOf (deserializeDelta ⟨[1, 0, 0, 0, 0, 0, 0, 0, 5, 0x41, 0x42], false⟩) = some .corruptData := by decide

/-- R111: the blind merge of E3. -/
theorem test_deltaAppend :
    [Chunk.reusable 0 32, .reusable 32 32, .reusable 4 2].foldl deltaAppend [] = [.reusable 0 66] := by decide

/-- T-HP-5: the delta of the preserved defect outputs bytes 04 05. -/
theorem test_applyDelta_defect :
    applyDelta ⟨[0, 1, 2, 3, 4, 5, 6, 7], none, none⟩ [.reusable 4 2] ⟨[], none⟩ = ⟨⟨[4, 5], none⟩, none⟩ := by decide

/-- T-HP-15: the copy falls short. -/
theorem test_applyDelta_short :
    (applyDelta ⟨[0, 1, 2, 3], none, none⟩ [.reusable 2 10] ⟨[], none⟩).error = some .io := by decide

/-- R122: a failing seek, a failing read and a failing write are IOError; the sink keeps what it took. -/
theorem test_applyDelta_failures :
    (applyDelta ⟨[0, 1, 2, 3], some 0, none⟩ [.reusable 0 2] ⟨[], none⟩).error = some .io ∧
      (applyDelta ⟨[0, 1, 2, 3], none, some 1⟩ [.reusable 0 2] ⟨[], none⟩).error = some .io ∧
      applyDelta ⟨[0, 1, 2, 3], none, none⟩ [.literal [7, 8], .reusable 0 2] ⟨[], some 3⟩ =
        ⟨⟨[7, 8, 0], some 0⟩, some .io⟩ := by decide

/-- R122: a failing write of the serializers. -/
theorem test_serialize_failures :
    faultOf (serializeDelta [.literal [19]] ⟨[], some 9⟩) = some .io ∧
      faultOf (serializeSignature ⟨[], some 3⟩ State.reset) = some .io := by decide

/-! ## Every hypothesis can be met: states and operands for each statement -/

theorem reset_inv : State.reset.Inv where
  shLen_eq := by decide
  digest_fresh := by decide
  n_eq := by decide
  n_le_cap := Nat.zero_le _
  map_wf := List.Pairwise.nil
  map_below := by simp [State.reset]
  map_injective := List.Pairwise.nil
  busy_eq := by decide
  latched := by simp [State.reset]
  errInfo_clear := by decide
  hit_whit := by decide

theorem oneBlock_inv : oneBlock.Inv :=
  { reset_inv with
    n_eq := by decide
    n_le_cap := Nat.succ_le_succ (Nat.zero_le _)
    map_wf := by simp [mapWf, oneBlock]
    map_below := by simp [oneBlock]
    map_injective := by simp [oneBlock] }

theorem lostBlock_inv : lostBlock.Inv :=
  { reset_inv with
    n_eq := by decide
    n_le_cap := Nat.succ_le_succ (Nat.zero_le _)
    map_below := by simp [lostBlock, State.reset] }

theorem ixCap_lt : Config.ixCap < 2 ^ 32 :=
  Nat.lt_of_le_of_lt (Nat.succ_le_of_lt Config.ixCapPred.isLt) (by decide)

theorem fullTable_n : fullTable.n.toNat = Config.ixCap := BitVec.toNat_ofNat .. |>.trans (Nat.mod_eq_of_lt ixCap_lt)

theorem fullTable_inv : fullTable.Inv :=
  { reset_inv with
    n_eq := by rw [fullTable_n]; simp [fullTable]
    n_le_cap := Nat.le_of_eq fullTable_n
    map_below := by simp [fullTable, State.reset] }

theorem test_witness_no_error : State.reset.err = .noError ∧ State.reset.idle := by simp [State.reset, State.idle]

theorem test_witness_DecodeOfEncode : (Instr.rcRoll 0xFF 0xFF).wellFormed = true ∧ (Instr.nop).wellFormed = true := by
  decide

theorem test_witness_EncodeOfDecode :
    decode 0x03FFFF00 = .command (.rcRoll 0xFF 0xFF) ∧ decode 0x24010000 = .command (.ixMatch .host) := by decide

theorem test_witness_WordsDecode_illegal : fieldOp 0x05000000 ∉ opcodes ∧ fieldOp 0xFFFFFFFF ∉ opcodes := by decide

theorem test_witness_WordsDecode_reserved :
    ((0x21000000, 0xFFFEFFFF) : Word × Word) ∈ opcodeMap ∧ fieldOp 0x21030000 = fieldOp 0x21000000 ∧
      (0x21030000 : Word) &&& 0xFFFEFFFF ≠ 0x21000000 := by decide

theorem test_witness_WordsDecode_command :
    ((0x03000000, 0xFF0000FF) : Word × Word) ∈ opcodeMap ∧ (0x03FFFF00 : Word) &&& 0xFF0000FF = 0x03000000 := by decide

theorem test_witness_WordsDecode_dropped : afterIllegalOp.err ≠ .noError := by decide

theorem test_witness_Latched :
    (busyWith 0x25000000 [⟨true, .bus (regAccess .status .read)⟩]).pend = some ⟨0x25000000, 0, 0, zeroHash⟩ ∧
      overtakes ⟨true, .bus (regAccess .status .read)⟩ = true ∧
      overtakes ⟨true, .bus (regAccess .ctrl (.write 0))⟩ = true ∧ overtakes ⟨true, .resetLine⟩ = true ∧
      (after (step (busyWith 0x25000000 [⟨true, .bus (regAccess .status .read)⟩]))).isSome = true := by decide

theorem test_witness_StepRuns :
    (busyWith 0x02610000 []).pend = some ⟨0x02610000, 0, 0, zeroHash⟩ ∧ (busyWith 0x02610000 []).nextHeld ∧
      (busyWith 0x02610000 []).err = .noError ∧ decode 0x02610000 = .command (.rcFeed 0x61) := by
  refine ⟨rfl, ?_, rfl, by decide⟩
  simp [State.nextHeld, busyWith]

/-- With an access behind it that is held. -/
theorem test_witness_StepRuns_held :
    (busyWith 0x02610000 [⟨true, .bus (regAccess .rcA .read)⟩]).nextHeld := by
  simp [State.nextHeld, busyWith, overtakes, unheld, regAccess, regOffset, regAt]

theorem test_witness_CommandWrite :
    (withInputs [⟨true, .bus ⟨.write (encode .ixRead), 32, 0x00⟩⟩]).idle ∧
      (withInputs [⟨true, .bus ⟨.write (encode .ixRead), 32, 0x00⟩⟩]).err = .noError ∧
      (∀ j ∈ ([] : List Input).head?, overtakes j = false) := by
  refine ⟨⟨rfl, rfl⟩, rfl, by simp⟩

/-- The held clause: not early; early and of another register, another kind or another width. -/
theorem test_witness_BusyHolds_held :
    (busyWith 0 []).busy = true ∧ (busyWith 0 []).pend = some ⟨0, 0, 0, zeroHash⟩ ∧
      regAccess .arg0 .read ≠ ⟨.read, 32, 0x04⟩ ∧ regAccess .status (.write 0) ≠ ⟨.read, 32, 0x04⟩ ∧
      Access.mk .read 8 0x04 ≠ ⟨.read, 32, 0x04⟩ ∧ ∀ v, regAccess .ctrl .read ≠ ⟨.write v, 32, 0x08⟩ := by
  refine ⟨rfl, rfl, by decide, by decide, by decide, by simp [regAccess]⟩

/-- The two exceptions. -/
theorem test_witness_BusyHolds_early :
    (busyWith 0 [⟨true, .bus ⟨.read, 32, 0x04⟩⟩]).inputs = [⟨true, .bus ⟨.read, 32, 0x04⟩⟩] ∧
      (busyWith 0 [⟨true, .bus ⟨.write 1, 32, 0x08⟩⟩]).inputs = [⟨true, .bus ⟨.write 1, 32, 0x08⟩⟩] := ⟨rfl, rfl⟩

theorem test_witness_Dropped :
    afterIllegalOp.idle ∧ afterIllegalOp.err ≠ .noError ∧
      { afterIllegalOp with inputs := [⟨false, .bus ⟨.write 0, 32, 0x00⟩⟩] }.err = .illegalOp := by
  refine ⟨⟨rfl, rfl⟩, by decide, rfl⟩

theorem test_witness_Sequential :
    (withInputs [AsmLine.input (.command .nop), AsmLine.input (.rd .status)]).idle ∧
      ∀ i ∈ (withInputs [AsmLine.input (.command .nop), AsmLine.input (.rd .status)]).inputs, i.early = false := by
  refine ⟨⟨rfl, rfl⟩, by decide⟩

theorem test_witness_AccessRules :
    (0x0C : Offset) ∈ mappedOffsets ∧ (0xBC : Offset) ∈ mappedOffsets ∧
      (0x0C : Offset) ∉ [0x00, 0x04, 0x08, 0x10, 0x14, 0x20, 0x24, 0x28, 0x2C, 0x30, 0x34, 0x38, (0x3C : Offset)] ∧
      (0xBC : Offset) ∉ [0x00, 0x04, 0x08, 0x10, 0x14, 0x20, 0x24, 0x28, 0x2C, 0x30, 0x34, 0x38, (0x3C : Offset)] ∧
      (0x7FFFFFDF : Word).getLsbD 5 = false ∧ (0x7FFFFFDF : Word).getLsbD 31 = false ∧
      (0xFFFFFFFE : Word).getLsbD 0 = false := by decide

theorem test_witness_BusErrors :
    (Access.mk .read 31 0x00).width ≠ 32 ∧ (0xFF : Offset).toNat % 4 ≠ 0 ∧
      ((0x18 : Offset).toNat % 4 = 0 ∧ (0x18 : Offset) ∉ mappedOffsets) ∧
      ((0xC0 : Offset).toNat % 4 = 0 ∧ (0xC0 : Offset) ∉ mappedOffsets) ∧
      ((0x8C : Offset).toNat % 4 = 0 ∧ (0x8C : Offset) ∉ mappedOffsets) ∧ (0xBC : Offset) ∈ mappedOffsets ∧
      (withInputs [⟨false, .bus ⟨.read, 32, 0x18⟩⟩]).idle := by
  refine ⟨by decide, by decide, by decide, by decide, by decide, by decide, rfl, rfl⟩

theorem test_witness_SideEffects :
    (after (busAccess ⟨.read, 32, 0x40⟩ State.reset)).isSome = true ∧
      (after (busAccess ⟨.write 1, 32, 0x10⟩ State.reset)).isSome = true := by decide

theorem test_witness_HashRegisters : (0 : Fin 32).val / 4 ≠ (7 : Fin 8).val ∧ (31 : Fin 32).val / 4 ≠ (0 : Fin 8).val := by
  decide

/-- The states of the examples of R62 to R65. -/
theorem test_witness_triples :
    State.reset.triple = (0, 0, 0) ∧ State.reset.count = 0 ∧ abc.triple = (0x0126, 0x024A, 3) ∧ abc.err = .noError ∧
      abc.triple = weakTriple [0x61, 0x62, 0x63] ∧ State.reset.shLen = 0 := by decide

theorem test_witness_overflow :
    longMessage.shLen = 0xFFFFFFFF ∧ longMessage.err = .noError ∧
      { longMessage with shLen := 0xFFFFFFFE }.shLen ≠ 0xFFFFFFFF := by decide

theorem test_witness_InitByFeeding :
    { longMessage with shLen := 0xFFFFFFFE }.shLen.toNat + [(0x61 : Byte)].length < 2 ^ 32 ∧ longMessage.idle := by
  refine ⟨by decide, rfl, rfl⟩

/-- The clauses of ix.setbl: STATE, CONFIG just below the minimum, the minimum, and 0 without the check. -/
theorem test_witness_IxSetbl :
    oneBlock.n ≠ 0 ∧ State.reset.n = 0 ∧ { State.reset with arg0 := 31 }.latchedArg0.toNat < 32 ∧
      (true = true → 32 ≤ { State.reset with arg0 := 32 }.latchedArg0.toNat) ∧
      (false = true → 32 ≤ State.reset.latchedArg0.toNat) := by decide

theorem test_witness_IxAppend_noDigest : State.reset.Inv ∧ State.reset.shValid = false := ⟨reset_inv, rfl⟩

theorem test_witness_IxAppend_full :
    fullTable.Inv ∧ fullTable.err = .noError ∧ (Src.host = .rc → fullTable.shValid = true) ∧
      fullTable.n.toNat = Config.ixCap := ⟨fullTable_inv, rfl, nofun, fullTable_n⟩

theorem test_witness_IxAppend :
    State.reset.Inv ∧ (Src.host = .rc → State.reset.shValid = true) ∧ State.reset.n.toNat ≠ Config.ixCap :=
  ⟨reset_inv, nofun, nofun⟩

/-- A repeated key, where the table has room for a second block. -/
theorem test_witness_IxAppend_again (h : Config.ixCap ≠ 1) :
    oneBlock.Inv ∧ oneBlock.n.toNat ≠ Config.ixCap ∧ mapFind 0x0294010A oneBlock.map = some 0 :=
  ⟨oneBlock_inv, fun he => h he.symm, rfl⟩

theorem test_witness_IxLookup :
    (Src.rc = .rc → (0x0294010A : Word) = sumOf collided.a collided.b) ∧
      (Src.rc = .host → (0x0294010A : Word) = collided.latchedArg0) ∧
      mapFind 0x0294010A collided.map = some 1 ∧ mapFind 0 collided.map = none ∧
      collided.latchedArg0 = 0 := by decide

/-- The example of R79. -/
theorem test_witness_IxLookup_example :
    collided.map = [(0x0294010A, 1)] ∧ { collided with arg0 := 0x0294010A }.latchedArg0 = 0x0294010A := by decide

theorem test_witness_IxMatch :
    collided.shValid = true ∧ State.reset.shValid = false ∧
      (Src.rc = .rc → (0x0294010A : Word) = sumOf collided.a collided.b ∧ hashBADD = collided.digest) := by decide

theorem test_witness_IxRead_range : State.reset.Inv ∧ State.reset.n.toNat ≤ State.reset.latchedArg1.toNat :=
  ⟨reset_inv, by decide⟩

theorem test_witness_IxRead_live :
    oneBlock.Inv ∧ oneBlock.latchedArg1.toNat < oneBlock.n.toNat ∧ mapFind 0x0294010A oneBlock.map =
      some oneBlock.latchedArg1 := ⟨oneBlock_inv, by decide, by decide⟩

theorem test_witness_IxRead_lost :
    lostBlock.Inv ∧ lostBlock.latchedArg1.toNat < lostBlock.n.toNat ∧
      ∀ k, mapFind k lostBlock.map ≠ some lostBlock.latchedArg1 :=
  ⟨lostBlock_inv, by decide, by simp [lostBlock, State.reset, mapFind]⟩

theorem test_witness_LastAppend :
    State.reset.Inv ∧ State.reset.idle ∧ [((0 : Word), zeroHash)].length ≤ Config.ixCap :=
  ⟨reset_inv, ⟨rfl, rfl⟩, Nat.succ_le_succ (Nat.zero_le _)⟩

/-- Two pairs with one key, where the table has room. -/
theorem test_witness_LastAppend_again (h : Config.ixCap ≠ 1) :
    [((7 : Word), hashABCD), (7, hashBADD)].length ≤ Config.ixCap := by
  have : Config.ixCap = Config.ixCapPred.val + 1 := rfl
  simp only [List.length_cons, List.length_nil]
  omega

theorem test_witness_exec :
    (after (exec (.ixSetbl false) State.reset)).isSome = true ∧ (after (exec .ixRead oneBlock)).isSome = true ∧
      ((after (exec (.ixSetbl true) State.reset)).map State.err = some .config) := by decide

theorem test_witness_Tables :
    (after (busAccess ⟨.write 1, 32, 0x08⟩ collided)).isSome = true ∧
      (after (busAccess ⟨.write 1, 32, 0x00⟩ collided)).isSome = true := by decide

/-- An access that is answered, one that is a fault, and a state with other tables. -/
theorem test_witness_Tables_differ :
    (after (busAccess ⟨.read, 32, 0x80⟩ collided)).isSome = true ∧
      faultOf (busAccess ⟨.read, 32, 0x18⟩ collided) = some .busUnmapped ∧
      { collided with hashes := [], map := [], msg := [1] } ≠ collided := by decide

theorem test_witness_SourceBit :
    collided.pend = none ∧ (collided.accept 0x22000000).pend = some ⟨0x22000000, 0, 0, zeroHash⟩ := by decide

theorem test_witness_Nop : fieldOp 0x00000001 = 0 ∧ (0x00000001 : Word) ≠ 0 ∧ fieldOp 0x00800000 = 0 := by decide

theorem test_witness_Precise :
    (busyWith 0x25000000 []).pend = some ⟨0x25000000, 0, 0, zeroHash⟩ ∧ (busyWith 0x25000000 []).nextHeld ∧
      (after (step (busyWith 0x25000000 []))).map State.err = some .range := by
  refine ⟨rfl, ?_, by decide⟩
  simp [State.nextHeld, busyWith]

theorem test_witness_ErrorStands :
    afterIllegalOp.err ≠ .noError ∧
      (after (step { afterIllegalOp with inputs := [⟨false, .bus ⟨.write 0x80000000, 32, 0x04⟩⟩] })).map State.err =
        some .noError ∧
      (after (step (afterIllegalOp.withFetchWord 32 0))).map State.err = some .illegalOp := by decide

theorem test_witness_HardwareReset :
    { busyWith 0 [⟨true, .resetLine⟩] with a := 1 }.inputs = [⟨true, .resetLine⟩] ∧
      { withInputs [⟨false, .resetLine⟩] with a := 1 }.pend = none := by decide

theorem test_witness_SoftReset :
    (busyWith 0 [⟨true, .bus ⟨.write 1, 32, 0x08⟩⟩]).inputs = [⟨true, .bus ⟨.write 1, 32, 0x08⟩⟩] ∧
      (1 : Word).getLsbD 0 = true ∧ (0xFFFFFFFE : Word).getLsbD 0 = false := by decide

theorem test_witness_Invariant :
    oneBlock.Inv ∧ (after (step oneBlock)).isSome = true ∧ afterIllegalOp.errorCause ∧
      (after (step afterIllegalOp)).isSome = true := by
  refine ⟨oneBlock_inv, by decide, ?_, by decide⟩
  show fieldOp 0x7F000000 ∉ opcodes
  decide

/-- A run from reset that reaches a state with an entry in MAP: an ix.append of the host's pair (0, zeros). -/
theorem test_witness_Reachable :
    (after (runSteps 2 (withInputs [AsmLine.input (.command (.ixAppend .host))]))).map (fun t => (t.map, t.n)) =
      some ([(0, 0)], 1) := rfl

theorem test_witness_DeltaCodec : ∀ data, Chunk.literal data ∈ [Chunk.literal [19], .reusable 0 32] → data.length < 2 ^ 64 := by
  intro data h
  simp at h
  subst h
  decide

/-- A sink with no room for one record, at the boundary, and with room for it. -/
theorem test_witness_DeltaRecordSizes :
    (Sink.mk [] (some 16)).room = some 16 ∧
      16 < ([Chunk.reusable 0 32].map (fun c => (serializeChunk c).length)).sum ∧
      ([Chunk.reusable 0 32].map (fun c => (serializeChunk c).length)).sum ≤ 17 := by decide

/-- A patch that succeeds, one that fails, a literal and a copy with no room left and with one byte too little, at the end of the
basis. -/
theorem test_witness_Patch :
    (applyDelta ⟨[1, 2], none, none⟩ [.reusable 0 2] ⟨[], none⟩).error = none ∧
      (applyDelta ⟨[1, 2], none, none⟩ [.reusable 1 2] ⟨[], none⟩).error ≠ none ∧
      0 < ([7] : List Byte).length ∧ 1 < ([7, 8] : List Byte).length ∧
      (1 : Long).toNat + (1 : Long).toNat ≤ ([1, 2] : List Byte).length ∧ 0 < (1 : Long).toNat ∧ (1 : Long) ≠ 0 := by decide

/-- R121: the chunk before a failing one stays in the output. -/
theorem test_applyDelta_no_rollback :
    applyDelta ⟨[1, 2], none, none⟩ [.literal [7], .reusable 3 1, .literal [8]] ⟨[], none⟩ = ⟨⟨[7], none⟩, some .io⟩ := by
  decide

theorem test_witness_BuildSignature_short : (31 : Word).toNat < 32 ∧ State.reset.idle := ⟨by decide, rfl, rfl⟩

theorem test_witness_Scan : { State.reset with blockLen := 0 }.blockLen = 0 := rfl

theorem test_witness_ScanOfAnEmptySignature :
    State.reset.idle ∧ State.reset.err = .noError ∧ State.reset.map = [] ∧ State.reset.blockLen ≠ 0 :=
  ⟨⟨rfl, rfl⟩, rfl, rfl, by decide⟩

theorem test_witness_SignatureOfABasis :
    State.reset.Inv ∧ 32 ≤ (32 : Word).toNat ∧ ([0x41, 0x42].length + (32 : Word).toNat - 1) / (32 : Word).toNat ≤ Config.ixCap :=
  ⟨reset_inv, by decide, Nat.succ_le_succ (Nat.zero_le _)⟩

end Sys2Proof.Tests
end

