-- ==== Sys2Proof/Proofs/WindowChecksum.lean ====
section
/-! PROOF. The checksum of a window by position (spec/00_scope.md R11) and with its weights modulo 2^16
(spec/40_rolling_checksum.md R68). -/

namespace Sys2Proof.Machine

theorem byteSum_eq_sum (window : List Byte) : byteSum window = (window.map (fun x => x.toNat)).sum := by
  induction window with
  | nil => rfl
  | cons x xs ih => rw [byteSum, ih, List.map_cons, List.sum_cons]

/-- Counting positions from `k`, byte i stands at `k + i` and its weight is the distance to the end at `k + n`. -/
theorem weightedSum_eq_sum_zipIdx_from (window : List Byte) (k : Nat) :
    weightedSum window = ((window.zipIdx k).map (fun p => (k + window.length - p.2) * p.1.toNat)).sum := by
  induction window generalizing k with
  | nil => rfl
  | cons x xs ih =>
    have weight_first : k + (xs.length + 1) - k = xs.length + 1 := by omega
    have end_same : k + (xs.length + 1) = k + 1 + xs.length := by omega
    rw [weightedSum, List.zipIdx_cons, List.map_cons, List.sum_cons, List.length_cons, weight_first, end_same,
      ← ih (k + 1)]

theorem weightedSum_eq_sum_zipIdx (window : List Byte) :
    weightedSum window = (window.zipIdx.map (fun p => (window.length - p.2) * p.1.toNat)).sum := by
  simpa only [Nat.zero_add] using weightedSum_eq_sum_zipIdx_from window 0

/-- A byte's term modulo 2^16 needs its weight `n - i` only modulo 2^16 (R68). -/
theorem ofNat_weight_mul_byte {n i : Nat} (x : Byte) (h : i ≤ n) :
    BitVec.ofNat 16 ((n - i) * x.toNat) = (BitVec.ofNat 16 n - BitVec.ofNat 16 i) * zext16 x := by
  have byte_cast : zext16 x = BitVec.ofNat 16 x.toNat := (BitVec.ofNat_toNat 16 x).symm
  simp only [byte_cast, ← BitVec.natCast_eq_ofNat, Nat.cast_mul, Nat.cast_sub h]

theorem ofNat_weightedSum (window : List Byte) :
    BitVec.ofNat 16 (weightedSum window) =
      (window.zipIdx.map (fun p => (BitVec.ofNat 16 window.length - BitVec.ofNat 16 p.2) * zext16 p.1)).sum := by
  rw [weightedSum_eq_sum_zipIdx, ← BitVec.natCast_eq_ofNat, Nat.cast_list_sum, List.map_map]
  congr 1
  refine List.map_congr_left fun p hp => ?_
  have position_le : p.2 ≤ window.length := (List.snd_lt_of_mem_zipIdx hp).le
  rw [Function.comp_apply, BitVec.natCast_eq_ofNat, ofNat_weight_mul_byte p.1 position_le]

/-- Settles O23: the byte sum and the weighted sum by position, and the weighted sum term by term modulo 2^16. -/
theorem weakTripleIsTheClosedForm : Obligations.WeakTripleIsTheClosedForm := by
  intro window
  refine ⟨?_, ?_, ?_, ofNat_weightedSum window⟩
  · rw [← byteSum_eq_sum]
    exact BitVec.toNat_ofNat ..
  · rw [← weightedSum_eq_sum_zipIdx]
    exact BitVec.toNat_ofNat ..
  · exact BitVec.toNat_ofNat ..

end Sys2Proof.Machine
end

section
/-! PROOF. The state of the block (spec/10_state.md): what a completed command has done, the invariant every step keeps (R20 to R25,
R30), the writers of the flags and of the result registers (R27, R29), the register map (R31 to R33) and the reset values (R34). -/

namespace Sys2Proof.Machine

variable {s t : State}

/-! ## What a completed command has done -/

/-- What a command can do: it raises an error and records its own word (R92), or its operation takes place, under the guards of
the command's rule. Every meaning of `exec` is one of these (`exec_effect`). -/
inductive Effect (s : State) : Instr → State → Prop
  | error (i : Instr) (code : ErrCode) (isError : code ≠ .noError) : Effect s i (s.raiseError code (encode i))
  | nop : Effect s .nop s
  | rcClear : Effect s .rcClear (s.setRc 0 0 0)
  | rcFeed (x : Byte) : Effect s (.rcFeed x) (s.feedRc x)
  | rcRoll (out inc : Byte) : Effect s (.rcRoll out inc) (s.rollRc out inc)
  | xfeed (x : Byte) (room : s.shFull = false) : Effect s (.xfeed x) ((s.feedRc x).feedSh x)
  | shStart : Effect s .shStart s.startSh
  | shFeed (x : Byte) (room : s.shFull = false) : Effect s (.shFeed x) (s.feedSh x)
  | shFinal : Effect s .shFinal s.finalSh
  | ixClear : Effect s .ixClear s.clearIx
  | ixSetbl (chk : Bool) (empty : s.n = 0) (checked : chk = true → 32 ≤ s.latchedArg0.toNat) :
      Effect s (.ixSetbl chk) (s.setBlockLen s.latchedArg0)
  | ixAppend (src : Src) (digest : s.digestMissing src = false) (room : s.n.toNat ≠ Config.ixCap) :
      Effect s (.ixAppend src) (s.appendBlock (s.weakOperand src) (s.hashOperand src))
  | ixLookup (src : Src) :
      Effect s (.ixLookup src) (s.setLookup (mapFind (s.weakOperand src) s.map) (fun _ => true))
  | ixMatch (src : Src) (digest : s.digestMissing src = false) :
      Effect s (.ixMatch src)
        (s.setLookup (mapFind (s.weakOperand src) s.map) (fun id => s.hashAt id == s.hashOperand src))
  | ixRead (inRange : s.latchedArg1.toNat < s.n.toNat) :
      Effect s .ixRead (s.setReadBack s.latchedArg1 (s.hashAt s.latchedArg1) (mapKeyOf s.latchedArg1 s.map))

theorem exec_effect {i : Instr} (h : exec i s = .next t) : Effect s i t := by
  cases i with
  | nop => cases h; exact .nop
  | rcClear => cases h; exact .rcClear
  | rcFeed x => cases h; exact .rcFeed x
  | rcRoll out inc => cases h; exact .rcRoll out inc
  | xfeed x =>
    rcases execXfeed_cases h with ⟨-, rfl⟩ | ⟨room, rfl⟩
    · exact .error _ _ nofun
    · exact .xfeed x room
  | shStart => cases h; exact .shStart
  | shFeed x =>
    rcases execShFeed_cases h with ⟨-, rfl⟩ | ⟨room, rfl⟩
    · exact .error _ _ nofun
    · exact .shFeed x room
  | shFinal => cases h; exact .shFinal
  | ixClear => cases h; exact .ixClear
  | ixSetbl chk =>
    rcases execIxSetbl_cases h with ⟨-, rfl⟩ | ⟨-, -, -, rfl⟩ | ⟨empty, checked, rfl⟩
    · exact .error _ _ nofun
    · exact .error _ _ nofun
    · exact .ixSetbl chk empty checked
  | ixAppend src =>
    rcases execIxAppend_cases h with ⟨-, rfl⟩ | ⟨-, -, rfl⟩ | ⟨digest, room, rfl⟩
    · exact .error _ _ nofun
    · exact .error _ _ nofun
    · exact .ixAppend src digest room
  | ixLookup src => cases h; exact .ixLookup src
  | ixMatch src =>
    rcases execIxMatch_cases h with ⟨-, rfl⟩ | ⟨digest, rfl⟩
    · exact .error _ _ nofun
    · exact .ixMatch src digest
  | ixRead =>
    rcases execIxRead_cases h with ⟨-, rfl⟩ | ⟨inRange, rfl⟩
    · exact .error _ _ nofun
    · exact .ixRead inRange

/-! ## MAP and the parameter IX_CAP -/

theorem ixCap_lt_two_pow : Config.ixCap < 2 ^ 32 :=
  Nat.lt_of_le_of_lt (Nat.succ_le_of_lt Config.ixCapPred.isLt) (by decide)

/-- A value that MAP does not hold yet keeps its values distinct (R25 (b)). -/
theorem mapInsert_injective {w id : Word} {m : List (Word × Word)} (wf : mapWf m)
    (injective : m.Pairwise (fun p q => p.2 ≠ q.2)) (fresh : ∀ p ∈ m, p.2 ≠ id) :
    (mapInsert w id m).Pairwise (fun p q => p.2 ≠ q.2) := by
  induction m with
  | nil => exact List.pairwise_singleton _ _
  | cons q m ih =>
    obtain ⟨-, wf_tail⟩ := List.pairwise_cons.1 wf
    obtain ⟨q_new, injective_tail⟩ := List.pairwise_cons.1 injective
    obtain ⟨q_fresh, fresh_tail⟩ := List.forall_mem_cons.1 fresh
    unfold mapInsert
    split
    · exact List.pairwise_cons.2 ⟨fun p hp => (fresh p hp).symm, injective⟩
    · split
      · exact List.pairwise_cons.2 ⟨fun p hp => (fresh_tail p hp).symm, injective_tail⟩
      · refine List.pairwise_cons.2 ⟨fun p hp => ?_, ih wf_tail injective_tail fresh_tail⟩
        rcases mem_mapInsert wf_tail hp with rfl | ⟨hp, -⟩
        · exact q_fresh
        · exact q_new p hp

/-! ## Every operation keeps the invariant -/

namespace State.Inv

/-! Updates of fields the invariant does not speak of: every clause stands as it was. -/

theorem setRc (h : s.Inv) (a b count : Half) : (s.setRc a b count).Inv := { h with busy_eq := h.busy_eq }

theorem setBlockLen (h : s.Inv) (v : Word) : (s.setBlockLen v).Inv := { h with busy_eq := h.busy_eq }

theorem setReadBack (h : s.Inv) (id : Word) (hash : Hash) (key : Option Word) : (s.setReadBack id hash key).Inv :=
  { h with busy_eq := h.busy_eq }

theorem dropCommand (h : s.Inv) : s.dropCommand.Inv := { h with busy_eq := h.busy_eq }

theorem clearDropped (h : s.Inv) : s.clearDropped.Inv := { h with busy_eq := h.busy_eq }

theorem respond (h : s.Inv) (r : Response) : (s.respond r).Inv := { h with busy_eq := h.busy_eq }

theorem setInputs (h : s.Inv) (l : List Input) : (s.setInputs l).Inv := { h with busy_eq := h.busy_eq }

theorem feedRc (h : s.Inv) (x : Byte) : (s.feedRc x).Inv := h.setRc ..

theorem rollRc (h : s.Inv) (out inc : Byte) : (s.rollRc out inc).Inv := h.setRc ..

/-! Updates of fields it speaks of: the clauses about them are proved again. -/

theorem startSh (h : s.Inv) : s.startSh.Inv := { h with shLen_eq := rfl, digest_fresh := nofun }

/-- SH_LEN counts the new byte without wrapping, because the message is not at its limit (R71). -/
theorem feedSh (h : s.Inv) (room : s.shFull = false) (x : Byte) : (s.feedSh x).Inv :=
  { h with
    shLen_eq := by
      have below_limit : s.shLen ≠ 0xFFFFFFFF := by simpa [State.shFull] using room
      have count : (s.shLen + 1).toNat = s.shLen.toNat + 1 := by bv_omega
      rw [feedSh_shLen, count, h.shLen_eq, feedSh_msg, List.length_append, List.length_singleton]
    digest_fresh := nofun }

theorem finalSh (h : s.Inv) : s.finalSh.Inv := { h with digest_fresh := fun _ => rfl }

theorem clearIx (h : s.Inv) : s.clearIx.Inv :=
  { h with
    n_eq := rfl
    n_le_cap := Nat.zero_le _
    map_wf := List.Pairwise.nil
    map_below := nofun
    map_injective := List.Pairwise.nil }

/-- The new id N is above every value of MAP, so the values stay distinct and below N + 1 (R25, R78). -/
theorem appendBlock (h : s.Inv) (room : s.n.toNat ≠ Config.ixCap) (w : Word) (hash : Hash) :
    (s.appendBlock w hash).Inv := by
  have below_cap : s.n.toNat < Config.ixCap := Nat.lt_of_le_of_ne h.n_le_cap room
  have count : (s.n + 1).toNat = s.n.toNat + 1 := by
    have := ixCap_lt_two_pow
    bv_omega
  exact { h with
    n_eq := by
      rw [appendBlock_n, count, appendBlock_hashes, h.n_eq, List.take_length, List.length_append,
        List.length_singleton]
    n_le_cap := count.trans_le below_cap
    map_wf := mapWf_append w hash s h.map_wf
    map_below := fun p hp => by
      rw [appendBlock_n, count]
      rcases mem_mapInsert h.map_wf hp with rfl | ⟨hp, -⟩
      · exact Nat.lt_succ_self _
      · exact Nat.lt_succ_of_lt (h.map_below p hp)
    map_injective :=
      mapInsert_injective h.map_wf h.map_injective fun p hp he =>
        Nat.ne_of_lt (h.map_below p hp) (congrArg BitVec.toNat he) }

theorem setLookup (h : s.Inv) (found : Option Word) (agrees : Word → Bool) : (s.setLookup found agrees).Inv := by
  cases found with
  | some id => exact { h with hit_whit := fun _ => rfl }
  | none => exact { h with hit_whit := nofun }

theorem raiseError (h : s.Inv) {code : ErrCode} (isError : code ≠ .noError) (word : Word) :
    (s.raiseError code word).Inv :=
  { h with errInfo_clear := fun he => absurd he isError }

theorem clearError (h : s.Inv) : s.clearError.Inv := { h with errInfo_clear := fun _ => rfl }

theorem accept (h : s.Inv) (word : Word) : (s.accept word).Inv :=
  { h with
    busy_eq := rfl
    latched := fun p hp => by
      cases Option.mem_some.1 hp
      exact ⟨rfl, rfl, rfl⟩ }

theorem retire (h : s.Inv) : s.retire.Inv := { h with busy_eq := rfl, latched := nofun }

theorem setArg0 (h : s.Inv) (idle : s.pend = none) (v : Word) : (s.setArg0 v).Inv :=
  { h with latched := by simp [idle] }

theorem setArg1 (h : s.Inv) (idle : s.pend = none) (v : Word) : (s.setArg1 v).Inv :=
  { h with latched := by simp [idle] }

theorem setHin (h : s.Inv) (idle : s.pend = none) (k : Fin 8) (v : Word) : (s.setHin k v).Inv :=
  { h with latched := by simp [idle] }

theorem resetBlock (s : State) : s.resetBlock.Inv where
  shLen_eq := rfl
  digest_fresh := nofun
  n_eq := rfl
  n_le_cap := Nat.zero_le _
  map_wf := mapWf_reset
  map_below := nofun
  map_injective := List.Pairwise.nil
  busy_eq := rfl
  latched := nofun
  errInfo_clear := fun _ => rfl
  hit_whit := nofun

theorem writeStatus (h : s.Inv) (v : Word) : (s.writeStatus v).Inv := by
  unfold State.writeStatus
  split <;> split
  · exact h.clearDropped.clearError
  · exact h.clearDropped
  · exact h.clearError
  · exact h

theorem writeCtrl (h : s.Inv) (v : Word) : (s.writeCtrl v).Inv := by
  cases hv : v.getLsbD 0 with
  | true => rw [writeCtrl_reset v s hv]; exact resetBlock s
  | false => rw [writeCtrl_ignored v s hv]; exact h

/-! ## Every move keeps the invariant -/

/-- The operand registers must not be written while a command has latched them (R46, R47). -/
theorem writeReg (h : s.Inv) {r : Reg} (free : s.pend = none ∨ r = .status ∨ r = .ctrl) (v : Word) :
    (writeReg r v s).Inv := by
  cases r with
  | cmd => exact h.accept v
  | status => exact h.writeStatus v
  | ctrl => exact h.writeCtrl v
  | arg0 => exact h.setArg0 (free.resolve_right (by simp)) v
  | arg1 => exact h.setArg1 (free.resolve_right (by simp)) v
  | hin k => exact h.setHin (free.resolve_right (by simp)) k v
  | _ => exact h

theorem accessReg (h : s.Inv) {r : Reg} (free : s.pend = none ∨ r = .status ∨ r = .ctrl) (kind : AccessKind) :
    (accessReg r kind s).Inv := by
  cases kind with
  | read => exact h.respond _
  | write v => exact (h.writeReg free v).respond _

theorem effect (h : s.Inv) {i : Instr} (he : Effect s i t) : t.Inv := by
  cases he with
  | error i code isError => exact h.raiseError isError _
  | nop => exact h
  | rcClear => exact h.setRc ..
  | rcFeed x => exact h.feedRc x
  | rcRoll out inc => exact h.rollRc out inc
  | xfeed x room => exact (h.feedRc x).feedSh room x
  | shStart => exact h.startSh
  | shFeed x room => exact h.feedSh room x
  | shFinal => exact h.finalSh
  | ixClear => exact h.clearIx
  | ixSetbl => exact h.setBlockLen _
  | ixAppend src digest room => exact h.appendBlock room ..
  | ixLookup | ixMatch => exact h.setLookup ..
  | ixRead => exact h.setReadBack ..

theorem runWord (h : s.Inv) {word : Word} (hr : runWord word s = .next t) : t.Inv := by
  rcases runWord_cases hr with ⟨-, rfl⟩ | ⟨-, -, rfl⟩ | ⟨-, -, rfl⟩ | ⟨i, -, -, he⟩
  · exact h.dropCommand
  · exact h.raiseError (by decide) word
  · exact h.raiseError (by decide) word
  · exact h.effect (exec_effect he)

end State.Inv

/-- An access that a command in flight does not hold is to STATUS or to CTRL (R47). -/
theorem reg_of_unheld {a : Access} {r : Reg} (h : unheld (.bus a) = true) (hr : regAt a.off = some r) :
    r = .status ∨ r = .ctrl := by
  simp only [unheld, hr, Bool.and_eq_true] at h
  cases r with
  | status => exact .inl rfl
  | ctrl => exact .inr rfl
  | _ => cases h.2

/-- Settles O50: each of the three moves of a step is made of operations that keep the invariant. -/
theorem stepKeepsTheInvariant : Obligations.StepKeepsTheInvariant := by
  intro s t h hs
  rcases step_cases hs with ⟨p, u, -, -, hu, rfl⟩ | ⟨i, rest, -, free, he⟩ | ⟨-, -, rfl⟩
  · exact (h.runWord hu).retire
  · rcases takeEvent_cases he with ⟨-, rfl⟩ | ⟨a, r, event_eq, -, hr, rfl⟩
    · exact .resetBlock _
    · refine (h.setInputs rest).accessReg (free.imp_right fun ho => ?_) _
      have not_held : unheld i.event = true := (Bool.and_eq_true_iff.1 ho).2
      exact reg_of_unheld (event_eq ▸ not_held) hr
  · exact h

/-- Settles O49: the reset state is what a reset makes of itself. -/
theorem resetMeetsTheInvariant : Obligations.ResetMeetsTheInvariant :=
  ⟨.resetBlock .reset, trivial⟩

/-! ## Reachable states -/

/-- What every step keeps holds after any number of steps. -/
theorem runSteps_keeps {P : State → Prop} (keeps : ∀ s t, P s → step s = .next t → P t) {k : Nat}
    (hs : P s) (h : runSteps k s = .next t) : P t := by
  induction k generalizing s with
  | zero => cases h; exact hs
  | succ k ih =>
    obtain ⟨u, hu, ht⟩ := andThen_eq_next h
    exact ih (keeps s u hs hu) ht

namespace State.Inv

/-- No two keys of MAP have the same value (R25 (b)). -/
theorem mapFind_injective (h : s.Inv) {v w id : Word} (hv : mapFind v s.map = some id)
    (hw : mapFind w s.map = some id) : v = w := by
  have values_nodup : (s.map.map Prod.snd).Nodup := List.pairwise_map.2 h.map_injective
  have same_entry : (v, id) = (w, id) :=
    List.inj_on_of_nodup_map values_nodup (mem_of_mapFind hv) (mem_of_mapFind hw) rfl
  exact congrArg Prod.fst same_entry

/-- The values of MAP are distinct numbers below N, so there are at most N of them (R25). -/
theorem map_length_le (h : s.Inv) : s.map.length ≤ s.n.toNat := by
  have ids_nodup : (s.map.map (fun p => p.2.toNat)).Nodup :=
    List.pairwise_map.2 (h.map_injective.imp fun hne he => hne (BitVec.eq_of_toNat_eq he))
  have ids_below : s.map.map (fun p => p.2.toNat) ⊆ List.range s.n.toNat := fun j hj => by
    obtain ⟨p, hp, rfl⟩ := List.mem_map.1 hj
    exact List.mem_range.2 (h.map_below p hp)
  simpa using (ids_nodup.subperm ids_below).length_le

/-- A block id is the value of no key of MAP or of exactly one (R25, R81). -/
theorem keys_of_block (h : s.Inv) (id : Word) :
    (mapKeyOf id s.map = none ∧ ∀ w, mapFind w s.map ≠ some id) ∨
      ∃ w, mapFind w s.map = some id ∧ ∀ v, mapFind v s.map = some id → v = w := by
  cases hk : mapKeyOf id s.map with
  | none => exact .inl ⟨rfl, fun w hw => mapKeyOf_eq_none hk _ (mem_of_mapFind hw) rfl⟩
  | some w =>
    have hw : mapFind w s.map = some id := mapFind_eq_some_of_mem h.map_wf (mem_of_mapKeyOf hk)
    exact .inr ⟨w, hw, fun v hv => h.mapFind_injective hv hw⟩

end State.Inv

/-- Settles O52: the invariant holds of every reachable state, and gives each of the four facts about MAP. -/
theorem reachableMapIsInjectiveBelowN : Obligations.ReachableMapIsInjectiveBelowN := by
  intro inputs k s hrun
  have start : (State.reset.resetBlock.setInputs inputs).Inv := (State.Inv.resetBlock _).setInputs inputs
  have h : s.Inv := runSteps_keeps stepKeepsTheInvariant start hrun
  exact ⟨fun w id hw => h.map_below _ (mem_of_mapFind hw), fun v w id => h.mapFind_injective, h.map_length_le,
    fun id _ => h.keys_of_block id⟩

/-! ## Every command completes -/

theorem ite_eq_next {σ φ ρ : Type} {c : Prop} [Decidable c] {o q : Host.Outcome σ φ ρ} (ho : ∃ t, o = .next t)
    (hq : ∃ t, q = .next t) : ∃ t, (if c then o else q) = .next t := by
  split
  · exact ho
  · exact hq

/-- No command faults or is refused, in any state (R54, R92). -/
theorem exec_completes (i : Instr) (s : State) : ∃ t, exec i s = .next t := by
  cases i with
  | nop | rcClear | rcFeed | rcRoll | shStart | shFinal | ixClear | ixLookup => exact ⟨_, rfl⟩
  | xfeed | shFeed | ixMatch | ixRead => exact ite_eq_next ⟨_, rfl⟩ ⟨_, rfl⟩
  | ixSetbl | ixAppend => exact ite_eq_next ⟨_, rfl⟩ (ite_eq_next ⟨_, rfl⟩ ⟨_, rfl⟩)

theorem runWord_completes (word : Word) (s : State) : ∃ t, runWord word s = .next t := by
  refine ite_eq_next ⟨_, rfl⟩ ?_
  split
  · exact ⟨_, rfl⟩
  · exact ⟨_, rfl⟩
  · exact exec_completes _ s

/-- An accepted word touches neither the port nor the operand registers before it retires (R26, R92, R93). -/
theorem runWord_port_args {word : Word} (h : runWord word s = .next t) : samePort s t ∧ sameArgs s t := by
  rcases runWord_cases h with ⟨-, rfl⟩ | ⟨-, -, rfl⟩ | ⟨-, -, rfl⟩ | ⟨i, -, -, he⟩
  · exact ⟨⟨rfl, rfl, rfl, rfl⟩, rfl, rfl, rfl⟩
  · exact ⟨⟨rfl, rfl, rfl, rfl⟩, rfl, rfl, rfl⟩
  · exact ⟨⟨rfl, rfl, rfl, rfl⟩, rfl, rfl, rfl⟩
  · exact exec_port_args he

/-- A command in flight that the host's next input does not overtake completes (R45, R47). -/
theorem step_of_nextHeld {p : Pending} (hp : s.pend = some p) (held : s.nextHeld) : step s = completeCommand p s := by
  unfold step advance
  rw [hp]
  cases hi : s.inputs with
  | nil => rfl
  | cons i rest =>
    have not_early : overtakes i = false := held i (by simp [hi])
    simp [not_early]

/-- Settles O12: the word completes without a fault, and retirement leaves the block idle. -/
theorem everyAcceptedWordRetires : Obligations.EveryAcceptedWordRetires := by
  intro s p hp held
  obtain ⟨u, hu⟩ := runWord_completes p.word s
  obtain ⟨⟨-, -, inputs_eq, responses_eq⟩, args_eq⟩ := runWord_port_args hu
  refine ⟨u.retire, ?_, ⟨rfl, rfl⟩, inputs_eq, responses_eq, args_eq⟩
  rw [step_of_nextHeld hp held, completeCommand, hu, andThen_next]

/-! ## The writers of the flags and of the result registers -/

section Writers

variable {i : Instr}

theorem exec_hit_whit (h : exec i s = .next t) (not_lookup : ∀ src, i ≠ .ixLookup src)
    (not_match : ∀ src, i ≠ .ixMatch src) : t.hit = s.hit ∧ t.whit = s.whit := by
  cases exec_effect h with
  | ixLookup src => exact absurd rfl (not_lookup src)
  | ixMatch src => exact absurd rfl (not_match src)
  | _ => exact ⟨rfl, rfl⟩

theorem exec_lost (h : exec i s = .next t) (not_read : i ≠ .ixRead) : t.lost = s.lost := by
  cases exec_effect h with
  | ixRead => exact absurd rfl not_read
  | ixLookup | ixMatch => simp
  | _ => rfl

theorem exec_shValid (h : exec i s = .next t) (not_final : i ≠ .shFinal) (not_start : i ≠ .shStart)
    (not_feed : ∀ x, i ≠ .shFeed x) (not_xfeed : ∀ x, i ≠ .xfeed x) : t.shValid = s.shValid := by
  cases exec_effect h with
  | shFinal => exact absurd rfl not_final
  | shStart => exact absurd rfl not_start
  | shFeed x => exact absurd rfl (not_feed x)
  | xfeed x => exact absurd rfl (not_xfeed x)
  | ixLookup | ixMatch => simp
  | _ => rfl

theorem exec_dropped (h : exec i s = .next t) : t.dropped = s.dropped := by
  cases exec_effect h with
  | ixLookup | ixMatch => simp
  | _ => rfl

/-- A command that changes ERR has taken an error, and so changes ERR and ERRINFO alone (R92). -/
theorem exec_eq_raiseError_of_err_ne (h : exec i s = .next t) (changed : t.err ≠ s.err) :
    t = s.raiseError t.err (encode i) := by
  cases exec_effect h with
  | error => rfl
  | ixLookup | ixMatch => exact absurd (by simp) changed
  | _ => exact absurd rfl changed

theorem exec_resId (h : exec i s = .next t)
    (not_writer : ∀ src, i ≠ .ixAppend src ∧ i ≠ .ixLookup src ∧ i ≠ .ixMatch src) (not_read : i ≠ .ixRead) :
    t.resId = s.resId := by
  cases exec_effect h with
  | ixAppend src => exact absurd rfl (not_writer src).1
  | ixLookup src => exact absurd rfl (not_writer src).2.1
  | ixMatch src => exact absurd rfl (not_writer src).2.2
  | ixRead => exact absurd rfl not_read
  | _ => rfl

theorem exec_resWeak_resHash (h : exec i s = .next t) (not_read : i ≠ .ixRead) :
    t.resWeak = s.resWeak ∧ t.resHash = s.resHash := by
  cases exec_effect h with
  | ixRead => exact absurd rfl not_read
  | ixLookup | ixMatch => simp
  | _ => exact ⟨rfl, rfl⟩

end Writers

/-- Settles O44: each flag by the operations that write it. -/
theorem flagsChangeOnlyByTheirWriters : Obligations.FlagsChangeOnlyByTheirWriters := by
  intro i s t h
  obtain ⟨⟨busy_eq, -⟩, -⟩ := exec_port_args h
  refine ⟨exec_hit_whit h, exec_lost h, exec_shValid h, exec_dropped h, busy_eq, fun changed => ?_⟩
  rw [exec_eq_raiseError_of_err_ne h changed]
  exact ⟨rfl, rfl, rfl, rfl⟩

theorem off_of_regAt_ctrl (off : Offset) : regAt off = some .ctrl → off = 0x08 := by revert off; decide

/-- Only CTRL reaches the result registers, by a soft reset (R27, R104). -/
theorem accessReg_sameResults {r : Reg} (not_ctrl : r ≠ .ctrl) (kind : AccessKind) (s : State) :
    sameResults s (accessReg r kind s) := by
  cases kind with
  | read => exact ⟨rfl, rfl, rfl⟩
  | write v =>
    cases r with
    | ctrl => exact absurd rfl not_ctrl
    | status => simp [sameResults, accessReg, writeReg]
    | _ => exact ⟨rfl, rfl, rfl⟩

/-- Settles O45: the commands by the operations that write a result register, the bus by its one way to them, a reset. -/
theorem resultRegistersHaveFourWriters : Obligations.ResultRegistersHaveFourWriters := by
  refine ⟨fun i s t h => ⟨exec_resId h, exec_resWeak_resHash h⟩, fun s t a h not_ctrl => ?_⟩
  have taken : takeEvent (.bus a) s = .next t := h
  obtain ⟨event_eq, -⟩ | ⟨a', r, event_eq, -, hr, rfl⟩ := takeEvent_cases taken
  · cases event_eq
  · cases event_eq
    refine accessReg_sameResults (fun hc => not_ctrl (off_of_regAt_ctrl _ ?_)) _ s
    rw [hr, hc]

/-! ## The register map -/

/-- A 32-bit access at a register's own offset reaches the register (R31, R42). -/
theorem busAccess_regOffset (r : Reg) (kind : AccessKind) (s : State) :
    busAccess ⟨kind, 32, regOffset r⟩ s = .next (accessReg r kind s) :=
  busAccess_reg kind s (regAt_regOffset r).1 (regAt_regOffset r).2

theorem reads_regOffset (r : Reg) (s : State) : reads s (regOffset r) (readReg r s) :=
  busAccess_regOffset r .read s

@[simp] theorem toNat_zext_half (x : Half) : (x.setWidth 32).toNat = x.toNat :=
  BitVec.toNat_setWidth_of_le (by decide)

/-- RC_SUM as a number (R19). -/
theorem toNat_sumOf (a b : Half) : (sumOf a b).toNat = b.toNat * 65536 + a.toNat := by
  have ha : a.toNat < 2 ^ 16 := a.isLt
  have hb : b.toNat <<< 16 < 2 ^ 32 := by rw [Nat.shiftLeft_eq]; have := b.isLt; omega
  rw [sumOf, BitVec.toNat_or, BitVec.toNat_shiftLeft, toNat_zext_half, toNat_zext_half, Nat.mod_eq_of_lt hb,
    ← Nat.shiftLeft_add_eq_or_of_lt ha, Nat.shiftLeft_eq]

/-- Settles O13: each offset of R31 is that of a register. -/
theorem registerMapContents : Obligations.RegisterMapContents := fun s =>
  ⟨reads_regOffset .cmd s, reads_regOffset .status s, reads_regOffset .ctrl s, reads_regOffset .errInfo s,
    reads_regOffset .arg0 s, reads_regOffset .arg1 s, fun k => reads_regOffset (.hin k) s,
    ⟨_, reads_regOffset .rcA s, toNat_zext_half s.a⟩, ⟨_, reads_regOffset .rcB s, toNat_zext_half s.b⟩,
    ⟨_, reads_regOffset .rcCount s, toNat_zext_half s.count⟩, ⟨_, reads_regOffset .rcSum s, toNat_sumOf s.a s.b⟩,
    reads_regOffset .shLen s, fun k => reads_regOffset (.digest k) s,
    reads_regOffset .ixN s, reads_regOffset .ixBlockLen s,
    ⟨_, reads_regOffset .ixCap s, BitVec.toNat_ofNat .. |>.trans (Nat.mod_eq_of_lt ixCap_lt_two_pow)⟩,
    reads_regOffset .resId s, reads_regOffset .resWeak s, fun k => reads_regOffset (.resHash k) s⟩

/-! ## STATUS -/

/-- A flag shows at its own bit and nowhere else. -/
theorem getLsbD_flagAt (k : Nat) (flag : Bool) {j : Nat} (hj : j < 32) :
    (flagAt k flag).getLsbD j = (decide (j = k) && flag) := by
  rw [flagAt, BitVec.getLsbD_shiftLeft, BitVec.getLsbD_setWidth, BitVec.getLsbD_ofBool]
  rcases Nat.lt_trichotomy j k with h | rfl | h
  · simp [h, Nat.ne_of_lt h]
  · simp [hj]
  · simp [Nat.ne_of_gt h, Nat.sub_ne_zero_of_lt h]

/-- STATUS bit by bit (R32). -/
theorem getLsbD_statusWord (s : State) {j : Nat} (hj : j < 32) :
    s.statusWord.getLsbD j =
      (decide (j = 0) && s.busy || decide (j = 1) && s.hit || decide (j = 2) && s.whit || decide (j = 3) && s.lost ||
        decide (j = 4) && s.shValid || decide (j = 5) && s.dropped || !decide (j < 8) && s.err.code.getLsbD (j - 8)) := by
  have code_bit : j - 8 < 32 := by omega
  simp only [State.statusWord, BitVec.getLsbD_or, getLsbD_flagAt _ _ hj, BitVec.getLsbD_shiftLeft,
    BitVec.getLsbD_setWidth, hj, code_bit, decide_true, Bool.true_and]

/-- Past the flags, STATUS holds the code from bit 8 on (R32). -/
theorem getLsbD_statusWord_of_ge (s : State) {j : Nat} (past : 6 ≤ j) (hj : j < 32) :
    s.statusWord.getLsbD j = (!decide (j < 8) && s.err.code.getLsbD (j - 8)) := by
  have no_flag : j ≠ 0 ∧ j ≠ 1 ∧ j ≠ 2 ∧ j ≠ 3 ∧ j ≠ 4 ∧ j ≠ 5 := by omega
  simp only [getLsbD_statusWord s hj, no_flag, decide_false, Bool.false_and, Bool.false_or]

theorem statusWord_reserved_low (s : State) : s.statusWord.extractLsb' 6 2 = 0 := by
  refine BitVec.eq_of_getLsbD_eq fun i hi => ?_
  have before_code : 6 + i < 8 := by omega
  rw [BitVec.getLsbD_extractLsb', getLsbD_statusWord_of_ge s (by omega) (by omega)]
  simp [before_code]

theorem statusWord_err (s : State) : s.statusWord.extractLsb' 8 8 = s.err.code := by
  refine BitVec.eq_of_getLsbD_eq fun i hi => ?_
  rw [BitVec.getLsbD_extractLsb', getLsbD_statusWord_of_ge s (by omega) (by omega)]
  simp [hi]

theorem statusWord_reserved_high (s : State) : s.statusWord.extractLsb' 16 16 = 0 := by
  refine BitVec.eq_of_getLsbD_eq fun i hi => ?_
  have past_code : s.err.code.getLsbD (16 + i - 8) = false := BitVec.getLsbD_of_ge _ _ (by omega)
  rw [BitVec.getLsbD_extractLsb', getLsbD_statusWord_of_ge s (by omega) (by omega), past_code]
  simp

/-- A write to STATUS in one update (R32, R95). -/
theorem writeStatus_eq (v : Word) (s : State) : s.writeStatus v = { s with
    dropped := s.dropped && !v.getLsbD 5
    err := if v.getLsbD 31 then .noError else s.err
    errInfo := if v.getLsbD 31 then 0 else s.errInfo } := by
  unfold State.writeStatus
  cases v.getLsbD 5 <;> cases v.getLsbD 31 <;> simp [State.clearDropped, State.clearError]

/-- Settles O15: STATUS by its bits, the numbers by definition, and a write as one update of DROPPED, ERR and ERRINFO. -/
theorem statusRegisterFields : Obligations.StatusRegisterFields := by
  intro s v
  have bit {j : Nat} (hj : j < 32) := getLsbD_statusWord s hj
  refine ⟨(bit (by decide)).trans (by simp), (bit (by decide)).trans (by simp), (bit (by decide)).trans (by simp),
    (bit (by decide)).trans (by simp), (bit (by decide)).trans (by simp), (bit (by decide)).trans (by simp),
    statusWord_reserved_low s, statusWord_err s, statusWord_reserved_high s,
    rfl, rfl, rfl, rfl, rfl, rfl, rfl, rfl, rfl, ?_⟩
  refine (busAccess_regOffset .status (.write v) s).trans ?_
  rw [accessReg, writeReg, writeStatus_eq]
  rfl

/-! ## Reset -/

theorem zeroHash_getElem (k : Fin 32) : zeroHash[k.val] = 0 := Vector.getElem_replicate _

theorem resetBlock_hasResetValues (s : State) : s.resetBlock.hasResetValues :=
  ⟨rfl, rfl, rfl, rfl, rfl, zeroHash_getElem, rfl, rfl, rfl, fun _ => rfl, rfl, rfl, zeroHash_getElem, rfl, rfl,
    zeroHash_getElem, rfl, rfl, rfl, rfl, rfl, rfl, rfl, rfl, reads_regOffset .ctrl _⟩

/-- Settles O46: each of the three ways ends in a reset of the block, the soft reset with its answer to the host. -/
theorem resetValues : Obligations.ResetValues := by
  refine ⟨resetBlock_hasResetValues .reset, fun s t h => ?_, fun s t v srst h => ?_⟩
  · cases h
    exact resetBlock_hasResetValues s
  · cases (busAccess_regOffset .ctrl (.write v) s).symm.trans h
    have answered : accessReg .ctrl (.write v) s = (s.respond .ok).resetBlock :=
      congrArg (State.respond .ok) (writeCtrl_reset v s srst)
    rw [answered]
    exact resetBlock_hasResetValues _

end Sys2Proof.Machine
end

section
/-! PROOF. The host's accesses (spec/20_memory.md): the registers they reach (R40 to R43), the byte order of the hash registers
(R38), what an access can change and show (R36, R42, R43), acceptance and latching (R45, R46), held accesses (R47) and the
host's view of the block as doing one thing at a time (R48). -/

namespace Sys2Proof.Machine

variable {s t : State}

/-! ## Which register an access reaches -/

theorem regOffset_of_regAt (off : Offset) : off.toNat % 4 = 0 → ∀ r ∈ regAt off, regOffset r = off := by
  revert off
  decide

theorem regAt_of_unmapped (off : Offset) : off.toNat % 4 = 0 → off ∉ mappedOffsets → regAt off = none := by
  revert off
  decide

theorem regAt_of_mapped : ∀ off ∈ mappedOffsets, off.toNat % 4 = 0 ∧ regAt off ≠ none := by decide

theorem exists_reg_of_mapped {off : Offset} (mapped : off ∈ mappedOffsets) : ∃ r, regOffset r = off := by
  obtain ⟨aligned, found⟩ := regAt_of_mapped off mapped
  obtain ⟨r, hr⟩ := Option.ne_none_iff_exists'.1 found
  exact ⟨r, regOffset_of_regAt off aligned r hr⟩

/-- A supported access to a mapped offset is the access of a host program to that register. -/
theorem eq_regAccess {a : Access} {r : Reg} (wf : a.wellFormed = true) (hr : regAt a.off = some r) :
    a = regAccess r a.kind := by
  obtain ⟨kind, width, off⟩ := a
  obtain ⟨width_eq, aligned⟩ : width = 32 ∧ off.toNat % 4 = 0 := by
    simpa [Access.wellFormed, Access.wordWide, Access.aligned] using wf
  rw [regAccess, width_eq, regOffset_of_regAt off aligned r hr]

theorem busAccess_regAccess (r : Reg) (kind : AccessKind) (s : State) :
    busAccess (regAccess r kind) s = .next (accessReg r kind s) := busAccess_regOffset r kind s

section BusErrors

variable {a : Access}

theorem busAccess_of_width (wide : a.width ≠ 32) (s : State) : busAccess a s = .fault .busWidth :=
  if_pos (by simpa [Access.wordWide] using wide)

theorem busAccess_of_misaligned (wide : a.width = 32) (misaligned : a.off.toNat % 4 ≠ 0) (s : State) :
    busAccess a s = .fault .busMisaligned := by
  simp [busAccess, Access.wordWide, Access.aligned, wide, misaligned]

theorem busAccess_of_unmapped (wide : a.width = 32) (aligned : a.off.toNat % 4 = 0) (unmapped : a.off ∉ mappedOffsets)
    (s : State) : busAccess a s = .fault .busUnmapped := by
  simp [busAccess, Access.wordWide, Access.aligned, wide, aligned, regAt_of_unmapped a.off aligned unmapped]

theorem eq_regAccess_of_mapped (wide : a.width = 32) (mapped : a.off ∈ mappedOffsets) : ∃ r, a = regAccess r a.kind := by
  obtain ⟨r, hr⟩ := exists_reg_of_mapped mapped
  exact ⟨r, by rw [regAccess, hr, ← wide]⟩

/-- Whether an access is a bus error does not depend on the state (R40, R41). -/
theorem busAccess_cases (a : Access) :
    (∃ f, ∀ s, busAccess a s = .fault f) ∨ ∃ r kind, a = regAccess r kind := by
  by_cases wide : a.width = 32
  · by_cases aligned : a.off.toNat % 4 = 0
    · by_cases mapped : a.off ∈ mappedOffsets
      · obtain ⟨r, hr⟩ := eq_regAccess_of_mapped wide mapped
        exact .inr ⟨r, a.kind, hr⟩
      · exact .inl ⟨_, busAccess_of_unmapped wide aligned mapped⟩
    · exact .inl ⟨_, busAccess_of_misaligned wide aligned⟩
  · exact .inl ⟨_, busAccess_of_width wide⟩

end BusErrors

/-- An access that is answered is one to a register. -/
theorem busAccess_eq_next {a : Access} (h : busAccess a s = .next t) :
    ∃ r kind, a = regAccess r kind ∧ t = accessReg r kind s := by
  obtain ⟨f, hf⟩ | ⟨r, kind, rfl⟩ := busAccess_cases a
  · cases (hf s).symm.trans h
  · cases (busAccess_regAccess r kind s).symm.trans h
    exact ⟨r, kind, rfl, rfl⟩

/-- The two accesses a command in flight does not hold (R47). -/
theorem unheld_bus {a : Access} (h : unheld (.bus a) = true) :
    a = regAccess .status .read ∨ ∃ v, a = regAccess .ctrl (.write v) := by
  obtain ⟨wf, h⟩ := Bool.and_eq_true_iff.1 h
  split at h
  · rename_i hr hk
    exact .inl (hk ▸ eq_regAccess wf hr)
  · rename_i v hr hk
    exact .inr ⟨v, hk ▸ eq_regAccess wf hr⟩
  · cases h

theorem unheld_ctrl_write (v : Word) : unheld (.bus (regAccess .ctrl (.write v))) = true := by
  simp [unheld, regAccess, Access.wellFormed, Access.wordWide, Access.aligned, regAt_regOffset]

/-! ## The moves of a step -/

/-- With no command in flight the host's next input takes effect. -/
theorem step_of_no_command {i : Input} {rest : List Input} (idle : s.pend = none) (hi : s.inputs = i :: rest) :
    step s = takeEvent i.event (s.setInputs rest) := by
  simp [step, advance, idle, hi]

/-- An input that is not held takes effect at once (R47). -/
theorem step_of_overtakes {i : Input} {rest : List Input} (hi : s.inputs = i :: rest) (early : overtakes i = true) :
    step s = takeEvent i.event (s.setInputs rest) := by
  cases hp : s.pend with
  | none => exact step_of_no_command hp hi
  | some p => simp [step, advance, hp, hi, early]

/-- With nothing to do a step leaves the state as it is (R102). -/
theorem step_of_nothing_to_do (idle : s.pend = none) (hi : s.inputs = []) : step s = .next s := by
  simp [step, advance, idle, hi]

theorem runSteps_of_nothing_to_do (idle : s.pend = none) (hi : s.inputs = []) (k : Nat) : runSteps k s = .next s := by
  induction k with
  | zero => rfl
  | succ k ih => rw [runSteps, step_of_nothing_to_do idle hi, andThen_next, ih]

/-! ## Bus errors -/

/-- Settles O16: the three bus errors one by one, and a supported access to a mapped offset is one to a register. -/
theorem busErrorsAreExactlyTheUnsupportedAccesses : Obligations.BusErrorsAreExactlyTheUnsupportedAccesses := by
  rintro s a rest early ⟨-, idle⟩ hi
  rw [step_of_no_command idle hi]
  refine ⟨fun wide => busAccess_of_width wide _, fun wide misaligned => busAccess_of_misaligned wide misaligned _,
    fun wide aligned unmapped => busAccess_of_unmapped wide aligned unmapped _, fun wide mapped => ?_⟩
  obtain ⟨r, hr⟩ := eq_regAccess_of_mapped wide mapped
  rw [hr]
  exact ⟨_, busAccess_regAccess r a.kind _⟩

/-! ## What an access leaves unchanged -/

/-- Only CTRL reaches the three units, by a soft reset (R104). -/
theorem accessReg_sameUnits {r : Reg} (not_ctrl : r ≠ .ctrl) (kind : AccessKind) (s : State) :
    sameRc s (accessReg r kind s) ∧ sameSh s (accessReg r kind s) ∧ sameIx s (accessReg r kind s) := by
  cases kind with
  | read => exact ⟨⟨rfl, rfl, rfl⟩, ⟨rfl, rfl, rfl, rfl⟩, rfl, rfl, rfl, rfl⟩
  | write v =>
    cases r with
    | ctrl => exact absurd rfl not_ctrl
    | status => simp [sameRc, sameSh, sameIx, accessReg, writeReg]
    | _ => exact ⟨⟨rfl, rfl, rfl⟩, ⟨rfl, rfl, rfl, rfl⟩, rfl, rfl, rfl, rfl⟩

/-- An access to CTRL is a soft reset, or does nothing but answer the host (R33, R104). -/
theorem accessReg_ctrl_cases (kind : AccessKind) (s : State) :
    (accessReg .ctrl kind s = s.resetBlock.respond .ok ∧ ∃ v, kind = .write v ∧ v.getLsbD 0 = true) ∨
      ∃ x, accessReg .ctrl kind s = s.respond x := by
  cases kind with
  | read => exact .inr ⟨_, rfl⟩
  | write v =>
    cases hv : v.getLsbD 0 with
    | true => exact .inl ⟨congrArg (State.respond .ok) (writeCtrl_reset v s hv), v, rfl, hv⟩
    | false => exact .inr ⟨.ok, congrArg (State.respond .ok) (writeCtrl_ignored v s hv)⟩

/-- Only STATUS and CTRL reach the flags and the error (R32, R104). -/
theorem accessReg_sameFlags_sameError {r : Reg} (not_status : r ≠ .status) (not_ctrl : r ≠ .ctrl) (kind : AccessKind)
    (s : State) : sameFlags s (accessReg r kind s) ∧ sameError s (accessReg r kind s) := by
  cases kind with
  | read => exact ⟨⟨rfl, rfl, rfl, rfl⟩, rfl, rfl⟩
  | write v =>
    cases r with
    | ctrl => exact absurd rfl not_ctrl
    | status => exact absurd rfl not_status
    | _ => exact ⟨⟨rfl, rfl, rfl, rfl⟩, rfl, rfl⟩

/-- Only CMD and CTRL reach the command in flight (R43, R104). -/
theorem accessReg_busy_pend {r : Reg} (not_cmd : r ≠ .cmd) (not_ctrl : r ≠ .ctrl) (kind : AccessKind) (s : State) :
    (accessReg r kind s).busy = s.busy ∧ (accessReg r kind s).pend = s.pend := by
  cases kind with
  | read => exact ⟨rfl, rfl⟩
  | write v =>
    cases r with
    | cmd => exact absurd rfl not_cmd
    | ctrl => exact absurd rfl not_ctrl
    | status => simp [accessReg, writeReg]
    | _ => exact ⟨rfl, rfl⟩

/-- An operand register is changed only by a write to it and by a soft reset (R42, R104). -/
theorem accessReg_args {r : Reg} (not_ctrl : r ≠ .ctrl) (kind : AccessKind) (s : State) :
    (r ≠ .arg0 → (accessReg r kind s).arg0 = s.arg0) ∧ (r ≠ .arg1 → (accessReg r kind s).arg1 = s.arg1) ∧
      ((∀ k, r ≠ .hin k) → (accessReg r kind s).hin = s.hin) := by
  cases kind with
  | read => exact ⟨fun _ => rfl, fun _ => rfl, fun _ => rfl⟩
  | write v =>
    cases r with
    | ctrl => exact absurd rfl not_ctrl
    | arg0 => exact ⟨absurd rfl, fun _ => rfl, fun _ => rfl⟩
    | arg1 => exact ⟨fun _ => rfl, absurd rfl, fun _ => rfl⟩
    | hin k => exact ⟨fun _ => rfl, fun _ => rfl, fun other => absurd rfl (other k)⟩
    | status => simp [accessReg, writeReg]
    | _ => exact ⟨fun _ => rfl, fun _ => rfl, fun _ => rfl⟩

theorem accessReg_inputs (r : Reg) (kind : AccessKind) (s : State) : (accessReg r kind s).inputs = s.inputs := by
  cases kind with
  | read => rfl
  | write v =>
    cases r with
    | ctrl => exact (apply_ite State.inputs _ _ _).trans (ite_self _)
    | status => exact writeStatus_inputs v s
    | _ => rfl

/-- What a register reads does not depend on the answers the host has had. -/
theorem readReg_respond (r : Reg) (x : Response) (s : State) : readReg r (s.respond x) = readReg r s := by
  cases r <;> rfl

/-- Settles O17: a read only answers, and each part of the state is reached only through CMD, STATUS or CTRL. -/
theorem onlyThreeAccessesHaveSideEffects : Obligations.OnlyThreeAccessesHaveSideEffects := by
  intro s t a h
  obtain ⟨r, kind, rfl, rfl⟩ := busAccess_eq_next h
  refine ⟨fun read => ?_, fun off_cmd off_status off_ctrl => ?_⟩
  · cases (show kind = .read from read)
    refine ⟨readReg r s, rfl, ?_⟩
    rw [busAccess_regAccess, accessReg, accessReg, readReg_respond]
    rfl
  · have not_cmd : r ≠ .cmd := fun h => off_cmd (congrArg regOffset h)
    have not_status : r ≠ .status := fun h => off_status (congrArg regOffset h)
    have not_ctrl : r ≠ .ctrl := fun h => off_ctrl (congrArg regOffset h)
    obtain ⟨rc, sh, ix⟩ := accessReg_sameUnits not_ctrl kind s
    obtain ⟨flags, error⟩ := accessReg_sameFlags_sameError not_status not_ctrl kind s
    obtain ⟨busy, pend⟩ := accessReg_busy_pend not_cmd not_ctrl kind s
    exact ⟨rc, sh, ix, accessReg_sameResults not_ctrl kind s, flags, error, busy, pend, accessReg_inputs r kind s⟩

/-! ## The byte order of the hash registers (R38) -/

theorem hashWord_byte (h : Hash) (k : Fin 8) (j : Fin 4) :
    (hashWord h k).extractLsb' (24 - 8 * j.val) 8 = h[4 * k.val + j.val] := by
  match j with
  | 0 => exact wordOfBytes_byte3 ..
  | 1 => exact wordOfBytes_byte2 ..
  | 2 => exact wordOfBytes_byte1 ..
  | 3 => exact wordOfBytes_byte0 ..

theorem setHashWord_byte (h : Hash) (k : Fin 8) (v : Word) (j : Fin 4) :
    (setHashWord h k v)[4 * k.val + j.val] = v.extractLsb' (24 - 8 * j.val) 8 := by
  match j with
  | 0 | 1 | 2 | 3 => simp [setHashWord]

theorem setHashWord_other_byte (h : Hash) (k : Fin 8) (v : Word) (i : Fin 32) (other : i.val / 4 ≠ k.val) :
    (setHashWord h k v)[i.val] = h[i.val] := by
  have outside : 4 * k.val ≠ i.val ∧ 4 * k.val + 1 ≠ i.val ∧ 4 * k.val + 2 ≠ i.val ∧ 4 * k.val + 3 ≠ i.val := by
    omega
  simp [setHashWord, outside]

/-- A word of a hash by its four bytes. -/
theorem hashWord_ext {h : Hash} {k : Fin 8} {v : Word}
    (bytes : ∀ j : Fin 4, h[4 * k.val + j.val] = v.extractLsb' (24 - 8 * j.val) 8) : hashWord h k = v :=
  word_ext_bytes ((hashWord_byte h k 0).trans (bytes 0)) ((hashWord_byte h k 1).trans (bytes 1))
    ((hashWord_byte h k 2).trans (bytes 2)) ((hashWord_byte h k 3).trans (bytes 3))

theorem hashWord_setHashWord_same (h : Hash) (k : Fin 8) (v : Word) : hashWord (setHashWord h k v) k = v :=
  hashWord_ext (setHashWord_byte h k v)

theorem hashWord_setHashWord_other (h : Hash) {j k : Fin 8} (v : Word) (other : j ≠ k) :
    hashWord (setHashWord h k v) j = hashWord h j :=
  hashWord_ext fun b => by
    rw [hashWord_byte]
    exact setHashWord_other_byte h k v ⟨4 * j.val + b.val, by omega⟩ (by simp only; omega)

/-- Copying a word of `h` copies its bytes. -/
theorem setHashWord_hashWord_byte (g h : Hash) (k : Fin 8) (i : Fin 32) (inside : i.val / 4 = k.val) :
    (setHashWord g k (hashWord h k))[i.val] = h[i.val] := by
  obtain ⟨j, hj⟩ : ∃ j : Fin 4, i.val = 4 * k.val + j.val := ⟨⟨i.val % 4, by omega⟩, by simp only; omega⟩
  simp only [hj, setHashWord_byte, hashWord_byte]

/-- Copying some of the words of `h` over `g` takes the bytes of those words from `h`. -/
theorem copyWords_byte (h : Hash) (ks : List (Fin 8)) (g : Hash) (i : Fin 32)
    (copied : g[i.val] = h[i.val] ∨ ∃ k ∈ ks, i.val / 4 = k.val) :
    (ks.foldl (fun acc j => setHashWord acc j (hashWord h j)) g)[i.val] = h[i.val] := by
  induction ks generalizing g with
  | nil => exact copied.resolve_right (by simp)
  | cons k ks ih =>
    refine ih _ ?_
    by_cases inside : i.val / 4 = k.val
    · exact .inl (setHashWord_hashWord_byte g h k i inside)
    · refine copied.imp (setHashWord_other_byte g k _ i inside).trans fun ⟨k', hk', inside'⟩ => ?_
      rcases List.mem_cons.1 hk' with rfl | hk'
      · exact absurd inside' inside
      · exact ⟨k', hk', inside'⟩

theorem copyWords_eq (g h : Hash) :
    (List.finRange 8).foldl (fun acc j => setHashWord acc j (hashWord h j)) g = h :=
  Vector.ext fun i hi =>
    copyWords_byte h _ g ⟨i, hi⟩ (.inr ⟨⟨i / 4, by omega⟩, List.mem_finRange _, rfl⟩)

/-- Settles O18: the reads by the register map, the bytes by the two byte lemmas, the reload by copying word after word. -/
theorem hashRegistersAreBigEndian : Obligations.HashRegistersAreBigEndian := fun s h g k v =>
  ⟨reads_regOffset (.hin k) s, reads_regOffset (.digest k) s, reads_regOffset (.resHash k) s,
    busAccess_regOffset (.hin k) (.write v) s, hashWord_byte h k, setHashWord_byte h k v,
    setHashWord_other_byte h k v, copyWords_eq g h⟩

/-! ## Access rules of the mapped registers (R42) -/

/-- The registers a host may write (R31). -/
def hostWritable : Reg → Bool
  | .cmd | .status | .ctrl | .arg0 | .arg1 | .hin _ => true
  | _ => false

theorem writeReg_of_not_writable {r : Reg} (h : hostWritable r = false) (v : Word) (s : State) : writeReg r v s = s := by
  cases r with
  | cmd | status | ctrl | arg0 | arg1 | hin k => cases h
  | _ => rfl

theorem ignoresWrite_of_writeReg {r : Reg} {v : Word} (h : writeReg r v s = s) : ignoresWrite s (regOffset r) v := by
  refine (busAccess_regOffset r (.write v) s).trans ?_
  rw [accessReg, h]
  rfl

theorem statusWord_reserved (s : State) {k : Nat} (reserved : k = 6 ∨ k = 7 ∨ 16 ≤ k) :
    s.statusWord.getLsbD k = false := by
  rcases Nat.lt_or_ge k 32 with hk | hk
  · rw [getLsbD_statusWord_of_ge s (by omega) hk]
    rcases (by omega : k < 8 ∨ 8 ≤ k - 8) with low | high
    · simp [low]
    · simp [BitVec.getLsbD_of_ge s.err.code (k - 8) high]
  · exact BitVec.getLsbD_of_ge _ _ hk

theorem writeStatus_ignored (v : Word) (s : State) (h5 : v.getLsbD 5 = false) (h31 : v.getLsbD 31 = false) :
    s.writeStatus v = s := by
  simp only [State.writeStatus, h5, h31, Bool.false_eq_true, if_false]

/-- A register that stores what is written reads it back (R42). -/
theorem reads_after_write {r : Reg} {v : Word} (stores : readReg r (writeReg r v s) = v) :
    reads (accessReg r (.write v) s) (regOffset r) v := by
  have := reads_regOffset r ((writeReg r v s).respond .ok)
  rwa [readReg_respond, stores] at this

theorem hin_in_window (k : Fin 8) : 0x20 ≤ (regOffset (.hin k)).toNat ∧ (regOffset (.hin k)).toNat ≤ 0x3C := by
  revert k
  decide

theorem readReg_reset_hin (k : Fin 8) : readReg (.hin k) State.reset = 0 := by
  revert k
  decide

/-- Settles O14: read-only registers are the ones `writeReg` ignores, the other clauses are one register each. -/
theorem accessRulesOfMappedRegisters : Obligations.AccessRulesOfMappedRegisters := by
  intro s v
  refine ⟨fun off mapped read_only => ?_, reads_regOffset .cmd s, fun k => statusWord_reserved s, reads_regOffset .ctrl s,
    fun h5 h31 => ignoresWrite_of_writeReg (r := .status) (writeStatus_ignored v s h5 h31),
    fun h0 => ignoresWrite_of_writeReg (r := .ctrl) (writeCtrl_ignored v s h0),
    ⟨_, busAccess_regOffset .arg0 (.write v) s, reads_after_write (r := .arg0) rfl⟩,
    ⟨_, busAccess_regOffset .arg1 (.write v) s, reads_after_write (r := .arg1) rfl⟩,
    fun k => ⟨_, busAccess_regOffset (.hin k) (.write v) s,
      reads_after_write (r := .hin k) (hashWord_setHashWord_same s.hin k v),
      fun j hj => hashWord_setHashWord_other s.hin v hj⟩,
    fun i t h => (exec_port_args h).2, fun a t h => ?_, reads_regOffset .arg0 _, reads_regOffset .arg1 _, fun k => ?_⟩
  · obtain ⟨r, rfl⟩ := exists_reg_of_mapped mapped
    refine ignoresWrite_of_writeReg (writeReg_of_not_writable ?_ v s)
    cases r with
    | cmd | status | ctrl | arg0 | arg1 => exact absurd (by decide) read_only
    | hin k => revert k; decide
    | _ => rfl
  · obtain ⟨r, kind, rfl, rfl⟩ := busAccess_eq_next h
    have args (off_ctrl : (regAccess r kind).off ≠ 0x08) :=
      accessReg_args (r := r) (fun hr => off_ctrl (congrArg regOffset hr)) kind s
    refine ⟨fun hc other => (args hc).1 fun hr => other (congrArg regOffset hr),
      fun hc other => (args hc).2.1 fun hr => other (congrArg regOffset hr),
      fun hc other => (args hc).2.2 fun k hr => other ?_⟩
    rw [hr]
    exact hin_in_window k
  · have := reads_regOffset (.hin k) State.reset
    rwa [readReg_reset_hin] at this

/-! ## The tables and the message are off the bus (R36) -/

/-- The two states differ at most in HASHES, MAP and MSG. -/
def sameButTables (s u : State) : Prop := { u with hashes := s.hashes, map := s.map, msg := s.msg } = s

/-- No access carries a difference in the tables or the message anywhere else. -/
theorem accessReg_sameButTables {u : State} (r : Reg) (kind : AccessKind) (h : sameButTables s u) :
    sameButTables (accessReg r kind s) (accessReg r kind u) := by
  rw [← h]
  cases kind with
  | read => cases r <;> rfl
  | write v =>
    cases r with
    | status => simp only [sameButTables, accessReg, writeReg, writeStatus_eq]; rfl
    | ctrl =>
      cases hv : v.getLsbD 0 with
      | true => simp only [sameButTables, accessReg, writeReg, writeCtrl_reset _ _ hv]; rfl
      | false => simp only [sameButTables, accessReg, writeReg, writeCtrl_ignored _ _ hv]; rfl
    | _ => rfl

/-- Settles O38: only a soft reset reaches the tables or the message, and no register shows them. -/
theorem tablesAndMessageAreOffTheBus : Obligations.TablesAndMessageAreOffTheBus := by
  refine ⟨fun s t a h => ?_, fun s a hashes map msg => ?_⟩
  · obtain ⟨r, kind, rfl, rfl⟩ := busAccess_eq_next h
    by_cases hr : r = .ctrl
    · subst hr
      obtain ⟨-, reset⟩ | ⟨x, answered⟩ := accessReg_ctrl_cases kind s
      · exact .inr ⟨rfl, reset⟩
      · rw [answered]
        exact .inl ⟨rfl, rfl, rfl, rfl⟩
    · obtain ⟨-, ⟨msg_eq, -⟩, -, n_eq, hashes_eq, map_eq⟩ := accessReg_sameUnits hr kind s
      exact .inl ⟨hashes_eq, map_eq, n_eq, msg_eq⟩
  · have start : sameButTables s { s with hashes := hashes, map := map, msg := msg } := rfl
    obtain ⟨f, hf⟩ | ⟨r, kind, rfl⟩ := busAccess_cases a
    · simp [hf]
    · simp only [busAccess_regAccess]
      refine ⟨by simp, fun t ht => ?_⟩
      cases ht
      have same := accessReg_sameButTables r kind start
      have responses_eq := congrArg State.responses same
      exact ⟨_, rfl, responses_eq, same⟩

/-! ## The word of a command decodes to the command (R54, R58) -/

/-- A word whose opcode has a row and whose reserved bits are zero is a command. -/
theorem decode_cmdWord {op x y : Byte} {r : OpRow} (row : rowOf op = some r)
    (reserved : cmdWord op x y &&& r.mask = r.pattern) : decode (cmdWord op x y) = .command (r.command (cmdWord op x y)) := by
  rw [decode, fieldOp_cmdWord, row]
  exact if_pos reserved

open Laws.EncodedAsPrinted in
/-- The decoder gives every command back from its word, at every value of its operands (R54, R58). -/
theorem decode_encode (i : Instr) : decode (encode i) = .command i := by
  cases i with
  | rcFeed x | xfeed x | shFeed x => exact (decode_cmdWord rfl (masked _ x 0 _ (b1_outside x))).trans (by simp)
  | rcRoll out inc => exact (decode_cmdWord rfl (masked _ out inc _ (b1_b2_outside out inc))).trans (by simp)
  | ixSetbl flag | ixAppend flag | ixLookup flag | ixMatch flag => cases flag <;> decide
  | nop | rcClear | shStart | shFinal | ixClear | ixRead => decide

/-! ## Acceptance and completion (R45, R46) -/

/-- A command word in flight that nothing overtakes, with no error recorded, is executed and retires (R45, R55). -/
theorem step_of_command {p : Pending} {i : Instr} (hp : s.pend = some p) (held : s.nextHeld) (no_error : s.err = .noError)
    (hd : decode p.word = .command i) : ∃ u, exec i s = .next u ∧ step s = .next u.retire := by
  obtain ⟨u, hu⟩ := exec_completes i s
  have run : runWord p.word s = .next u := by simp [runWord, no_error, hd, hu]
  exact ⟨u, hu, by rw [step_of_nextHeld hp held, completeCommand, run, andThen_next]⟩

/-- Settles O5: retirement is BUSY falling and PEND becoming empty. -/
theorem stepRunsTheAcceptedCommand : Obligations.StepRunsTheAcceptedCommand := by
  intro s p i hp held no_error hd
  obtain ⟨u, hu, hs⟩ := step_of_command hp held no_error hd
  exact ⟨u.retire, u, hu, hs, rfl⟩

/-- Settles O6: the accepting step is the write to CMD, the next one runs the word, which decodes to its command. -/
theorem commandWriteIsAcceptedThenRun : Obligations.CommandWriteIsAcceptedThenRun := by
  rintro s i early rest ⟨-, idle⟩ no_error hi held
  have accepted : step s = .next (accessReg .cmd (.write (encode i)) (s.setInputs rest)) :=
    (step_of_no_command idle hi).trans (busAccess_regAccess .cmd ..)
  obtain ⟨u, hu, hs⟩ := step_of_command (s := accessReg .cmd (.write (encode i)) (s.setInputs rest)) rfl held no_error
    (decode_encode i)
  exact ⟨_, u, accepted, rfl, rfl, rfl, rfl, ⟨rfl, rfl, rfl⟩, ⟨rfl, rfl, rfl, rfl⟩, ⟨rfl, rfl, rfl, rfl⟩,
    ⟨rfl, rfl, rfl⟩, ⟨rfl, rfl, rfl⟩, ⟨rfl, rfl, rfl, rfl⟩, ⟨rfl, rfl⟩, hu, hs⟩

/-! ## The command in flight does not read the operand registers (R46) -/

/-- Changing what no command writes: the operand registers and the host's accesses still to come. -/
def State.mapHost (x y : Word → Word) (h : Hash → Hash) (l : List Input → List Input) (s : State) : State :=
  { s with arg0 := x s.arg0, arg1 := y s.arg1, hin := h s.hin, inputs := l s.inputs }

/-- A command takes the same operands from the host in both states. -/
def sameLatched (s u : State) : Prop :=
  u.latchedArg0 = s.latchedArg0 ∧ u.latchedArg1 = s.latchedArg1 ∧ u.latchedHin = s.latchedHin

section MapHost

variable (x y : Word → Word) (h : Hash → Hash) (l : List Input → List Input)

theorem sameLatched_mapHost {p : Pending} (hp : s.pend = some p) : sameLatched s (s.mapHost x y h l) := by
  simp [sameLatched, State.latchedArg0, State.latchedArg1, State.latchedHin, State.mapHost, hp]

theorem setLookup_mapHost (found : Option Word) (agrees : Word → Bool) (s : State) :
    (s.mapHost x y h l).setLookup found agrees = (s.setLookup found agrees).mapHost x y h l := by
  cases found <;> rfl

variable {x y h l}

theorem weakOperand_mapHost (same : sameLatched s (s.mapHost x y h l)) (src : Src) :
    (s.mapHost x y h l).weakOperand src = s.weakOperand src := by
  cases src with
  | rc => rfl
  | host => exact same.1

theorem hashOperand_mapHost (same : sameLatched s (s.mapHost x y h l)) (src : Src) :
    (s.mapHost x y h l).hashOperand src = s.hashOperand src := by
  cases src with
  | rc => rfl
  | host => exact same.2.2

theorem digestMissing_mapHost (src : Src) : (s.mapHost x y h l).digestMissing src = s.digestMissing src := by
  cases src <;> rfl

/-- A command that takes the same operands does the same, and leaves the operand registers and the host's accesses as they are
(R26, R46). -/
theorem exec_mapHost (same : sameLatched s (s.mapHost x y h l)) (i : Instr) :
    exec i (s.mapHost x y h l) = andThen (exec i s) (fun t => .next (t.mapHost x y h l)) := by
  have weak := weakOperand_mapHost same
  have hash := hashOperand_mapHost same
  obtain ⟨arg0, arg1, -⟩ := same
  cases i with
  | nop | rcClear | rcFeed | rcRoll | shStart | shFinal | ixClear => rfl
  | xfeed | shFeed =>
    simp only [exec, execXfeed, execShFeed, andThen_ite, andThen_next]
    rfl
  | ixSetbl chk =>
    simp only [exec, execIxSetbl, arg0, andThen_ite, andThen_next]
    rfl
  | ixAppend src =>
    simp only [exec, execIxAppend, weak, hash, digestMissing_mapHost, andThen_ite, andThen_next]
    rfl
  | ixLookup src =>
    simp only [exec, execIxLookup, weak, setLookup_mapHost, andThen_next]
    rfl
  | ixMatch src =>
    simp only [exec, execIxMatch, weak, hash, digestMissing_mapHost, setLookup_mapHost, andThen_ite, andThen_next]
    rfl
  | ixRead =>
    simp only [exec, execIxRead, arg1, andThen_ite, andThen_next]
    rfl

end MapHost

/-- Settles O7: acceptance latches; a latched command does not see the operand registers; and the accesses that can come before
its completion leave the units alone, but a soft reset. -/
theorem acceptedOperandsAreLatched : Obligations.AcceptedOperandsAreLatched := by
  refine ⟨fun s w => ⟨_, busAccess_regAccess .cmd (.write w) s, rfl, accessReg_sameUnits (r := .cmd) nofun _ s⟩,
    fun s p hp => ⟨fun i x y h => ?_, fun t i rest hi early ht => ?_⟩⟩
  · exact exec_mapHost (sameLatched_mapHost (fun _ => x) (fun _ => y) (fun _ => h) id hp) i
  · rw [step_of_overtakes hi early] at ht
    obtain ⟨-, rfl⟩ | ⟨a, r, event_eq, -, hr, rfl⟩ := takeEvent_cases ht
    · exact .inl rfl
    · have not_held : unheld i.event = true := (Bool.and_eq_true_iff.1 early).2
      obtain rfl | rfl := reg_of_unheld (event_eq ▸ not_held) hr
      · have pend_eq := (accessReg_busy_pend (r := .status) nofun nofun a.kind (s.setInputs rest)).2
        exact .inr ⟨pend_eq.trans hp, accessReg_sameUnits (r := .status) nofun a.kind (s.setInputs rest)⟩
      · obtain ⟨reset, -⟩ | ⟨x, answered⟩ := accessReg_ctrl_cases a.kind (s.setInputs rest)
        · rw [reset]
          exact .inl rfl
        · rw [answered]
          exact .inr ⟨hp, ⟨rfl, rfl, rfl⟩, ⟨rfl, rfl, rfl, rfl⟩, rfl, rfl, rfl, rfl⟩

/-! ## Held accesses (R47) -/

/-- Settles O8: the two exceptions take effect at once; any other access is behind the completion, which leaves the block idle. -/
theorem busyHoldsAllButTwoAccesses : Obligations.BusyHoldsAllButTwoAccesses := by
  intro s p i rest hp busy hi
  refine ⟨fun status_read => ⟨s.statusWord, ?_, rfl, ?_⟩, fun v ctrl_write => ?_, fun a event_eq held => ?_⟩
  · rw [getLsbD_statusWord s (by decide)]
    simp [busy]
  · subst status_read
    exact (step_of_overtakes hi (by decide)).trans (busAccess_regAccess .status .read _)
  · subst ctrl_write
    exact (step_of_overtakes hi (unheld_ctrl_write v)).trans (busAccess_regAccess .ctrl (.write v) _)
  · have not_early : overtakes i = false := by
      refine Bool.eq_false_iff.2 fun early => ?_
      obtain ⟨early, not_held⟩ := Bool.and_eq_true_iff.1 early
      obtain ⟨not_status, not_ctrl⟩ := held early
      obtain rfl | ⟨v, rfl⟩ := unheld_bus (event_eq ▸ not_held)
      · exact not_status rfl
      · exact not_ctrl v rfl
    obtain ⟨t, ht, idle, inputs_eq, responses_eq, -⟩ :=
      everyAcceptedWordRetires s p hp (by simp [State.nextHeld, hi, not_early])
    rw [hi] at inputs_eq
    refine ⟨t, ht, idle, inputs_eq, responses_eq, ?_⟩
    rw [step_of_no_command idle.2 inputs_eq, event_eq]
    rfl

/-! ## The block does one thing at a time (R48) -/

/-- A register access leaves the host's later accesses alone and does not depend on them. -/
theorem accessReg_setInputs (r : Reg) (kind : AccessKind) (l : List Input) (s : State) :
    accessReg r kind (s.setInputs l) = (accessReg r kind s).setInputs l := by
  cases kind with
  | read => cases r <;> rfl
  | write v =>
    cases r with
    | status => simp only [accessReg, writeReg, writeStatus_eq]; rfl
    | ctrl =>
      cases hv : v.getLsbD 0 with
      | true => simp only [accessReg, writeReg, writeCtrl_reset _ _ hv]; rfl
      | false => simp only [accessReg, writeReg, writeCtrl_ignored _ _ hv]; rfl
    | _ => rfl

theorem takeEvent_setInputs (e : Event) (l : List Input) (s : State) :
    takeEvent e (s.setInputs l) = andThen (takeEvent e s) (fun t => .next (t.setInputs l)) := by
  cases e with
  | resetLine => rfl
  | bus a =>
    obtain ⟨f, hf⟩ | ⟨r, kind, rfl⟩ := busAccess_cases a
    · simp only [takeEvent, hf, andThen]
    · simp only [takeEvent, busAccess_regAccess, andThen_next, accessReg_setInputs]

theorem exec_setInputs (i : Instr) (l : List Input) (s : State) :
    exec i (s.setInputs l) = andThen (exec i s) (fun t => .next (t.setInputs l)) :=
  exec_mapHost (x := id) (y := id) (h := id) (l := fun _ => l) ⟨rfl, rfl, rfl⟩ i

theorem runWord_setInputs (word : Word) (l : List Input) (s : State) :
    runWord word (s.setInputs l) = andThen (runWord word s) (fun t => .next (t.setInputs l)) := by
  simp only [runWord, setInputs_err, andThen_ite]
  cases decode word with
  | illegalOp | rsvdField => rfl
  | command i => simp only [exec_setInputs]; rfl

theorem completeCommand_setInputs (p : Pending) (l : List Input) (s : State) :
    completeCommand p (s.setInputs l) = andThen (completeCommand p s) (fun t => .next (t.setInputs l)) := by
  simp only [completeCommand, runWord_setInputs, andThen_assoc, andThen_next]
  rfl

/-- A block with no command in flight does its inputs, none of them early, one at a time: each takes at most two steps, one for
the access and one for the command it issues. -/
theorem runSteps_eq_runSequential (l : List Input) (in_turn : ∀ i ∈ l, i.early = false) (s : State) (idle : s.pend = none)
    (k : Nat) (enough : 2 * l.length ≤ k) :
    runSteps k (s.setInputs l) = runSequential (l.map Input.event) (s.setInputs []) := by
  induction l generalizing s k with
  | nil => exact runSteps_of_nothing_to_do (s := s.setInputs []) idle rfl k
  | cons i rest ih =>
    obtain ⟨-, rest_in_turn⟩ := List.forall_mem_cons.1 in_turn
    obtain ⟨k, rfl⟩ : ∃ j, k = j + 2 := ⟨k - 2, by simp only [List.length_cons] at enough; omega⟩
    have enough : 2 * rest.length ≤ k := by simp only [List.length_cons] at enough; omega
    have first : step (s.setInputs (i :: rest)) = takeEvent i.event (s.setInputs rest) := step_of_no_command idle rfl
    simp only [runSteps, List.map_cons, runSequential, atomically]
    rw [first, takeEvent_setInputs i.event rest, takeEvent_setInputs i.event []]
    cases takeEvent i.event s with
    | fault f | refused f => rfl
    | next t =>
      simp only [andThen_next]
      cases hp : t.pend with
      | none =>
        simp only [settle, setInputs_pend, hp, andThen_next]
        exact ih rest_in_turn t hp (k + 1) (by omega)
      | some p =>
        have held : (t.setInputs rest).nextHeld := fun j hj => by
          simp [overtakes, rest_in_turn j (List.mem_of_mem_head? hj)]
        rw [step_of_nextHeld (s := t.setInputs rest) hp held]
        simp only [settle, setInputs_pend, hp, completeCommand_setInputs]
        cases hu : completeCommand p t with
        | fault f | refused f => rfl
        | next u =>
          obtain ⟨v, -, retired⟩ := andThen_eq_next hu
          cases retired
          exact ih rest_in_turn _ rfl k enough

/-- Settles O10: two steps for each input are enough. -/
theorem accessesAreSequentiallyConsistent : Obligations.AccessesAreSequentiallyConsistent :=
  fun s ⟨_, idle⟩ in_turn => runSteps_eq_runSequential s.inputs in_turn s idle _ (Nat.le_refl _)

end Sys2Proof.Machine
end

section
/-! PROOF. The encoding of command words (spec/30_encoding.md): each command has one word (R54, R57), words decode in the order of
R55, the worked encodings (R60), the SRC bit (R53) and nop (R87). -/

namespace Sys2Proof.Machine

variable {s : State} {w : Word}

/-! ## Words that decode to a command (R54, R57) -/

/-- A byte that the mask covers in full is the byte of the match. -/
theorem byte_of_match {m p : Word} (k : Nat) (matched : w &&& m = p) (covered : m.extractLsb' k 8 = 0xFF) :
    w.extractLsb' k 8 = p.extractLsb' k 8 := by
  rw [← matched, BitVec.extractLsb'_and, covered]
  exact BitVec.and_allOnes.symm

theorem cmdWord_of_fields {op x y : Byte} (hop : fieldOp w = op) (hx : fieldB1 w = x) (hy : fieldB2 w = y)
    (hz : w.extractLsb' 0 8 = 0) : cmdWord op x y = w := by
  subst hop hx hy
  rw [cmdWord, ← hz]
  exact wordOfBytes_of_bytes w

/-- A row with no operand matches one word only. -/
theorem eq_of_match_noOperand {p : Word} (matched : w &&& 0xFFFFFFFF = p) : p = w := by
  rw [← matched]
  exact BitVec.and_allOnes

section Match

variable {m : Word} {op x y : Byte}

theorem fieldOp_of_match (matched : w &&& m = cmdWord op x y) (covered : fieldOp m = 0xFF) : fieldOp w = op :=
  (byte_of_match 24 matched covered).trans (fieldOp_cmdWord op x y)

theorem fieldB2_of_match (matched : w &&& m = cmdWord op x y) (covered : fieldB2 m = 0xFF) : fieldB2 w = y :=
  (byte_of_match 8 matched covered).trans (fieldB2_cmdWord op x y)

/-- A word that matches a row has Z = 0 (R52). -/
theorem fieldZ_of_match (matched : w &&& m = cmdWord op x y) (covered : m.extractLsb' 0 8 = 0xFF) :
    w.extractLsb' 0 8 = 0 :=
  (byte_of_match 0 matched covered).trans (wordOfBytes_byte0 op x y 0)

end Match

theorem cmdWord_of_match_b1 (op : Byte) (matched : w &&& 0xFF00FFFF = cmdWord op 0 0) :
    cmdWord op (fieldB1 w) 0 = w :=
  cmdWord_of_fields (fieldOp_of_match matched rfl) rfl (fieldB2_of_match matched rfl) (fieldZ_of_match matched rfl)

theorem cmdWord_of_match_b1_b2 (op : Byte) (matched : w &&& 0xFF0000FF = cmdWord op 0 0) :
    cmdWord op (fieldB1 w) (fieldB2 w) = w :=
  cmdWord_of_fields (fieldOp_of_match matched rfl) rfl rfl (fieldZ_of_match matched rfl)

/-- A byte with bits [7:1] zero is its bit 0 (R53). -/
theorem flagByte_of_reserved (x : Byte) : x &&& 0xFE = 0 → flagByte (x.getLsbD 0) = x := by revert x; decide

theorem cmdWord_of_match_flag (op : Byte) (matched : w &&& 0xFFFEFFFF = cmdWord op 0 0) :
    cmdWord op (flagByte (flagB1 w)) 0 = w := by
  have reserved : fieldB1 w &&& 0xFE = 0 :=
    calc fieldB1 w &&& 0xFE = fieldB1 (w &&& 0xFFFEFFFF) := by simp [fieldB1, BitVec.extractLsb'_and]
      _ = 0 := by rw [matched, fieldB1_cmdWord]
  exact cmdWord_of_fields (fieldOp_of_match matched rfl) (flagByte_of_reserved _ reserved).symm
    (fieldB2_of_match matched rfl) (fieldZ_of_match matched rfl)

@[simp] theorem bitOfSrc_srcOfBit (bit : Bool) : bitOfSrc (srcOfBit bit) = bit := by cases bit <;> rfl

theorem cmdWord_of_match_src (op : Byte) (matched : w &&& 0xFFFEFFFF = cmdWord op 0 0) :
    cmdWord op (flagByte (bitOfSrc (srcOfBit (flagB1 w)))) 0 = w := by
  rw [bitOfSrc_srcOfBit]
  exact cmdWord_of_match_flag op matched

/-- The word of the command a row gives is the word that matched the row (R54). -/
theorem encode_rowCommand (w : Word) : ∀ r ∈ opTable, w &&& r.mask = r.pattern → encode (r.command w) = w := by
  simp only [opTable, List.forall_mem_cons, List.not_mem_nil, false_imp_iff, implies_true, and_true]
  exact ⟨eq_of_match_noOperand, eq_of_match_noOperand, cmdWord_of_match_b1 0x02, cmdWord_of_match_b1_b2 0x03,
    cmdWord_of_match_b1 0x04, eq_of_match_noOperand, cmdWord_of_match_b1 0x11, eq_of_match_noOperand,
    eq_of_match_noOperand, cmdWord_of_match_flag 0x21, cmdWord_of_match_src 0x22, cmdWord_of_match_src 0x23,
    cmdWord_of_match_src 0x24, eq_of_match_noOperand⟩

/-- A word that decodes to a command matches a row, which gives the command (R55). -/
theorem decode_eq_command {i : Instr} (h : decode w = .command i) :
    ∃ r ∈ opTable, w &&& r.mask = r.pattern ∧ r.command w = i := by
  unfold decode at h
  cases row : rowOf (fieldOp w) with
  | none => rw [row] at h; cases h
  | some r =>
    rw [row, decodeRow] at h
    split at h
    · next matched => exact ⟨r, (rowOf_eq_some row).1, matched, Decoded.command.inj h⟩
    · cases h

theorem encode_of_decode {i : Instr} (h : decode w = .command i) : encode i = w := by
  obtain ⟨r, hr, matched, rfl⟩ := decode_eq_command h
  exact encode_rowCommand w r hr matched

/-- Settles O2: the round trip command by command, at every value of the operands. -/
theorem decodeOfEncodeIsTheCommand : Obligations.DecodeOfEncodeIsTheCommand :=
  fun i _ => decode_encode i

/-- Settles O3: a word that decodes to a command matches a row, and the match fixes every bit that is no operand. -/
theorem encodeOfDecodeIsTheWord : Obligations.EncodeOfDecodeIsTheWord :=
  fun _ _ => encode_of_decode

/-! ## The order of decoding (R55) -/

/-- Settles O11: no command faults or is refused. -/
theorem everyCommandCompletes : Obligations.EveryCommandCompletes := exec_completes

theorem opTable_opcodes : opTable.map (fun r => fieldOp r.pattern) = opcodes := rfl

theorem decode_of_unassigned (unassigned : fieldOp w ∉ opcodes) : decode w = .illegalOp := by
  have no_row : rowOf (fieldOp w) = none := List.find?_eq_none.2 fun r hr same => unassigned <| by
    rw [← opTable_opcodes, ← beq_iff_eq.1 same]
    exact List.mem_map_of_mem hr
  rw [decode, no_row, decodeRow]

/-- The decoder's row of an opcode is the row of the map as R54 prints it. -/
theorem rowOf_opcode : ∀ r ∈ opcodeMap, (rowOf (fieldOp r.1)).map (fun q => (q.pattern, q.mask)) = some r :=
  List.map_inj_left.1 (show opcodeMap.map _ = opcodeMap.map some from rfl)

/-- A word with the opcode of a row is a command if it matches the row, else RSVD_FIELD (R55). -/
theorem decode_of_opcode {r : Word × Word} (hr : r ∈ opcodeMap) (hop : fieldOp w = fieldOp r.1) :
    ∃ i, decode w = if w &&& r.2 = r.1 then .command i else .rsvdField := by
  obtain ⟨q, row, rfl⟩ := Option.map_eq_some_iff.1 (rowOf_opcode r hr)
  exact ⟨q.command w, by rw [decode, hop, row, decodeRow]⟩

theorem decode_of_reserved {r : Word × Word} (hr : r ∈ opcodeMap) (hop : fieldOp w = fieldOp r.1)
    (missed : w &&& r.2 ≠ r.1) : decode w = .rsvdField := by
  obtain ⟨i, hd⟩ := decode_of_opcode hr hop
  rw [hd, if_neg missed]

theorem decode_of_match {r : Word × Word} (hr : r ∈ opcodeMap) (matched : w &&& r.2 = r.1) :
    ∃ i, decode w = .command i := by
  obtain ⟨i, hd⟩ := decode_of_opcode hr (fieldOp_of_row r hr matched)
  exact ⟨i, by rw [hd, if_pos matched]⟩

/-- Raising an error is the error entry of R92. -/
theorem errorEntry_raiseError (code : ErrCode) (word : Word) (s : State) :
    errorEntry code word s (s.raiseError code word) :=
  ⟨rfl, rfl, ⟨rfl, rfl, rfl⟩, ⟨rfl, rfl, rfl, rfl⟩, ⟨rfl, rfl, rfl, rfl⟩, ⟨rfl, rfl, rfl⟩, ⟨rfl, rfl, rfl⟩,
    ⟨rfl, rfl, rfl, rfl⟩, ⟨rfl, rfl, rfl, rfl⟩⟩

section RunWord

variable (no_error : s.err = .noError)
include no_error

theorem runWord_of_illegalOp (hd : decode w = .illegalOp) :
    ∃ t, runWord w s = .next t ∧ errorEntry .illegalOp w s t :=
  ⟨_, by simp [runWord, no_error, hd], errorEntry_raiseError ..⟩

theorem runWord_of_rsvdField (hd : decode w = .rsvdField) :
    ∃ t, runWord w s = .next t ∧ errorEntry .rsvdField w s t :=
  ⟨_, by simp [runWord, no_error, hd], errorEntry_raiseError ..⟩

theorem runWord_of_command {i : Instr} (hd : decode w = .command i) : runWord w s = exec i s := by
  simp [runWord, no_error, hd]

end RunWord

/-- Settles O4: each of the first three clauses fixes what the word decodes to; the last is the test of ERR before decoding. -/
theorem wordsDecodeInTheOrderOfTheMap : Obligations.WordsDecodeInTheOrderOfTheMap := by
  refine fun w s => ⟨fun unassigned no_error => ?_, fun r hr hop missed no_error => ?_,
    fun r hr matched no_error => ?_, fun error => if_pos error⟩
  · exact runWord_of_illegalOp no_error (decode_of_unassigned unassigned)
  · exact runWord_of_rsvdField no_error (decode_of_reserved hr hop missed)
  · obtain ⟨i, hd⟩ := decode_of_match hr matched
    obtain ⟨t, ht⟩ := exec_completes i s
    exact ⟨i, t, encode_of_decode hd, runWord_of_command no_error hd, ht⟩

/-- Settles O1: the four words by evaluation of the encoder, and back by the round trip; the three errors by what their words
decode to. -/
theorem workedEncodings : Obligations.WorkedEncodings :=
  ⟨by decide, decode_encode (.rcFeed 0x61), by decide, decode_encode (.rcRoll 0x61 0x64), by decide,
    decode_encode (.ixSetbl true), by decide, decode_encode (.ixMatch .host), fun _ no_error =>
    ⟨runWord_of_rsvdField no_error (by decide), runWord_of_rsvdField no_error (by decide),
      runWord_of_illegalOp no_error (by decide)⟩⟩

/-- Settles O40: the row of nop has no operand, so any other bit is a reserved one. -/
theorem nopDoesNothing : Obligations.NopDoesNothing := by
  refine fun s no_error => ⟨by decide, rfl, fun w hop nonzero => runWord_of_rsvdField no_error ?_⟩
  have nop_row : ((0x00000000, 0xFFFFFFFF) : Word × Word) ∈ opcodeMap := by decide
  exact decode_of_reserved nop_row (hop.trans (by decide)) fun matched => nonzero (eq_of_match_noOperand matched).symm

/-! ## The SRC bit (R53) -/

/-- A command of the IX unit with source `src` does not see the change `f`: it takes the same operands from the changed state and
finds the same tables there, and what it then does passes through `f`. -/
structure Unseen (src : Src) (f : State → State) : Prop where
  weakOperand (s : State) : (f s).weakOperand src = s.weakOperand src
  hashOperand (s : State) : (f s).hashOperand src = s.hashOperand src
  digestMissing (s : State) : (f s).digestMissing src = s.digestMissing src
  n (s : State) : (f s).n = s.n
  map (s : State) : (f s).map = s.map
  hashAt (s : State) (id : Word) : (f s).hashAt id = s.hashAt id
  raiseError (code : ErrCode) (word : Word) (s : State) : (f s).raiseError code word = f (s.raiseError code word)
  appendBlock (w : Word) (h : Hash) (s : State) : (f s).appendBlock w h = f (s.appendBlock w h)
  setLookup (found : Option Word) (agrees : Word → Bool) (s : State) :
    (f s).setLookup found agrees = f (s.setLookup found agrees)

section Unseen

variable {src : Src} {f : State → State}

theorem execIxAppend_of_unseen (hf : Unseen src f) (s : State) :
    execIxAppend src (f s) = andThen (execIxAppend src s) (fun t => .next (f t)) := by
  simp only [execIxAppend, hf.digestMissing, hf.n, hf.weakOperand, hf.hashOperand, hf.raiseError, hf.appendBlock,
    andThen_ite, andThen_next]

theorem execIxLookup_of_unseen (hf : Unseen src f) (s : State) :
    execIxLookup src (f s) = andThen (execIxLookup src s) (fun t => .next (f t)) := by
  simp only [execIxLookup, hf.weakOperand, hf.map, hf.setLookup, andThen_next]

theorem execIxMatch_of_unseen (hf : Unseen src f) (s : State) :
    execIxMatch src (f s) = andThen (execIxMatch src s) (fun t => .next (f t)) := by
  simp only [execIxMatch, hf.digestMissing, hf.weakOperand, hf.hashOperand, hf.map, hf.hashAt, hf.raiseError,
    hf.setLookup, andThen_ite, andThen_next]

/-- The three commands that have a SRC bit (R53). -/
theorem exec_of_unseen (hf : Unseen src f) {i : Src → Instr}
    (has_src : i = .ixAppend ∨ i = .ixLookup ∨ i = .ixMatch) (s : State) :
    exec (i src) (f s) = andThen (exec (i src) s) (fun t => .next (f t)) := by
  rcases has_src with rfl | rfl | rfl
  · exact execIxAppend_of_unseen hf s
  · exact execIxLookup_of_unseen hf s
  · exact execIxMatch_of_unseen hf s

end Unseen

/-- Changing what the host supplies: ARG0 and HIN, and what is latched of them. -/
def State.withHostOperands (x : Word) (h : Hash) (latched : Option Pending → Option Pending) (s : State) : State :=
  { s with arg0 := x, hin := h, pend := latched s.pend }

/-- Changing what the RC and SH units supply. -/
def State.withUnitOperands (a b : Half) (d : Hash) (valid : Bool) (s : State) : State :=
  { s with a := a, b := b, digest := d, shValid := valid }

theorem unseen_withHostOperands (x : Word) (h : Hash) (latched : Option Pending → Option Pending) :
    Unseen .rc (State.withHostOperands x h latched) where
  weakOperand _ := rfl
  hashOperand _ := rfl
  digestMissing _ := rfl
  n _ := rfl
  map _ := rfl
  hashAt _ _ := rfl
  raiseError _ _ _ := rfl
  appendBlock _ _ _ := rfl
  setLookup found _ _ := by cases found <;> rfl

theorem unseen_withUnitOperands (a b : Half) (d : Hash) (valid : Bool) :
    Unseen .host (State.withUnitOperands a b d valid) where
  weakOperand _ := rfl
  hashOperand _ := rfl
  digestMissing _ := rfl
  n _ := rfl
  map _ := rfl
  hashAt _ _ := rfl
  raiseError _ _ _ := rfl
  appendBlock _ _ _ := rfl
  setLookup found _ _ := by cases found <;> rfl

/-- Settles O39: the host's operands are unseen with SRC = 0, latched or not, and those of the units with SRC = 1. -/
theorem sourceBitSelectsTheOperands : Obligations.SourceBitSelectsTheOperands := by
  refine fun s x y g h d a b valid i has_src => ⟨fun p _ => ?_, fun _ => ?_, ?_⟩
  · exact exec_of_unseen (unseen_withHostOperands x h fun _ => some { p with arg0 := y, hin := g }) has_src s
  · exact exec_of_unseen (unseen_withHostOperands x h id) has_src s
  · exact exec_of_unseen (unseen_withUnitOperands a b d valid) has_src s

end Sys2Proof.Machine
end

section
/-! PROOF. The commands of the RC unit (spec/40_rolling_checksum.md): what rc.clear, rc.feed, rc.roll and xfeed do in numbers
(R62 to R65), that they keep the checksum of a window that grows or slides (R67), and programs that feed a window byte by byte
(R66). -/

namespace Sys2Proof.Machine

variable {s t : State}

/-! ## The operations of the RC unit -/

/-- The printed form of a command word: the opcode and two byte operands at their bits (R58). -/
theorem cmdWord_eq (op x y : Byte) :
    cmdWord op x y = op.setWidth 32 <<< 24 ||| x.setWidth 32 <<< 16 ||| y.setWidth 32 <<< 8 := BitVec.or_zero

/-- The printed form of a command word with one byte operand (R58). -/
theorem cmdWord_b1_eq (op x : Byte) : cmdWord op x 0 = op.setWidth 32 <<< 24 ||| x.setWidth 32 <<< 16 :=
  (cmdWord_eq op x 0).trans BitVec.or_zero

theorem triple_eq_iff {a b count : Half} : s.triple = (a, b, count) ↔ s.a = a ∧ s.b = b ∧ s.count = count := by
  simp only [State.triple, Prod.mk.injEq]

theorem sum_of_triple {a b count : Half} (h : s.triple = (a, b, count)) : s.sum = sumOf a b := by
  obtain ⟨ha, hb, -⟩ := triple_eq_iff.1 h
  rw [State.sum, ha, hb]

theorem sumOf_zero : sumOf 0 0 = 0 := by decide

theorem onlyRc_setRc (a b count : Half) (s : State) : onlyRc s (s.setRc a b count) :=
  ⟨⟨rfl, rfl, rfl, rfl⟩, ⟨rfl, rfl, rfl, rfl⟩, ⟨rfl, rfl, rfl⟩, ⟨rfl, rfl, rfl⟩, ⟨rfl, rfl, rfl, rfl⟩, ⟨rfl, rfl⟩,
    ⟨rfl, rfl, rfl, rfl⟩⟩

theorem onlyRc_feedRc (x : Byte) (s : State) : onlyRc s (s.feedRc x) := onlyRc_setRc ..

theorem onlyRc_rollRc (out inc : Byte) (s : State) : onlyRc s (s.rollRc out inc) := onlyRc_setRc ..

theorem exec_xfeed_of_full (full : s.shLen = 0xFFFFFFFF) (x : Byte) :
    exec (.xfeed x) s = .next (s.raiseError .shOverflow (encode (.xfeed x))) := if_pos (beq_iff_eq.2 full)

theorem exec_xfeed_of_room (room : s.shLen ≠ 0xFFFFFFFF) (x : Byte) :
    exec (.xfeed x) s = .next ((s.feedRc x).feedSh x) := if_neg (mt beq_iff_eq.1 room)

/-- SH_LEN does not wrap when a message below its limit gains a byte (R71). -/
theorem toNat_feedSh_shLen (room : s.shLen ≠ 0xFFFFFFFF) (x : Byte) : (s.feedSh x).shLen.toNat = s.shLen.toNat + 1 := by
  rw [feedSh_shLen]
  bv_omega

/-! ## In numbers modulo 2^16 -/

@[simp] theorem toNat_zext16 (x : Byte) : (zext16 x).toNat = x.toNat :=
  BitVec.toNat_setWidth_of_le (by decide)

theorem toNat_feedRc_a (x : Byte) (s : State) : (s.feedRc x).a.toNat = (s.a.toNat + x.toNat) % 65536 := by
  rw [feedRc_a, BitVec.toNat_add, toNat_zext16]

theorem toNat_feedRc_b (x : Byte) (s : State) :
    (s.feedRc x).b.toNat = (s.b.toNat + (s.feedRc x).a.toNat) % 65536 := BitVec.toNat_add ..

theorem toNat_feedRc_count (x : Byte) (s : State) : (s.feedRc x).count.toNat = (s.count.toNat + 1) % 65536 :=
  BitVec.toNat_add ..

theorem toNat_rollRc_a (out inc : Byte) (s : State) :
    ((s.rollRc out inc).a.toNat : Int) = ((s.a.toNat : Int) - out.toNat + inc.toNat) % 65536 := by
  rw [rollRc_a, BitVec.toNat_add, BitVec.toNat_sub, toNat_zext16, toNat_zext16]
  omega

theorem toNat_rollRc_b (out inc : Byte) (s : State) :
    ((s.rollRc out inc).b.toNat : Int) =
      ((s.b.toNat : Int) - s.count.toNat * out.toNat + (s.rollRc out inc).a.toNat) % 65536 := by
  rw [rollRc_b, ← rollRc_a, BitVec.toNat_add, BitVec.toNat_sub, BitVec.toNat_mul, toNat_zext16, ← Nat.cast_mul]
  omega

/-! ## The checksum of a window that grows or slides -/

theorem zext16_eq_natCast (x : Byte) : zext16 x = (x.toNat : Half) := (BitVec.ofNat_toNat 16 x).symm

theorem weakTriple_eq_natCast (window : List Byte) :
    weakTriple window = ((byteSum window : Half), (weightedSum window : Half), (window.length : Half)) := rfl

theorem byteSum_append_byte (xs : List Byte) (x : Byte) : byteSum (xs ++ [x]) = byteSum xs + x.toNat :=
  byteSum_append xs [x]

/-- Feeding a byte extends the window at its back (R63). -/
theorem feedRc_triple {window : List Byte} (h : s.triple = weakTriple window) (x : Byte) :
    (s.feedRc x).triple = weakTriple (window ++ [x]) := by
  obtain ⟨ha, hb, hcount⟩ := triple_eq_iff.1 (h.trans (weakTriple_eq_natCast window))
  have new_a : (s.feedRc x).a = (byteSum (window ++ [x]) : Half) := by
    rw [feedRc_a, ha, zext16_eq_natCast, byteSum_append_byte, Nat.cast_add]
  refine triple_eq_iff.2 ⟨new_a, ?_, ?_⟩
  · rw [feedRc_b, ← feedRc_a, new_a, hb, ← Nat.cast_add, ← weightedSum_append_byte]
    rfl
  · rw [feedRc_count, hcount, List.length_append]
    exact (Nat.cast_succ _).symm

/-- Rolling by the first byte of the window slides the window by one byte (R67): in B that byte has the length of the window for
its weight, which is COUNT. -/
theorem rollRc_triple {first : Byte} {rest : List Byte} (h : s.triple = weakTriple (first :: rest)) (x : Byte) :
    (s.rollRc first x).triple = weakTriple (rest ++ [x]) := by
  obtain ⟨ha, hb, hcount⟩ := triple_eq_iff.1 (h.trans (weakTriple_eq_natCast _))
  have new_a : (s.rollRc first x).a = (byteSum (rest ++ [x]) : Half) := by
    rw [rollRc_a, ha, byteSum, Nat.cast_add, zext16_eq_natCast, zext16_eq_natCast, add_sub_cancel_left,
      byteSum_append_byte, Nat.cast_add]
  have first_gone : s.b - s.count * zext16 first = (weightedSum rest : Half) := by
    rw [hb, hcount, zext16_eq_natCast, weightedSum, List.length_cons, Nat.cast_add, Nat.cast_mul, add_sub_cancel_left]
  refine triple_eq_iff.2 ⟨new_a, ?_, ?_⟩
  · rw [rollRc_b, ← rollRc_a, new_a, first_gone, ← Nat.cast_add, ← weightedSum_append_byte]
    rfl
  · rw [rollRc_count, hcount, List.length_append]
    rfl

/-! The windows of the examples of R64: `abc`, `bca` and `bcd`. -/

theorem weakTriple_abc : weakTriple [0x61, 0x62, 0x63] = (0x0126, 0x024A, 3) := by decide

theorem weakTriple_bca : weakTriple [0x62, 0x63, 0x61] = (0x0126, 0x024D, 3) := by decide

theorem weakTriple_bcd : weakTriple [0x62, 0x63, 0x64] = (0x0129, 0x0250, 3) := by decide

/-- Settles O21: the two sums as integers modulo 2^16, the corner cases by the ring laws of the halves, and a window that
slides by `rollRc_triple`. -/
theorem rcRollSlidesTheWindow : Obligations.RcRollSlidesTheWindow := by
  refine fun out inc s _ => ⟨cmdWord_eq .., _, rfl, toNat_rollRc_a .., toNat_rollRc_b .., rfl, onlyRc_rollRc .., ?_, ?_,
    ?_, ?_, ?_, ?_, weakTriple_abc, weakTriple_bca, weakTriple_bcd⟩
  · intro h
    rw [rollRc_b, h, ← rollRc_a, zero_mul, sub_zero]
  · rintro rfl
    rw [rollRc_b, rollRc_a, sub_add_cancel]
    exact ⟨rfl, rfl⟩
  · rintro x xs h rfl rfl
    exact rollRc_triple h _
  · rintro h rfl rfl
    obtain ⟨ha, hb, hcount⟩ := triple_eq_iff.1 h
    refine triple_eq_iff.2 ⟨?_, ?_, hcount⟩
    · rw [rollRc_a, ha]; rfl
    · rw [rollRc_b, ha, hb, hcount]; rfl
  · rintro h rfl rfl
    exact (rollRc_triple (h.trans weakTriple_abc.symm) 0x61).trans weakTriple_bca
  · rintro h rfl rfl
    have rolled : (s.rollRc 0x61 0x64).triple = (0x0129, 0x0250, 3) :=
      (rollRc_triple (h.trans weakTriple_abc.symm) 0x64).trans weakTriple_bcd
    exact ⟨rolled, sum_of_triple rolled⟩

/-- Settles O25: sliding the window. -/
theorem rollEqualsRecompute : Obligations.RollEqualsRecompute :=
  fun _ x _ _ _ h => ⟨_, rfl, rollRc_triple h x⟩

/-- Settles O19: the word is a constant; the operation writes zeros to the unit and nothing else. -/
theorem rcClearGivesTheEmptyWindow : Obligations.RcClearGivesTheEmptyWindow := by
  refine fun s _ => ⟨by decide, _, rfl, rfl, sumOf_zero, onlyRc_setRc .., fun clear => ?_⟩
  obtain ⟨ha, hb, hcount⟩ := triple_eq_iff.1 clear
  have rewritten : s.setRc s.a s.b s.count = s := rfl
  rwa [ha, hb, hcount] at rewritten

/-- Settles O20: the three sums in numbers; the example is the window `a`, fed to the empty one. -/
theorem rcFeedAppendsAByte : Obligations.RcFeedAppendsAByte := by
  refine fun x s _ => ⟨cmdWord_b1_eq .., _, rfl, toNat_feedRc_a .., toNat_feedRc_b .., toNat_feedRc_count ..,
    onlyRc_feedRc .., ?_, ?_⟩
  · rintro rfl
    have unchanged : s.a + zext16 0 = s.a := BitVec.add_zero _
    rw [feedRc_a, feedRc_b, unchanged]
    exact ⟨rfl, rfl⟩
  · rintro empty rfl
    have fed : (s.feedRc 0x61).triple = (0x0061, 0x0061, 1) := (feedRc_triple (window := []) empty 0x61).trans (by decide)
    exact ⟨fed, sum_of_triple fed⟩

/-- Settles O22: at the limit of the message an error entry; below it the RC unit is as after rc.feed and the SH unit as after
sh.feed. -/
theorem xfeedFeedsBothUnits : Obligations.XfeedFeedsBothUnits := by
  refine fun x s _ => ⟨cmdWord_b1_eq .., fun full => ⟨_, exec_xfeed_of_full full x, errorEntry_raiseError ..⟩,
    fun room => ⟨_, exec_xfeed_of_room room x, toNat_feedRc_a x s, toNat_feedRc_b x s, toNat_feedRc_count x s, rfl,
      toNat_feedSh_shLen (s := s.feedRc x) room x, rfl, rfl, ?_⟩⟩
  obtain ⟨-, ix, args, results, flags, error, port⟩ := onlyRc_feedRc x s
  refine ⟨ix, args, results, flags, error, port, ?_⟩
  rintro empty no_message rfl
  refine ⟨(feedRc_triple (window := []) empty 0x41).trans (by decide), ?_, rfl⟩
  rw [feedSh_shLen, feedRc_shLen, no_message]; rfl

/-! ## Feeding a window byte by byte -/

theorem atomically_command (i : Instr) (no_error : s.err = .noError) :
    atomically (AsmLine.command i).event s =
      andThen (exec i ((s.accept (encode i)).respond .ok)) (fun t => .next t.retire) :=
  atomically_word_of_decode s (decode_encode i) no_error

/-- A program with one command for each byte of a window: what each command keeps, for the bytes before it and its own, holds of
the whole window after the program. -/
theorem runLines_window {c : Byte → Instr} {P : List Byte → State → Prop} (start : P [] s) (window : List Byte)
    (each : ∀ before x t, before ++ [x] <+: window → P before t →
      ∃ u, atomically (AsmLine.command (c x)).event t = .next u ∧ P (before ++ [x]) u) :
    ∃ t, runLines (window.map fun x => .command (c x)) s = .next t ∧ P window t := by
  induction window using List.reverseRecOn with
  | nil => exact ⟨s, rfl, start⟩
  | append_singleton xs x ih =>
    obtain ⟨t, ht, held⟩ := ih fun before y u inside => each before y u (inside.trans (List.prefix_append xs [x]))
    obtain ⟨u, hu, holds⟩ := each xs x t List.prefix_rfl held
    refine ⟨u, ?_, holds⟩
    rw [List.map_append, runLines_append, ht, andThen_next, List.map_singleton, runLines_cons, hu, andThen_next,
      runLines_nil]

/-- From `s`, rc.clear and then a window, fed by rc.feed or xfeed, gave `t`: the RC unit holds the checksum of the window, and the
parts neither command touches are as they were in `s`. -/
structure Fed (s : State) (window : List Byte) (t : State) : Prop where
  triple : t.triple = weakTriple window
  no_error : t.err = .noError
  ix : sameIx s t
  args : sameArgs s t
  results : sameResults s t
  flags : sameFlags s t
  idle : t.idle

/-- The window was fed by rc.feed, which leaves the SH unit alone. -/
structure FedRc (s : State) (window : List Byte) (t : State) : Prop extends Fed s window t where
  sh : sameSh s t

/-- The window was fed by xfeed, which extends the message by it. -/
structure FedBoth (s : State) (window : List Byte) (t : State) : Prop extends Fed s window t where
  msg : t.msg = s.msg ++ window
  shLen : t.shLen.toNat = s.shLen.toNat + window.length

/-- The state a line `rc.clear` leaves. -/
def State.afterClear (s : State) : State := (((s.accept (encode .rcClear)).respond .ok).setRc 0 0 0).retire

theorem runLines_rcClear (no_error : s.err = .noError) (ls : List AsmLine) :
    runLines (.command .rcClear :: ls) s = runLines ls s.afterClear := by
  rw [runLines_cons, atomically_command .rcClear no_error]
  rfl

theorem fed_afterClear (no_error : s.err = .noError) : Fed s [] s.afterClear where
  triple := rfl
  no_error := no_error
  ix := ⟨rfl, rfl, rfl, rfl⟩
  args := ⟨rfl, rfl, rfl⟩
  results := ⟨rfl, rfl, rfl⟩
  flags := ⟨rfl, rfl, rfl, rfl⟩
  idle := ⟨rfl, rfl⟩

theorem FedRc.rcFeed {before : List Byte} (h : FedRc s before t) (x : Byte) :
    ∃ u, atomically (AsmLine.command (.rcFeed x)).event t = .next u ∧ FedRc s (before ++ [x]) u :=
  ⟨_, atomically_command (.rcFeed x) h.no_error, { h with triple := feedRc_triple h.triple x, idle := ⟨rfl, rfl⟩ }⟩

/-- The message has room for a byte while what was fed with it stays below 2^32 bytes (R66, R71). -/
theorem FedBoth.xfeed {before : List Byte} (h : FedBoth s before t) {x : Byte}
    (room : s.shLen.toNat + (before ++ [x]).length < 2 ^ 32) :
    ∃ u, atomically (AsmLine.command (.xfeed x)).event t = .next u ∧ FedBoth s (before ++ [x]) u := by
  have len := h.shLen
  rw [List.length_append, List.length_singleton] at room
  have below_limit : t.shLen ≠ 0xFFFFFFFF := by bv_omega
  have line : atomically (AsmLine.command (.xfeed x)).event t = _ := atomically_command (.xfeed x) h.no_error
  rw [exec_xfeed_of_room (s := (t.accept _).respond .ok) below_limit] at line
  refine ⟨_, line, { h with triple := feedRc_triple h.triple x, idle := ⟨rfl, rfl⟩, msg := ?_, shLen := ?_ }⟩
  · rw [← List.append_assoc, ← h.msg]
    rfl
  · rw [List.length_append, List.length_singleton, ← Nat.add_assoc, ← len]
    exact toNat_feedSh_shLen below_limit x

/-- Settles O24: rc.clear gives the checksum of the empty window, and each line after it that of one byte more. -/
theorem initByFeedingGivesTheWindowChecksum : Obligations.InitByFeedingGivesTheWindowChecksum := by
  refine fun window s _ no_error => ⟨?_, fun bound => ?_⟩
  · have start : FedRc s [] s.afterClear := ⟨fed_afterClear no_error, rfl, rfl, rfl, rfl⟩
    obtain ⟨t, ht, fed⟩ := runLines_window start window fun _ x _ _ h => h.rcFeed x
    exact ⟨t, (runLines_rcClear no_error _).trans ht, fed.triple, fed.no_error, fed.sh, fed.ix, fed.args, fed.results,
      fed.flags, fed.idle⟩
  · have start : FedBoth s [] s.afterClear := ⟨fed_afterClear no_error, (List.append_nil _).symm, rfl⟩
    obtain ⟨t, ht, fed⟩ := runLines_window start window fun _ _ _ inside h =>
      h.xfeed ((Nat.add_le_add_left inside.length_le _).trans_lt bound)
    exact ⟨t, (runLines_rcClear no_error _).trans ht, fed.triple, fed.no_error, fed.msg, fed.ix, fed.args, fed.results,
      fed.flags, fed.idle⟩

end Sys2Proof.Machine
end

section
/-! PROOF. The commands of the SH unit (spec/41_strong_hash.md): what sh.start, sh.feed and sh.final do (R70 to R72), the digest
of a window fed byte by byte (R73), and the strong comparison of ix.match (R75, R80). -/

namespace Sys2Proof.Machine

variable {s t : State}

/-! ## The operations of the SH unit -/

theorem onlySh_update (msg : List Byte) (shLen : Word) (digest : Hash) (shValid : Bool) (s : State) :
    onlySh s { s with msg := msg, shLen := shLen, digest := digest, shValid := shValid } :=
  ⟨⟨rfl, rfl, rfl⟩, ⟨rfl, rfl, rfl, rfl⟩, ⟨rfl, rfl, rfl⟩, ⟨rfl, rfl, rfl⟩, ⟨rfl, rfl, rfl, rfl⟩, ⟨rfl, rfl⟩,
    ⟨rfl, rfl, rfl, rfl⟩⟩

theorem onlySh_startSh (s : State) : onlySh s s.startSh := onlySh_update ..

theorem onlySh_feedSh (x : Byte) (s : State) : onlySh s (s.feedSh x) := onlySh_update ..

theorem onlySh_finalSh (s : State) : onlySh s s.finalSh := onlySh_update ..

/-- sh.final leaves the message in place, so the same digest comes again (R72). -/
theorem finalSh_finalSh (s : State) : s.finalSh.finalSh = s.finalSh := rfl

theorem exec_shFeed_of_full (full : s.shLen = 0xFFFFFFFF) (x : Byte) :
    exec (.shFeed x) s = .next (s.raiseError .shOverflow (encode (.shFeed x))) := if_pos (beq_iff_eq.2 full)

theorem exec_shFeed_of_room (room : s.shLen ≠ 0xFFFFFFFF) (x : Byte) : exec (.shFeed x) s = .next (s.feedSh x) :=
  if_neg (mt beq_iff_eq.1 room)

/-! ## Commands that need a digest -/

theorem digestMissing_rc (invalid : s.shValid = false) : s.digestMissing .rc = true := by
  rw [State.digestMissing, invalid, Bool.not_false]

theorem digestMissing_eq_false {src : Src} (valid : src = .rc → s.shValid = true) : s.digestMissing src = false := by
  cases src with
  | rc => rw [State.digestMissing, valid rfl, Bool.not_true]
  | host => rfl

theorem ixAppend_rc_noDigest (invalid : s.shValid = false) :
    ∃ u, exec (.ixAppend .rc) s = .next u ∧ errorEntry .noDigest 0x22000000 s u := by
  have word : encode (.ixAppend .rc) = 0x22000000 := by decide
  exact ⟨_, if_pos (digestMissing_rc invalid), word ▸ errorEntry_raiseError ..⟩

theorem ixMatch_rc_noDigest (invalid : s.shValid = false) :
    ∃ u, exec (.ixMatch .rc) s = .next u ∧ errorEntry .noDigest 0x24000000 s u := by
  have word : encode (.ixMatch .rc) = 0x24000000 := by decide
  exact ⟨_, if_pos (digestMissing_rc invalid), word ▸ errorEntry_raiseError ..⟩

/-- Settles O26: the operation empties the message and clears SH_VALID, so the digest is then missing for SRC = 0. -/
theorem shStartBeginsANewMessage : Obligations.ShStartBeginsANewMessage :=
  fun s _ => ⟨by decide, s.startSh, rfl, rfl, rfl, rfl, rfl, onlySh_startSh s, ixAppend_rc_noDigest rfl,
    ixMatch_rc_noDigest rfl⟩

/-- Settles O27: at the limit of the message an error entry; below it SH_LEN does not wrap, and sh.final digests whatever the
message then is. -/
theorem shFeedExtendsTheMessage : Obligations.ShFeedExtendsTheMessage := by
  refine fun x s _ => ⟨cmdWord_b1_eq .., fun full => ⟨_, exec_shFeed_of_full full x, errorEntry_raiseError ..⟩,
    fun room => ⟨_, exec_shFeed_of_room room x, rfl, toNat_feedSh_shLen room x, rfl, rfl, onlySh_feedSh x s,
      ⟨_, rfl, rfl⟩, fun empty => ?_⟩⟩
  rw [feedSh_shLen, empty]
  rfl

/-- Settles O28: the operation writes DIGEST and SH_VALID from the message alone. -/
theorem shFinalDigestsTheMessage : Obligations.ShFinalDigestsTheMessage :=
  fun s _ => ⟨by decide, s.finalSh, rfl, rfl, rfl, rfl, rfl, onlySh_finalSh s,
    congrArg Host.Outcome.next (finalSh_finalSh s)⟩

/-! ## The digest of a window -/

theorem runLines_command {i : Instr} (no_error : s.err = .noError)
    (done : exec i ((s.accept (encode i)).respond .ok) = .next t) (ls : List AsmLine) :
    runLines (.command i :: ls) s = runLines ls t.retire := by
  rw [runLines_cons, atomically_command i no_error, done]
  rfl

/-- The message of the SH unit is `window` and SH_LEN counts its bytes, with no error standing. -/
structure HoldsMessage (window : List Byte) (t : State) : Prop where
  msg : t.msg = window
  shLen : t.shLen.toNat = window.length
  no_error : t.err = .noError

/-- The state a line `sh.start` leaves. -/
def State.afterStart (s : State) : State := ((s.accept (encode .shStart)).respond .ok).startSh.retire

theorem runLines_shStart (no_error : s.err = .noError) (ls : List AsmLine) :
    runLines (.command .shStart :: ls) s = runLines ls s.afterStart := runLines_command no_error rfl ls

theorem holdsMessage_afterStart (no_error : s.err = .noError) : HoldsMessage [] s.afterStart := ⟨rfl, rfl, no_error⟩

/-- A message shorter than 2^32 - 1 bytes has room for one more (R71). -/
theorem HoldsMessage.shFeed {before : List Byte} (h : HoldsMessage before t) {x : Byte}
    (room : (before ++ [x]).length < 2 ^ 32) :
    ∃ u, atomically (AsmLine.command (.shFeed x)).event t = .next u ∧ HoldsMessage (before ++ [x]) u := by
  have len := h.shLen
  rw [List.length_append, List.length_singleton] at room
  have below_limit : t.shLen ≠ 0xFFFFFFFF := by bv_omega
  have line : atomically (AsmLine.command (.shFeed x)).event t = _ := atomically_command (.shFeed x) h.no_error
  rw [exec_shFeed_of_room (s := (t.accept _).respond .ok) below_limit] at line
  refine ⟨_, line, congrArg (· ++ [x]) h.msg, ?_, h.no_error⟩
  rw [List.length_append, List.length_singleton, ← len]
  exact toNat_feedSh_shLen below_limit x

/-- A program that leaves a message, closed by sh.final, leaves its digest beside it (R72). -/
theorem HoldsMessage.digest_after {window : List Byte} {ls : List AsmLine} (h : HoldsMessage window t)
    (run : runLines ls s = .next t) :
    ∃ u, runLines (ls ++ [.command .shFinal]) s = .next u ∧ u.digest = Config.sha256 window ∧
      u.shLen.toNat = window.length ∧ u.shValid = true ∧ u.triple = t.triple ∧ u.err = .noError := by
  have final := runLines_command (i := .shFinal) h.no_error rfl []
  rw [runLines_append, run, andThen_next, final]
  exact ⟨_, rfl, congrArg Config.sha256 h.msg, h.shLen, rfl, rfl, h.no_error⟩

/-- With the RC unit clear, xfeed begins both the window and what it appends to the message. -/
theorem fedBoth_nil (clear : t.triple = (0, 0, 0)) (no_error : t.err = .noError) (idle : t.idle) : FedBoth t [] t where
  triple := clear
  no_error := no_error
  ix := ⟨rfl, rfl, rfl, rfl⟩
  args := ⟨rfl, rfl, rfl⟩
  results := ⟨rfl, rfl, rfl⟩
  flags := ⟨rfl, rfl, rfl, rfl⟩
  idle := idle
  msg := (List.append_nil _).symm
  shLen := rfl

/-- What xfeed appended to an empty message is the whole message. -/
theorem FedBoth.holdsMessage {window : List Byte} (h : FedBoth s window t) (empty : HoldsMessage [] s) :
    HoldsMessage window t where
  msg := by rw [h.msg, empty.msg, List.nil_append]
  shLen := by rw [h.shLen, empty.shLen, List.length_nil, Nat.zero_add]
  no_error := h.no_error

/-- Settles O29: sh.start begins the empty message, each line after it extends the message by a byte of the window, and sh.final
digests the window. -/
theorem digestOfAWindow : Obligations.DigestOfAWindow := by
  refine fun window s _ no_error bound => ⟨?_, ?_⟩
  · obtain ⟨t, ht, held⟩ := runLines_window (holdsMessage_afterStart no_error) window fun _ _ _ inside h =>
      h.shFeed (inside.length_le.trans_lt bound)
    obtain ⟨u, hu, digest, shLen, shValid, -, err⟩ := held.digest_after ((runLines_shStart no_error _).trans ht)
    exact ⟨u, hu, digest, shLen, shValid, err⟩
  · have empty : HoldsMessage [] s.afterClear.afterStart := holdsMessage_afterStart no_error
    have start : FedBoth s.afterClear.afterStart [] s.afterClear.afterStart := fedBoth_nil rfl empty.no_error ⟨rfl, rfl⟩
    obtain ⟨t, ht, fed⟩ := runLines_window start window fun _ _ _ inside h =>
      h.xfeed ((Nat.zero_add _).trans_lt (inside.length_le.trans_lt bound))
    have run : runLines (.command .rcClear :: .command .shStart :: window.map fun x => .command (.xfeed x)) s = .next t :=
      (runLines_rcClear no_error _).trans ((runLines_shStart (s := s.afterClear) no_error _).trans ht)
    obtain ⟨u, hu, digest, shLen, shValid, triple, err⟩ := (fed.holdsMessage empty).digest_after run
    exact ⟨u, hu, digest, shLen, shValid, triple.trans fed.triple, err⟩

/-! ## The strong comparison of ix.match (R75, R80) -/

/-- Two strong hashes are equal exactly when all 32 bytes are (R75). -/
theorem hash_beq_iff_bytes (g h : Hash) : (g == h) = true ↔ ∀ k : Fin 32, g[k.val] = h[k.val] :=
  beq_iff_eq.trans ⟨fun same _ => same ▸ rfl, fun bytes => Vector.ext fun i hi => bytes ⟨i, hi⟩⟩

theorem onlyResults_setLookup (found : Option Word) (agrees : Word → Bool) (s : State) :
    onlyResults s (s.setLookup found agrees) := by
  cases found <;>
    exact ⟨⟨rfl, rfl, rfl⟩, ⟨rfl, rfl, rfl, rfl⟩, ⟨rfl, rfl, rfl, rfl⟩, ⟨rfl, rfl, rfl⟩, ⟨rfl, rfl⟩,
      ⟨rfl, rfl, rfl, rfl⟩⟩

theorem exec_ixMatch_of_digest {src : Src} (valid : src = .rc → s.shValid = true) :
    exec (.ixMatch src) s = .next (s.setLookup (mapFind (s.weakOperand src) s.map)
      fun id => s.hashAt id == s.hashOperand src) :=
  if_neg (by rw [digestMissing_eq_false valid]; exact Bool.false_ne_true)

/-- The operands by source: RC_SUM and DIGEST, or the host's (R80). -/
theorem operands_of_src {src : Src} {w : Word} {h : Hash} (rc : src = .rc → w = sumOf s.a s.b ∧ h = s.digest)
    (host : src = .host → w = s.latchedArg0 ∧ h = s.latchedHin) : s.weakOperand src = w ∧ s.hashOperand src = h := by
  cases src with
  | rc => exact (rc rfl).imp Eq.symm Eq.symm
  | host => exact (host rfl).imp Eq.symm Eq.symm

/-- Settles O34: with a digest the command sets the lookup results, HIT by comparing all bytes of the stored hash. -/
theorem ixMatchConfirmsByTheStrongHash : Obligations.IxMatchConfirmsByTheStrongHash := by
  intro src s w h _ rc host
  obtain ⟨rfl, rfl⟩ := operands_of_src rc host
  refine ⟨by cases src <;> decide, ?_, fun valid => ⟨_, exec_ixMatch_of_digest valid, fun id found => ?_, fun missed => ?_,
    setLookup_lost .., setLookup_dropped .., setLookup_resWeak .., setLookup_resHash .., onlyResults_setLookup ..⟩⟩
  · rintro rfl invalid
    exact ixMatch_rc_noDigest invalid
  · rw [found]
    exact ⟨rfl, rfl, hash_beq_iff_bytes ..⟩
  · rw [missed]
    exact ⟨rfl, rfl, rfl⟩

end Sys2Proof.Machine
end

section
/-! PROOF. The commands of the IX unit (spec/42_block_index.md): what ix.clear, ix.setbl, ix.append, ix.lookup and ix.read do
(R76 to R79, R81), the commands that leave the signature alone (R85), and the signature a list of appended pairs leaves
(R83). -/

namespace Sys2Proof.Machine

variable {s t u : State}

/-! ## Frames -/

theorem sameIx.trans (h : sameIx s t) (g : sameIx t u) : sameIx s u := by
  obtain ⟨blockLen_h, n_h, hashes_h, map_h⟩ := h
  obtain ⟨blockLen_g, n_g, hashes_g, map_g⟩ := g
  exact ⟨blockLen_g.trans blockLen_h, n_g.trans n_h, hashes_g.trans hashes_h, map_g.trans map_h⟩

theorem onlyIx_clearIx (s : State) : onlyIx s s.clearIx :=
  ⟨⟨rfl, rfl, rfl⟩, ⟨rfl, rfl, rfl, rfl⟩, ⟨rfl, rfl, rfl⟩, ⟨rfl, rfl, rfl⟩, ⟨rfl, rfl, rfl, rfl⟩, ⟨rfl, rfl⟩,
    ⟨rfl, rfl, rfl, rfl⟩⟩

theorem onlyIx_setBlockLen (v : Word) (s : State) : onlyIx s (s.setBlockLen v) :=
  ⟨⟨rfl, rfl, rfl⟩, ⟨rfl, rfl, rfl, rfl⟩, ⟨rfl, rfl, rfl⟩, ⟨rfl, rfl, rfl⟩, ⟨rfl, rfl, rfl, rfl⟩, ⟨rfl, rfl⟩,
    ⟨rfl, rfl, rfl, rfl⟩⟩

theorem onlyResults_setReadBack (id : Word) (h : Hash) (key : Option Word) (s : State) :
    onlyResults s (s.setReadBack id h key) :=
  ⟨⟨rfl, rfl, rfl⟩, ⟨rfl, rfl, rfl, rfl⟩, ⟨rfl, rfl, rfl, rfl⟩, ⟨rfl, rfl, rfl⟩, ⟨rfl, rfl⟩, ⟨rfl, rfl, rfl, rfl⟩⟩

/-! ## What the commands do, case by case -/

theorem exec_ixSetbl_of_blocks (blocks : s.n ≠ 0) (chk : Bool) :
    exec (.ixSetbl chk) s = .next (s.raiseError .state (encode (.ixSetbl chk))) := if_pos blocks

theorem exec_ixSetbl_of_short (empty : s.n = 0) (short : s.latchedArg0.toNat < 32) :
    exec (.ixSetbl true) s = .next (s.raiseError .config (encode (.ixSetbl true))) :=
  (if_neg (not_not_intro empty)).trans (if_pos ⟨rfl, short⟩)

theorem exec_ixSetbl_of_long {chk : Bool} (empty : s.n = 0) (long : chk = true → 32 ≤ s.latchedArg0.toNat) :
    exec (.ixSetbl chk) s = .next (s.setBlockLen s.latchedArg0) :=
  (if_neg (not_not_intro empty)).trans (if_neg fun ⟨checked, short⟩ => Nat.not_le_of_lt short (long checked))

section Append

variable {src : Src} (valid : src = .rc → s.shValid = true)
include valid

theorem exec_ixAppend_of_full (full : s.n.toNat = Config.ixCap) :
    exec (.ixAppend src) s = .next (s.raiseError .full (encode (.ixAppend src))) :=
  (if_neg (Bool.eq_false_iff.1 (digestMissing_eq_false valid))).trans (if_pos full)

theorem exec_ixAppend_of_room (room : s.n.toNat ≠ Config.ixCap) :
    exec (.ixAppend src) s = .next (s.appendBlock (s.weakOperand src) (s.hashOperand src)) :=
  (if_neg (Bool.eq_false_iff.1 (digestMissing_eq_false valid))).trans (if_neg room)

end Append

theorem exec_ixRead_of_range (beyond : s.n.toNat ≤ s.latchedArg1.toNat) :
    exec .ixRead s = .next (s.raiseError .range (encode .ixRead)) := if_pos beyond

theorem exec_ixRead_of_entry (inRange : s.latchedArg1.toNat < s.n.toNat) :
    exec .ixRead s =
      .next (s.setReadBack s.latchedArg1 (s.hashAt s.latchedArg1) (mapKeyOf s.latchedArg1 s.map)) :=
  if_neg (Nat.not_le_of_lt inRange)

theorem ixRead_range (beyond : s.n.toNat ≤ s.latchedArg1.toNat) :
    ∃ t, exec .ixRead s = .next t ∧ errorEntry .range 0x25000000 s t := by
  have word : encode .ixRead = 0x25000000 := by decide
  exact ⟨_, exec_ixRead_of_range beyond, word ▸ errorEntry_raiseError ..⟩

/-- Settles O30: in empty tables every lookup misses and every block id is out of range. -/
theorem ixClearEmptiesTheTables : Obligations.IxClearEmptiesTheTables :=
  fun s _ => ⟨by decide, s.clearIx, rfl, rfl, fun _ => rfl, rfl, onlyIx_clearIx s, fun _ => ⟨_, rfl, rfl⟩,
    ixRead_range (Nat.zero_le _)⟩

/-- Settles O31: the three cases of the command, of which the check is one only with CHK = 1. -/
theorem ixSetblSetsTheBlockLength : Obligations.IxSetblSetsTheBlockLength := by
  refine fun chk s _ => ⟨by cases chk <;> decide,
    fun blocks => ⟨_, exec_ixSetbl_of_blocks blocks chk, errorEntry_raiseError ..⟩, ?_,
    fun empty long => ⟨_, exec_ixSetbl_of_long empty long, rfl, rfl, rfl, rfl, onlyIx_setBlockLen ..⟩⟩
  rintro empty rfl short
  have word : encode (.ixSetbl true) = 0x21010000 := by decide
  exact ⟨_, exec_ixSetbl_of_short empty short, word ▸ errorEntry_raiseError ..⟩

/-- Settles O33: the lookup sets both flags and RES_ID by what MAP holds at the weak operand. -/
theorem ixLookupFindsTheWeakKey : Obligations.IxLookupFindsTheWeakKey := by
  intro src s w _ rc host
  obtain rfl : w = s.weakOperand src := by
    cases src with
    | rc => exact rc rfl
    | host => exact host rfl
  refine ⟨by cases src <;> decide, _, rfl, fun id found => ?_, fun missed => ?_, setLookup_lost .., setLookup_dropped ..,
    setLookup_resWeak .., setLookup_resHash .., onlyResults_setLookup .., fun map_eq _ key => ?_⟩
  · rw [found]
    exact ⟨rfl, rfl, rfl⟩
  · rw [missed]
    exact ⟨rfl, rfl, rfl⟩
  · rw [map_eq, key]
    exact ⟨rfl, rfl, rfl⟩

/-! ## The tables -/

theorem mapKeyOf_eq_none_iff {m : List (Word × Word)} (wf : mapWf m) (id : Word) :
    mapKeyOf id m = none ↔ ∀ w, mapFind w m ≠ some id := by
  refine ⟨fun lost w found => mapKeyOf_eq_none lost _ (mem_of_mapFind found) rfl, fun no_key => ?_⟩
  refine Option.eq_none_iff_forall_ne_some.2 fun w key => no_key w ?_
  exact mapFind_eq_some_of_mem wf (mem_of_mapKeyOf key)

/-- The one key of a block id is the key that is read back (R25 (b), R81). -/
theorem State.Inv.mapKeyOf_of_mapFind (h : s.Inv) {k id : Word} (found : mapFind k s.map = some id) :
    mapKeyOf id s.map = some k := by
  cases key : mapKeyOf id s.map with
  | none => exact absurd found ((mapKeyOf_eq_none_iff h.map_wf id).1 key k)
  | some w =>
    have found_w : mapFind w s.map = some id := mapFind_eq_some_of_mem h.map_wf (mem_of_mapKeyOf key)
    rw [h.mapFind_injective found_w found]

theorem State.Inv.hashes_getElem? (h : s.Inv) {i : Word} (inRange : i.toNat < s.n.toNat) :
    s.hashes[i.toNat]? = some (s.hashAt i) := by
  have stored : i.toNat < s.hashes.length := h.n_eq ▸ inRange
  rw [State.hashAt, List.getD_eq_getElem _ _ stored, List.getElem?_eq_getElem stored]

theorem toNat_succ_of_lt_ixCap {n : Word} (below : n.toNat < Config.ixCap) : (n + 1).toNat = n.toNat + 1 := by
  have := ixCap_lt_two_pow
  bv_omega

theorem hashAt_appendBlock_new (full : s.n.toNat = s.hashes.length) (w : Word) (h : Hash) :
    (s.appendBlock w h).hashAt s.n = h := by
  simp [State.hashAt, full]

theorem hashAt_appendBlock_old (full : s.n.toNat = s.hashes.length) (w : Word) (h : Hash) {i : Word}
    (old : i.toNat < s.n.toNat) : (s.appendBlock w h).hashAt i = s.hashAt i := by
  have stored : i.toNat < s.hashes.length := full ▸ old
  simp [State.hashAt, full, List.getElem?_append_left stored]

/-- The old block of a repeated key becomes a lost entry (R78): its one key now leads to the new block. -/
theorem State.Inv.mapKeyOf_mapInsert_old (h : s.Inv) {w j : Word} (old : mapFind w s.map = some j) :
    mapKeyOf j (mapInsert w s.n s.map) = none := by
  refine (mapKeyOf_eq_none_iff (mapInsert_wf w s.n s.map h.map_wf) j).2 fun k found => ?_
  have below : j.toNat < s.n.toNat := h.map_below _ (mem_of_mapFind old)
  by_cases same : k = w
  · rw [same, mapFind_insert_same] at found
    obtain rfl := Option.some.inj found
    exact Nat.lt_irrefl _ below
  · rw [mapFind_insert_other _ _ _ _ same] at found
    exact same (h.mapFind_injective found old)

/-- Settles O35: an entry below N is stored, and the key read back is the one key MAP sends to it, if there is one. -/
theorem ixReadReadsAnEntryBack : Obligations.IxReadReadsAnEntryBack := by
  refine fun s h _ => ⟨by decide, ixRead_range, fun inRange => ⟨_, exec_ixRead_of_entry inRange, rfl,
    h.hashes_getElem? inRange, fun k live => ?_, fun lost => ?_, rfl, rfl, rfl, onlyResults_setReadBack ..⟩⟩
  · rw [h.mapKeyOf_of_mapFind live]
    exact ⟨rfl, rfl⟩
  · rw [(mapKeyOf_eq_none_iff h.map_wf _).2 lost]
    exact ⟨rfl, rfl⟩

/-! ## The signature changes by three commands only (R85) -/

/-- The commands R85 does not name. -/
def keepsSignature : Instr → Bool
  | .ixClear | .ixSetbl _ | .ixAppend _ => false
  | _ => true

theorem exec_sameIx {i : Instr} (keeps : keepsSignature i = true) (h : exec i s = .next t) : sameIx s t := by
  cases exec_effect h with
  | ixClear | ixSetbl | ixAppend => cases keeps
  | ixLookup | ixMatch => simp [sameIx]
  | _ => exact ⟨rfl, rfl, rfl, rfl⟩

theorem keepsSignature_of_ne {i : Instr} (not_append : ∀ src, i ≠ .ixAppend src) (not_setbl : ∀ chk, i ≠ .ixSetbl chk)
    (not_clear : i ≠ .ixClear) : keepsSignature i = true := by
  cases i with
  | ixAppend src => exact absurd rfl (not_append src)
  | ixSetbl chk => exact absurd rfl (not_setbl chk)
  | ixClear => exact absurd rfl not_clear
  | _ => rfl

/-- Settles O37: the commands R85 does not name by their effects, ix.setbl by its cases. -/
theorem signatureChangesOnlyByThreeCommands : Obligations.SignatureChangesOnlyByThreeCommands := by
  refine fun i s t h => ⟨fun not_append not_setbl not_clear =>
    exec_sameIx (keepsSignature_of_ne not_append not_setbl not_clear) h, ?_⟩
  rintro chk rfl
  rcases execIxSetbl_cases h with ⟨-, rfl⟩ | ⟨-, -, -, rfl⟩ | ⟨empty, -, rfl⟩
  · exact ⟨rfl, rfl, rfl, fun _ => rfl⟩
  · exact ⟨rfl, rfl, rfl, fun _ => rfl⟩
  · exact ⟨rfl, rfl, rfl, fun blocks => absurd empty blocks⟩

/-- A line with a command R85 does not name keeps the signature, whether the command runs or is dropped. -/
theorem atomically_command_sameIx {i : Instr} (keeps : keepsSignature i = true)
    (h : atomically (AsmLine.command i).event s = .next t) : sameIx s t := by
  have run : atomically (AsmLine.word (encode i)).event s = .next t := h
  rw [atomically_word] at run
  obtain ⟨u, hu, ht⟩ := andThen_eq_next run
  cases ht
  rcases runWord_cases hu with ⟨-, rfl⟩ | ⟨-, hd, -⟩ | ⟨-, hd, -⟩ | ⟨j, -, hd, he⟩
  · exact ⟨rfl, rfl, rfl, rfl⟩
  · cases (decode_encode i).symm.trans hd
  · cases (decode_encode i).symm.trans hd
  · obtain rfl : i = j := Decoded.command.inj ((decode_encode i).symm.trans hd)
    obtain ⟨blockLen, n, hashes, map⟩ := exec_sameIx keeps he
    exact ⟨blockLen, n, hashes, map⟩

theorem runLines_commands_sameIx (is : List Instr) (keep : ∀ i ∈ is, keepsSignature i = true)
    (h : runLines (is.map .command) s = .next t) : sameIx s t := by
  induction is generalizing s with
  | nil => cases h; exact ⟨rfl, rfl, rfl, rfl⟩
  | cons i is ih =>
    obtain ⟨keeps, keep⟩ := List.forall_mem_cons.1 keep
    obtain ⟨u, hu, ht⟩ := andThen_eq_next h
    exact (atomically_command_sameIx keeps hu).trans (ih keep ht)

theorem runLines_xInit_sameIx {window : List Byte} (h : runLines (xInit window) s = .next t) : sameIx s t := by
  have commands : xInit window =
      (Instr.rcClear :: .shStart :: window.map .xfeed ++ [Instr.shFinal]).map AsmLine.command := by
    simp [xInit]
  rw [commands] at h
  refine runLines_commands_sameIx _ (fun i hi => ?_) h
  simp only [List.cons_append, List.mem_cons, List.mem_append, List.mem_map, List.not_mem_nil, or_false] at hi
  rcases hi with rfl | rfl | ⟨x, -, rfl⟩ | rfl <;> rfl

/-! ## Lines that append a block -/

/-- The weak checksum of a window, `SUM(W(c))` (R84). -/
def weakSum (window : List Byte) : Word := sumOf (weakTriple window).1 (weakTriple window).2.1

/-- From `s`, lines appended the pair of a weak key and a strong hash to the signature, with no error. -/
structure Appended (w : Word) (h : Hash) (s t : State) : Prop where
  ix : sameIx (s.appendBlock w h) t
  resId : t.resId = s.n
  no_error : t.err = .noError
  idle : t.idle

theorem runLines_ixAppend {src : Src} (no_error : s.err = .noError) (valid : src = .rc → s.shValid = true)
    (room : s.n.toNat ≠ Config.ixCap) :
    ∃ t, runLines [.command (.ixAppend src)] s = .next t ∧
      Appended (((s.accept (encode (.ixAppend src))).respond .ok).weakOperand src)
        (((s.accept (encode (.ixAppend src))).respond .ok).hashOperand src) s t :=
  ⟨_, runLines_command no_error
    (exec_ixAppend_of_room (s := (s.accept (encode (.ixAppend src))).respond .ok) valid room) [],
    ⟨rfl, rfl, rfl, rfl⟩, rfl, no_error, rfl, rfl⟩

/-- `x.init` and `ix.append src=rc` append a window's weak checksum and digest (R73, R78). -/
theorem runLines_xInit_ixAppend (idle : s.idle) (no_error : s.err = .noError) {window : List Byte}
    (bound : window.length < 2 ^ 32) (room : s.n.toNat ≠ Config.ixCap) :
    ∃ t, runLines (xInit window ++ [.command (.ixAppend .rc)]) s = .next t ∧
      Appended (weakSum window) (Config.sha256 window) s t := by
  obtain ⟨u, hu, digest, -, valid, triple, no_error_u⟩ := (digestOfAWindow window s idle no_error bound).2
  obtain ⟨blockLen, n, hashes, map⟩ := runLines_xInit_sameIx hu
  obtain ⟨t, ht, ⟨blockLen_t, n_t, hashes_t, map_t⟩, resId, no_error_t, idle_t⟩ :=
    runLines_ixAppend (src := .rc) no_error_u (fun _ => valid) (n ▸ room)
  have weak : sumOf u.a u.b = weakSum window := sum_of_triple triple
  refine ⟨t, ?_, ⟨blockLen_t.trans blockLen, ?_, ?_, ?_⟩, resId.trans n, no_error_t, idle_t⟩
  · rw [runLines_append, hu, andThen_next, ht]
  · rw [n_t, appendBlock_n, n, appendBlock_n]
  · rw [hashes_t, appendBlock_hashes, hashes, n, appendBlock_hashes, ← digest]
    rfl
  · rw [map_t, appendBlock_map, map, n, appendBlock_map, ← weak]
    rfl

/-- Loading HIN word after word (R38). -/
theorem runLines_wr_hin (h : Hash) (ks : List (Fin 8)) (idle : s.pend = none) :
    ∃ answers, runLines (ks.map fun k => .wr (.hin k) (hashWord h k)) s =
      .next { s with
        hin := ks.foldl (fun acc k => setHashWord acc k (hashWord h k)) s.hin, responses := answers } := by
  induction ks generalizing s with
  | nil => exact ⟨s.responses, rfl⟩
  | cons k ks ih =>
    obtain ⟨answers, run⟩ := ih (s := (s.setHin k (hashWord h k)).respond .ok) idle
    refine ⟨answers, ?_⟩
    rw [List.map_cons, runLines_cons, atomically_wr_hin k _ s idle, andThen_next, run]
    rfl

/-- `ix.put w, h` appends the pair (R59, R78). -/
theorem runLines_ixPut (idle : s.idle) (no_error : s.err = .noError) (room : s.n.toNat ≠ Config.ixCap) (w : Word)
    (h : Hash) : ∃ t, runLines (ixPut w h) s = .next t ∧ Appended w h s t := by
  obtain ⟨answers, load⟩ := runLines_wr_hin h (List.finRange 8) (s := (s.setArg0 w).respond .ok) idle.2
  rw [copyWords_eq] at load
  obtain ⟨t, ht, append⟩ := runLines_ixAppend (src := .host)
    (s := { (s.setArg0 w).respond .ok with hin := h, responses := answers }) no_error nofun room
  refine ⟨t, ?_, append.ix, append.resId, append.no_error, append.idle⟩
  rw [ixPut, runLines_append, runLines_cons, atomically_wr_arg0 w s idle.2, andThen_next, load, andThen_next, ht]

/-- Settles O32: NO_DIGEST, FULL or a new block, whose key no longer leads to its old block; the example is the window `ABCD`
appended to the tables after reset. -/
theorem ixAppendAddsABlock : Obligations.IxAppendAddsABlock := by
  refine ⟨fun src s inv _ => ⟨by cases src <;> decide, ?_,
    fun valid full => ⟨_, exec_ixAppend_of_full valid full, errorEntry_raiseError ..⟩,
    fun valid room => ⟨_, exec_ixAppend_of_room valid room, fun w h rc host => ?_,
      fun i => hashAt_appendBlock_old inv.n_eq _ _, rfl,
      toNat_succ_of_lt_ixCap (Nat.lt_of_le_of_ne inv.n_le_cap room), rfl, rfl, rfl, ⟨rfl, rfl, rfl⟩,
      ⟨rfl, rfl, rfl, rfl⟩, ⟨rfl, rfl, rfl⟩, ⟨rfl, rfl, rfl, rfl⟩, ⟨rfl, rfl⟩, ⟨rfl, rfl, rfl, rfl⟩⟩⟩, ?_⟩
  · rintro rfl invalid
    exact ixAppend_rc_noDigest invalid
  · obtain ⟨rfl, rfl⟩ := operands_of_src rc host
    exact ⟨hashAt_appendBlock_new inv.n_eq _ _, mapFind_insert_same .., fun k => mapFind_insert_other _ _ k _,
      fun j => inv.mapKeyOf_mapInsert_old⟩
  · have room : State.reset.n.toNat ≠ Config.ixCap := Nat.zero_ne_add_one _
    obtain ⟨t, ht, ⟨-, n, hashes, map⟩, resId, -, -⟩ := runLines_xInit_ixAppend (s := .reset)
      (window := [0x41, 0x42, 0x43, 0x44]) ⟨rfl, rfl⟩ rfl (by decide) room
    have weak : weakSum [0x41, 0x42, 0x43, 0x44] = 0x0294010A := by decide
    exact ⟨t, ht, by rw [State.hashAt, hashes]; rfl, by rw [map, weak]; rfl, resId, n⟩

/-! ## The signature a list of appended pairs leaves (R83) -/

/-- Position `i` is the last one at which key `w` stands. -/
def LastAt (keys : List Word) (w : Word) (i : Nat) : Prop := keys[i]? = some w ∧ ∀ j, i < j → keys[j]? ≠ some w

section LastAt

variable {keys : List Word} {w : Word} {i : Nat}

theorem LastAt.lt_length (h : LastAt keys w i) : i < keys.length := (List.getElem?_eq_some_iff.1 h.1).1

theorem LastAt.mem (h : LastAt keys w i) : w ∈ keys := List.mem_of_getElem? h.1

/-- A key appended at the end is last there. -/
theorem lastAt_concat_same (keys : List Word) (w : Word) (i : Nat) : LastAt (keys ++ [w]) w i ↔ i = keys.length := by
  constructor
  · intro h
    have inside : i < keys.length + 1 := by simpa using h.lt_length
    by_contra before
    exact h.2 keys.length (by omega) (by simp)
  · rintro rfl
    exact ⟨by simp, fun j after => by simp [List.getElem?_eq_none, Nat.succ_le_of_lt after]⟩

/-- A key appended at the end changes nothing for the other keys. -/
theorem lastAt_concat_other {k : Word} (other : w ≠ k) : LastAt (keys ++ [k]) w i ↔ LastAt keys w i := by
  have same_places (j : Nat) : (keys ++ [k])[j]? = some w ↔ keys[j]? = some w := by
    rw [List.getElem?_append]
    split
    · rfl
    · rename_i beyond
      have no_key : keys[j]? = none := List.getElem?_eq_none (Nat.le_of_not_lt beyond)
      simp [no_key, List.getElem?_singleton, other.symm]
  simp only [LastAt, ne_eq, same_places]

theorem exists_lastAt (h : w ∈ keys) : ∃ i, LastAt keys w i := by
  induction keys using List.reverseRecOn with
  | nil => cases h
  | append_singleton keys k ih =>
    by_cases same : w = k
    · exact ⟨keys.length, same ▸ (lastAt_concat_same keys w _).2 rfl⟩
    · obtain ⟨i, hi⟩ := ih (by simpa [same] using h)
      exact ⟨i, (lastAt_concat_other same).2 hi⟩

end LastAt

/-- The tables hold the signature of a list of pairs: a block for each pair, and MAP sending a key to its last block. -/
structure Holds (pairs : List (Word × Hash)) (t : State) : Prop where
  n : t.n.toNat = pairs.length
  hashes : t.hashes = pairs.map Prod.snd
  map_wf : mapWf t.map
  mapFind_iff : ∀ w id, mapFind w t.map = some id ↔ LastAt (pairs.map Prod.fst) w id.toNat

namespace Holds

variable {pairs : List (Word × Hash)}

theorem nil (n : t.n = 0) (hashes : t.hashes = []) (map : t.map = []) : Holds [] t where
  n := congrArg BitVec.toNat n
  hashes := hashes
  map_wf := map ▸ List.Pairwise.nil
  mapFind_iff w id := by simp [map, mapFind, LastAt]

theorem of_sameIx (h : Holds pairs s) (same : sameIx s t) : Holds pairs t := by
  obtain ⟨-, n, hashes, map⟩ := same
  exact ⟨n ▸ h.n, hashes ▸ h.hashes, map ▸ h.map_wf, map ▸ h.mapFind_iff⟩

theorem appendBlock (h : Holds pairs s) (room : pairs.length < Config.ixCap) (w : Word) (hash : Hash) :
    Holds (pairs ++ [(w, hash)]) (s.appendBlock w hash) where
  n := by
    rw [appendBlock_n, toNat_succ_of_lt_ixCap (h.n ▸ room), h.n, List.length_append, List.length_singleton]
  hashes := by simp [h.n, h.hashes, List.take_of_length_le]
  map_wf := mapWf_append w hash s h.map_wf
  mapFind_iff v id := by
    have keys : (pairs ++ [(w, hash)]).map Prod.fst = pairs.map Prod.fst ++ [w] := List.map_append
    rw [keys, appendBlock_map]
    by_cases same : v = w
    · rw [same, mapFind_insert_same, lastAt_concat_same, List.length_map, ← h.n, Option.some_inj, eq_comm,
        BitVec.toNat_inj]
    · rw [mapFind_insert_other _ _ _ _ same, lastAt_concat_other same, h.mapFind_iff]

theorem of_appended {w : Word} {hash : Hash} (h : Holds pairs s) (room : pairs.length < Config.ixCap)
    (appended : Appended w hash s t) : Holds (pairs ++ [(w, hash)]) t :=
  (h.appendBlock room w hash).of_sameIx appended.ix

theorem room (h : Holds pairs t) (below : pairs.length < Config.ixCap) : t.n.toNat ≠ Config.ixCap :=
  Nat.ne_of_lt (h.n ▸ below)

theorem toNat_block (h : Holds pairs t) {i : Nat} (inside : i < pairs.length) : (BitVec.ofNat 32 i).toNat = i :=
  BitVec.toNat_ofNat i 32 |>.trans (Nat.mod_eq_of_lt (inside.trans (h.n ▸ t.n.isLt)))

theorem mapFind_block (h : Holds pairs t) {i : Nat} (inside : i < pairs.length) (w : Word) :
    mapFind w t.map = some (BitVec.ofNat 32 i) ↔ LastAt (pairs.map Prod.fst) w i := by
  rw [h.mapFind_iff, h.toNat_block inside]

theorem mapFind_eq_none (h : Holds pairs t) (w : Word) : mapFind w t.map = none ↔ ∀ p ∈ pairs, p.1 ≠ w := by
  have absent : (∀ p ∈ pairs, p.1 ≠ w) ↔ w ∉ pairs.map Prod.fst := by
    simp only [List.mem_map, not_exists, not_and, ne_eq]
  rw [absent]
  constructor
  · intro missed key
    obtain ⟨i, hi⟩ := exists_lastAt key
    have inside : i < pairs.length := by simpa using hi.lt_length
    cases missed.symm.trans ((h.mapFind_block inside w).2 hi)
  · exact fun no_key => Option.eq_none_iff_forall_ne_some.2 fun id found => no_key ((h.mapFind_iff w id).1 found).mem

/-- The lost entries are the blocks whose key comes again later (R83). -/
theorem lost_iff (h : Holds pairs t) {i : Nat} (inside : i < pairs.length) :
    mapKeyOf (BitVec.ofNat 32 i) t.map = none ↔
      ∃ j, i < j ∧ j < pairs.length ∧ pairs[j]?.map Prod.fst = pairs[i]?.map Prod.fst := by
  have key : pairs[i]?.map Prod.fst = some pairs[i].1 := by simp [inside]
  simp only [mapKeyOf_eq_none_iff h.map_wf, ne_eq, h.mapFind_block inside, LastAt, List.getElem?_map, key]
  constructor
  · intro not_last
    by_contra no_later
    refine not_last _ ⟨rfl, fun j later again => no_later ⟨j, later, ?_, again⟩⟩
    by_contra beyond
    simp [List.getElem?_eq_none (Nat.le_of_not_lt beyond)] at again
  · rintro ⟨j, later, -, again⟩ w ⟨key_w, last⟩
    exact last j later (again.trans key_w)

end Holds

/-- Putting the pairs of a list one after another appends them to the signature. -/
theorem runLines_puts (pairs before : List (Word × Hash)) (idle : s.idle) (no_error : s.err = .noError)
    (held : Holds before s) (fits : (before ++ pairs).length ≤ Config.ixCap) :
    ∃ t, runLines (pairs.flatMap fun p => ixPut p.1 p.2) s = .next t ∧ t.err = .noError ∧
      Holds (before ++ pairs) t := by
  induction pairs generalizing before s with
  | nil => exact ⟨s, rfl, no_error, by rwa [List.append_nil]⟩
  | cons p pairs ih =>
    have below : before.length < Config.ixCap := by
      rw [List.length_append, List.length_cons] at fits
      omega
    obtain ⟨u, hu, appended⟩ := runLines_ixPut idle no_error (held.room below) p.1 p.2
    rw [List.append_cons] at fits ⊢
    obtain ⟨t, ht, done⟩ := ih _ appended.idle appended.no_error (held.of_appended below appended) fits
    exact ⟨t, by rw [List.flatMap_cons, runLines_append, hu, andThen_next, ht], done⟩

/-- The state a line `ix.clear` leaves. -/
def State.afterIxClear (s : State) : State := ((s.accept (encode .ixClear)).respond .ok).clearIx.retire

theorem runLines_ixClear (no_error : s.err = .noError) (ls : List AsmLine) :
    runLines (.command .ixClear :: ls) s = runLines ls s.afterIxClear := runLines_command no_error rfl ls

/-- Settles O36: the pairs put after ix.clear are the pairs the tables hold. -/
theorem lastAppendOfAKeyWins : Obligations.LastAppendOfAKeyWins := by
  intro pairs s _ _ no_error fits
  obtain ⟨t, ht, no_error_t, held⟩ := runLines_puts (s := s.afterIxClear) pairs [] ⟨rfl, rfl⟩ no_error
    (.nil rfl rfl rfl) fits
  refine ⟨t, (runLines_ixClear no_error _).trans ht, no_error_t, held.n, held.hashes, fun w i inside => ?_,
    held.mapFind_eq_none, fun i inside => held.lost_iff inside⟩
  simp only [held.mapFind_block inside w, LastAt, List.nil_append, List.getElem?_map, ne_eq]

end Sys2Proof.Machine
end

section
/-! PROOF. Signature construction by the host (spec/48_host_procedures.md R108): a block length that is too short, and the
signature of a basis (spec/42_block_index.md R84). -/

namespace Sys2Proof.Machine

variable {s t : State}

/-- The lines that begin a signature, up to the outcome of ix.setbl (R108). -/
theorem runLines_setup (no_error : s.err = .noError) (v : Word) (chk : Bool) :
    ∃ u : State, u.n = 0 ∧ u.hashes = [] ∧ u.map = [] ∧ u.latchedArg0 = v ∧ u.err = .noError ∧
      runLines [.command .ixClear, .wr .arg0 v, .command (.ixSetbl chk)] s =
        andThen (exec (.ixSetbl chk) u) (fun t => .next t.retire) := by
  have no_error_then : ((s.afterIxClear.setArg0 v).respond .ok).err = .noError := by simp [State.afterIxClear, no_error]
  refine ⟨(((s.afterIxClear.setArg0 v).respond .ok).accept (encode (.ixSetbl chk))).respond .ok, rfl, rfl, rfl, rfl,
    no_error_then, ?_⟩
  rw [runLines_ixClear no_error, runLines_cons, atomically_wr_arg0 v _ rfl, andThen_next, runLines_cons,
    atomically_command (.ixSetbl chk) no_error_then, andThen_assoc]
  rfl

/-- Settles O56: ix.setbl chk=1 raises CONFIG in the empty tables. -/
theorem buildSignatureRejectsShortBlocks : Obligations.BuildSignatureRejectsShortBlocks := by
  intro basis blockLength s _ no_error short
  obtain ⟨u, empty, -, -, latched, -, run⟩ := runLines_setup no_error blockLength true
  rw [exec_ixSetbl_of_short empty (latched ▸ short)] at run
  rw [buildSignature, run]
  rfl

/-- The j-th chunk of a basis (R84). -/
def chunkAt (basis : List Byte) (blockLength j : Nat) : List Byte := (basis.drop (j * blockLength)).take blockLength

/-- The weak checksum and the strong hash of each of the first k chunks of a basis. -/
def chunkPairs (basis : List Byte) (blockLength k : Nat) : List (Word × Hash) :=
  (List.range k).map fun j => (weakSum (chunkAt basis blockLength j), Config.sha256 (chunkAt basis blockLength j))

theorem chunkPairs_succ (basis : List Byte) (blockLength k : Nat) :
    chunkPairs basis blockLength (k + 1) = chunkPairs basis blockLength k ++
      [(weakSum (chunkAt basis blockLength k), Config.sha256 (chunkAt basis blockLength k))] := by
  rw [chunkPairs, List.range_succ, List.map_append]
  rfl

theorem length_chunkPairs (basis : List Byte) (blockLength k : Nat) : (chunkPairs basis blockLength k).length = k := by
  rw [chunkPairs, List.length_map, List.length_range]

/-- The number of chunks, rounded up (R84), reaches j exactly when the first j chunks cover the basis. -/
theorem chunkCount_le_iff {len blockLength : Nat} (pos : 0 < blockLength) (j : Nat) :
    (len + blockLength - 1) / blockLength ≤ j ↔ len ≤ j * blockLength := by
  rw [← Nat.ceilDiv_eq_add_pred_div, ceilDiv_le_iff_le_mul pos, Nat.mul_comm]

theorem runChecked_of_next {lines : List AsmLine} (run : runLines lines s = .next t) (no_error : t.err = .noError) :
    runChecked lines s = .next t := by
  simp [runChecked, run, fromBlock, no_error]

/-- A turn of the loop that reads a chunk appends its block (R108). -/
theorem buildLoop_chunk {turns blockLength : Nat} {bytes : List Byte}
    (chunk : bytes.take blockLength ≠ [])
    (run : runLines (xInit (bytes.take blockLength) ++ [.command (.ixAppend .rc)]) s = .next t)
    (no_error : t.err = .noError) :
    buildLoop (turns + 1) blockLength ⟨bytes, false⟩ s =
      buildLoop turns blockLength ⟨bytes.drop blockLength, false⟩ t := by
  simp only [buildLoop, read_clean, andThen_next, if_neg chunk, runChecked_of_next run no_error]

theorem buildLoop_end {turns blockLength : Nat} : buildLoop (turns + 1) blockLength ⟨[], false⟩ s = .next s := by
  simp [buildLoop, read_clean]

/-- From the signature of the first j chunks, the loop goes on to that of all of them. -/
theorem buildLoop_holds {basis : List Byte} {blockLength : Nat} (pos : 0 < blockLength) (short : blockLength < 2 ^ 32)
    {k : Nat} (count : ∀ j, k ≤ j ↔ basis.length ≤ j * blockLength) (fits : k ≤ Config.ixCap) (turns j : Nat)
    (enough : basis.length - j * blockLength < turns) (within : j ≤ k) (idle : s.idle) (no_error : s.err = .noError)
    (held : Holds (chunkPairs basis blockLength j) s) :
    ∃ t, buildLoop turns blockLength ⟨basis.drop (j * blockLength), false⟩ s = .next t ∧ t.err = .noError ∧
      t.blockLen = s.blockLen ∧ Holds (chunkPairs basis blockLength k) t := by
  induction turns generalizing j s with
  | zero => exact absurd enough (Nat.not_lt_zero _)
  | succ turns ih =>
    by_cases covered : k ≤ j
    · obtain rfl : j = k := Nat.le_antisymm within covered
      rw [List.drop_eq_nil_of_le ((count j).1 covered)]
      exact ⟨s, buildLoop_end, no_error, rfl, held⟩
    · have more : j < k := Nat.lt_of_not_le covered
      have rest : j * blockLength < basis.length := Nat.lt_of_not_le (mt (count j).2 covered)
      have below : (chunkPairs basis blockLength j).length < Config.ixCap :=
        (length_chunkPairs ..).trans_lt (more.trans_le fits)
      have chunk_length : (chunkAt basis blockLength j).length < 2 ^ 32 :=
        (List.length_take_le ..).trans_lt short
      have chunk_nonempty : chunkAt basis blockLength j ≠ [] := by
        refine List.ne_nil_of_length_pos ?_
        rw [chunkAt, List.length_take, List.length_drop]
        omega
      obtain ⟨u, hu, appended⟩ := runLines_xInit_ixAppend idle no_error chunk_length (held.room below)
      have next_place : j * blockLength + blockLength = (j + 1) * blockLength := (Nat.succ_mul ..).symm
      have held_u := held.of_appended below appended
      rw [← chunkPairs_succ] at held_u
      obtain ⟨t, ht, no_error_t, blockLen, held_t⟩ := ih (j + 1) (by omega) more appended.idle appended.no_error held_u
      refine ⟨t, ?_, no_error_t, blockLen.trans appended.ix.1, held_t⟩
      rw [buildLoop_chunk chunk_nonempty hu appended.no_error, List.drop_drop, next_place, ht]

/-- The last place of a key in the list of a function's first values. -/
theorem lastAt_map_range (f : Nat → Word) {k i : Nat} (inside : i < k) (w : Word) :
    LastAt ((List.range k).map f) w i ↔ f i = w ∧ ∀ j, i < j → j < k → f j ≠ w := by
  have place (j : Nat) : ((List.range k).map f)[j]? = some w ↔ j < k ∧ f j = w := by
    simp [List.getElem?_eq_some_iff]
  simp only [LastAt, ne_eq, place, inside, true_and, not_and]

/-- Settles O59: the set-up leaves empty tables with the block length, and the loop the signature of all chunks. -/
theorem signatureOfABasis : Obligations.SignatureOfABasis := by
  intro basis blockLength s _ _ no_error long fits
  have pos : 0 < blockLength.toNat := by omega
  obtain ⟨u, empty, hashes, map, latched, no_error_u, run⟩ := runLines_setup no_error blockLength true
  rw [exec_ixSetbl_of_long empty fun _ => latched ▸ long, latched] at run
  obtain ⟨t, ht, no_error_t, blockLen, held⟩ := buildLoop_holds (s := (u.setBlockLen blockLength).retire)
    (basis := basis) pos blockLength.isLt (chunkCount_le_iff pos) fits (basis.length + 1) 0 (by omega) (Nat.zero_le _)
    ⟨rfl, rfl⟩ no_error_u (.nil empty hashes map)
  have count : t.n.toNat = (basis.length + blockLength.toNat - 1) / blockLength.toNat :=
    held.n.trans (length_chunkPairs ..)
  have built : buildSignature ⟨basis, false⟩ blockLength s = .next t := by
    rw [Nat.zero_mul, List.drop_zero] at ht
    rw [buildSignature, run]
    exact (if_neg (not_not_intro no_error_u)).trans ht
  refine ⟨t, built, no_error_t, blockLen, count, fun chunk chunk_eq => ?_⟩
  obtain rfl : chunk = chunkAt basis blockLength.toNat := funext chunk_eq
  rw [← count] at held
  have keys : (chunkPairs basis blockLength.toNat t.n.toNat).map Prod.fst =
      (List.range t.n.toNat).map fun j => weakSum (chunkAt basis blockLength.toNat j) := List.map_map
  refine ⟨fun j inside => ?_, fun w j inside => ?_, fun w => ?_⟩
  · rw [held.hashes]
    simp [chunkPairs, inside]
  · rw [held.mapFind_block ((length_chunkPairs ..).symm ▸ inside), keys]
    exact lastAt_map_range _ inside w
  · rw [held.mapFind_eq_none]
    simp [chunkPairs, weakSum]

end Sys2Proof.Machine
end

section
/-! PROOF. The deltas of the host (spec/48_host_procedures.md): the scan that is refused (R125), how appended chunks alternate
(R111), and the delta codec (R119, R120). -/

namespace Sys2Proof.Machine

/-- Settles O57: computeDelta tests BLOCKLEN before it reads the stream. -/
theorem scanOfZeroLengthBlocksIsRefused : Obligations.ScanOfZeroLengthBlocksIsRefused :=
  fun _ _ zero => if_pos zero

/-! ## Appending (R111) -/

/-- A chunk appended behind one of its tag is joined to it. -/
theorem deltaAppend_of_merge {last c joined : Chunk} (merge : mergeChunk last c = some joined) (delta : List Chunk) :
    deltaAppend (delta ++ [last]) c = delta ++ [joined] := by
  induction delta with
  | nil => simp [deltaAppend, merge]
  | cons first rest ih => cases rest <;> simpa [deltaAppend] using ih

/-- A chunk appended behind one of the other tag stands as it is. -/
theorem deltaAppend_of_no_merge {last c : Chunk} (merge : mergeChunk last c = none) (delta : List Chunk) :
    deltaAppend (delta ++ [last]) c = delta ++ [last, c] := by
  induction delta with
  | nil => simp [deltaAppend, merge]
  | cons first rest ih => cases rest <;> simpa [deltaAppend] using ih

/-- Chunks that do not merge are a Reusable and a Literal. -/
theorem mergeChunk_eq_none {c d : Chunk} (merge : mergeChunk c d = none) :
    ∃ (start length : Long) (data : List Byte),
      (c = .reusable start length ∧ d = .literal data) ∨ (c = .literal data ∧ d = .reusable start length) := by
  cases c with
  | reusable start length =>
    cases d with
    | reusable => cases merge
    | literal data => exact ⟨start, length, data, .inl ⟨rfl, rfl⟩⟩
  | literal data =>
    cases d with
    | reusable start length => exact ⟨start, length, data, .inr ⟨rfl, rfl⟩⟩
    | literal => cases merge

/-- A joined chunk has the tag of the chunk it was joined to. -/
theorem mergeChunk_joined {before last c joined : Chunk} (merge : mergeChunk last c = some joined)
    (apart : mergeChunk before last = none) : mergeChunk before joined = none := by
  obtain ⟨start, length, data, ⟨rfl, rfl⟩ | ⟨rfl, rfl⟩⟩ := mergeChunk_eq_none apart
  · cases c with
    | reusable => cases merge
    | literal => cases merge; rfl
  · cases c with
    | reusable => cases merge; rfl
    | literal => cases merge

/-- An append keeps every two adjacent chunks unmergeable. -/
theorem deltaAppend_keeps_apart {delta : List Chunk} (apart : delta.IsChain (mergeChunk · · = none)) (c : Chunk) :
    (deltaAppend delta c).IsChain (mergeChunk · · = none) := by
  obtain rfl | ⟨before, last, rfl⟩ := delta.eq_nil_or_concat'
  · exact .singleton c
  · obtain ⟨apart_before, -, apart_last⟩ := List.isChain_append.1 apart
    cases merge : mergeChunk last c with
    | none =>
      rw [deltaAppend_of_no_merge merge]
      exact List.isChain_append.2 ⟨apart_before, .cons_cons merge (.singleton c), apart_last⟩
    | some joined =>
      rw [deltaAppend_of_merge merge]
      refine List.isChain_append.2 ⟨apart_before, .singleton joined, ?_⟩
      rintro d end_before _ ⟨⟩
      exact mergeChunk_joined merge (apart_last d end_before last rfl)

theorem foldl_deltaAppend_keeps_apart (chunks : List Chunk) {delta : List Chunk}
    (apart : delta.IsChain (mergeChunk · · = none)) :
    (chunks.foldl deltaAppend delta).IsChain (mergeChunk · · = none) := by
  induction chunks generalizing delta with
  | nil => exact apart
  | cons c chunks ih => exact ih (deltaAppend_keeps_apart apart c)

/-- Settles O53: an append merges or not as mergeChunk says, and adjacent chunks never merge. -/
theorem appendedChunksAlternateTags : Obligations.AppendedChunksAlternateTags := by
  refine ⟨fun _ => rfl, fun delta _ _ _ _ => deltaAppend_of_merge rfl delta, fun delta _ _ => deltaAppend_of_merge rfl delta,
    fun delta _ _ _ => ⟨deltaAppend_of_no_merge rfl delta, deltaAppend_of_no_merge rfl delta⟩, fun chunks => ?_⟩
  exact (foldl_deltaAppend_keeps_apart chunks .nil).imp fun _ _ => mergeChunk_eq_none

/-! ## Writing records (R119, R122) -/

@[simp] theorem length_bytesOfLong (v : Long) : (bytesOfLong v).length = 8 := rfl

theorem length_serializeChunk_literal (data : List Byte) : (serializeChunk (.literal data)).length = 9 + data.length := by
  simp [serializeChunk]
  omega

theorem write_nil (out : Sink) : out.write [] = .next out := by
  obtain ⟨written, _ | left⟩ := out <;> simp [Sink.write, Sink.put, Budget.allows, Budget.spend, Budget.cut]

/-- A budget covers two uses when it covers the first and what is left covers the second. -/
theorem allows_add (m n : Nat) (b : Budget) : b.allows (m + n) = (b.allows m && Budget.allows n (b.spend m)) := by
  cases b with
  | none => rfl
  | some left =>
    rw [Bool.eq_iff_iff]
    simp only [Budget.allows, Budget.spend, Option.map_some, Bool.and_eq_true, decide_eq_true_eq]
    omega

theorem spend_spend (m n : Nat) (b : Budget) : Budget.spend n (b.spend m) = b.spend (m + n) := by
  cases b with
  | none => rfl
  | some left => exact congrArg some (Nat.sub_sub ..)

/-- Two writes one behind the other do what one write of all the bytes does, in its success and in its failure. -/
theorem write_write (xs ys : List Byte) (out : Sink) :
    andThen (out.write xs) (Sink.write ys) = out.write (xs ++ ys) := by
  have room := allows_add xs.length ys.length out.room
  rw [← List.length_append] at room
  obtain ⟨fits, wrote⟩ | ⟨full, failed⟩ := write_cases xs out
  · rw [fits, Bool.true_and] at room
    rw [wrote, andThen_next]
    obtain ⟨fits, wrote⟩ | ⟨full, failed⟩ := write_cases ys ⟨out.written ++ xs, out.room.spend xs.length⟩
    · rw [wrote, Sink.write, if_pos (room.trans fits), Sink.put, cut_of_allows (room.trans fits), spend_spend,
        List.append_assoc, List.length_append]
    · rw [failed, Sink.write, room.trans full]
      rfl
  · rw [full, Bool.false_and] at room
    rw [failed, Sink.write, room]
    rfl

/-- Serializing a delta is one write of all its records. -/
theorem serializeDelta_eq_write (delta : List Chunk) (out : Sink) :
    serializeDelta delta out = out.write (delta.flatMap serializeChunk) := by
  induction delta generalizing out with
  | nil => exact (write_nil out).symm
  | cons c delta ih => rw [serializeDelta, funext ih, write_write, List.flatMap_cons]

/-- Settles O55: the write of all the records succeeds exactly when there is room for them. -/
theorem deltaRecordSizes : Obligations.DeltaRecordSizes := by
  refine ⟨fun _ _ => ⟨rfl, rfl⟩, fun data => ⟨length_serializeChunk_literal data, rfl, ?_⟩, fun delta out => ?_⟩
  · exact ⟨1 :: bytesOfLong (lengthOf data), rfl⟩
  · rw [serializeDelta_eq_write, ← List.length_flatMap]
    refine ⟨fun t wrote => congrArg Sink.written (write_eq_next wrote), fun unlimited => ?_, fun left room => ?_⟩
    · rw [Sink.write, unlimited]
      exact ⟨_, rfl⟩
    · simp only [Sink.write, room, Budget.allows, decide_eq_true_eq]
      exact ⟨fun fits => ⟨_, if_pos fits⟩, fun short => if_neg (Nat.not_le.2 short)⟩

/-! ## Reading records (R120) -/

/-- The bytes of a 32-bit number, read behind a field that holds `acc`. -/
theorem foldl_bytesOfWord (acc : Nat) (w : Word) :
    (bytesOfWord w).foldl (fun acc x => acc * 256 + x.toNat) acc = acc * 2 ^ 32 + w.toNat := by
  have := w.isLt
  simp only [bytesOfWord, List.foldl, BitVec.extractLsb'_toNat, Nat.shiftRight_eq_div_pow]
  omega

/-- A field that holds a 64-bit number reads as that number (R39). -/
theorem numberOf_bytesOfLong (v : Long) : numberOf (bytesOfLong v) = v.toNat := by
  have := v.isLt
  rw [numberOf, bytesOfLong, List.foldl_append, foldl_bytesOfWord, foldl_bytesOfWord]
  simp only [BitVec.extractLsb'_toNat, Nat.shiftRight_eq_div_pow]
  omega

theorem readLong_bytesOfLong (v : Long) (rest : List Byte) :
    readLong ⟨bytesOfLong v ++ rest, false⟩ = .next (v, ⟨rest, false⟩) := by
  have field : Stream.readField 8 ⟨bytesOfLong v ++ rest, false⟩ = .next (bytesOfLong v, ⟨rest, false⟩) :=
    readField_append (bytesOfLong v) rest
  rw [readLong, field, andThen_next, numberOf_bytesOfLong, BitVec.ofNat_toNat, BitVec.setWidth_eq]

/-- A turn of the record loop reads one record back into its chunk. -/
theorem deserializeChunks_record {c : Chunk} (short : ∀ data, c = .literal data → data.length < 2 ^ 64) (turns : Nat)
    (rest : List Byte) :
    deserializeChunks (turns + 1) ⟨serializeChunk c ++ rest, false⟩ =
      andThen (deserializeChunks turns ⟨rest, false⟩) fun cs => .next (c :: cs) := by
  cases c with
  | reusable start length =>
    simp [deserializeChunks, serializeChunk, read_clean, readChunk, readLong_bytesOfLong]
  | literal data =>
    have size : (lengthOf data).toNat = data.length := Nat.mod_eq_of_lt (short data rfl)
    simp [deserializeChunks, serializeChunk, read_clean, readChunk, readLong_bytesOfLong, size, readField_append]

/-- The record loop reads the records of a delta back, in more turns than there are chunks. -/
theorem deserializeChunks_records {delta : List Chunk} (short : ∀ data, .literal data ∈ delta → data.length < 2 ^ 64)
    {turns : Nat} (enough : delta.length < turns) :
    deserializeChunks turns ⟨delta.flatMap serializeChunk, false⟩ = .next delta := by
  induction delta generalizing turns with
  | nil =>
    obtain ⟨turns, rfl⟩ := Nat.exists_eq_add_of_lt enough
    simp [deserializeChunks, read_clean]
  | cons c delta ih =>
    obtain ⟨turns, rfl⟩ := Nat.exists_eq_add_one_of_ne_zero (Nat.ne_zero_of_lt enough)
    have chunk_short : ∀ data, c = .literal data → data.length < 2 ^ 64 := fun data eq => short data (eq ▸ .head _)
    rw [List.flatMap_cons, deserializeChunks_record chunk_short,
      ih (fun data mem => short data (.tail _ mem)) (Nat.lt_of_succ_lt_succ enough), andThen_next]

/-- No record is empty, so that a delta has no more chunks than its records have bytes. -/
theorem length_le_length_records (delta : List Chunk) : delta.length ≤ (delta.flatMap serializeChunk).length := by
  induction delta with
  | nil => exact Nat.le_refl 0
  | cons c delta ih =>
    have record_pos : 1 ≤ (serializeChunk c).length := by cases c <;> exact Nat.le_add_left 1 _
    simp only [List.flatMap_cons, List.length_append, List.length_cons]
    omega

/-- Settles O54: the sink holds the records, and each turn of the loop reads one of them. -/
theorem deltaCodecRoundTrip : Obligations.DeltaCodecRoundTrip := fun delta short =>
  ⟨delta.flatMap serializeChunk, serializeDelta_eq_write delta ⟨[], none⟩,
    deserializeChunks_records short (Nat.lt_succ_of_le (length_le_length_records delta))⟩

end Sys2Proof.Machine
end

section
/-! PROOF. The host's patch (spec/48_host_procedures.md R121, R122): what one chunk does, the deltas that complete and those that
fail. -/

namespace Sys2Proof.Machine

/-- The bytes a chunk brings to the output (R121). -/
def Chunk.content (basis : List Byte) : Chunk → List Byte
  | .reusable start length => (basis.drop start.toNat).take length.toNat
  | .literal data => data

/-- How many bytes a chunk stands for (R110). -/
def Chunk.size : Chunk → Nat
  | .reusable _ length => length.toNat
  | .literal data => data.length

/-- A chunk does not reach beyond the basis (R121). -/
def Chunk.inside (basis : List Byte) : Chunk → Prop
  | .reusable start length => start.toNat + length.toNat ≤ basis.length
  | .literal _ => True

/-- Only the Reusable chunks of a delta can reach beyond the basis. -/
theorem forall_inside_iff {basis : List Byte} {delta : List Chunk} : (∀ c ∈ delta, c.inside basis) ↔
    ∀ start length, .reusable start length ∈ delta → start.toNat + length.toNat ≤ basis.length := by
  refine ⟨fun inside _ _ mem => inside _ mem, fun inside c mem => ?_⟩
  cases c with
  | reusable start length => exact inside start length mem
  | literal => trivial

/-- The basis after the seek and the read of a chunk. -/
def Basis.afterChunk : Chunk → Basis → Basis
  | .reusable _ length, basis => basis.spend length.toNat
  | .literal _, basis => basis

@[simp] theorem afterChunk_bytes (c : Chunk) (basis : Basis) : (basis.afterChunk c).bytes = basis.bytes := by
  cases c <;> rfl

theorem length_content {basis : List Byte} {c : Chunk} (inside : c.inside basis) : (c.content basis).length = c.size := by
  cases c with
  | literal => rfl
  | reusable start length =>
    simp only [Chunk.inside] at inside
    rw [Chunk.content, Chunk.size, List.length_take, List.length_drop]
    omega

/-! ## One chunk -/

/-- A literal the sink has room for is written whole. -/
theorem applyDelta_literal {basis : Basis} {data : List Byte} {out : Sink} (fits : out.room.allows data.length = true)
    (rest : List Chunk) : applyDelta basis (.literal data :: rest) out =
      applyDelta basis rest ⟨out.written ++ data, out.room.spend data.length⟩ := by
  rw [applyDelta, if_pos fits, Sink.put, cut_of_allows fits]

/-- A literal the sink has no room for is IOError, with what the sink takes of it written. -/
theorem applyDelta_literal_failed {data : List Byte} {out : Sink} (full : out.room.allows data.length = false)
    (basis : Basis) (rest : List Chunk) : applyDelta basis (.literal data :: rest) out = ⟨out.put data, some .io⟩ := by
  simp only [applyDelta, full, Bool.false_eq_true, if_false]

/-- A copy whose seek fails or falls short is IOError with nothing written. -/
theorem applyDelta_seek_failed {basis : Basis} {start : Long} (seek : basis.canSeek start.toNat = false) (length : Long)
    (out : Sink) (rest : List Chunk) : applyDelta basis (.reusable start length :: rest) out = ⟨out, some .io⟩ := by
  simp only [applyDelta, seek, if_true]

/-- A copy whose seek succeeds, whose read gives its whole length and which the sink has room for is written whole. -/
theorem applyDelta_copy {basis : Basis} {start length : Long} {out : Sink} (seek : basis.canSeek start.toNat = true)
    (whole : (basis.readAt start.toNat length.toNat).length = length.toNat)
    (fits : out.room.allows (basis.readAt start.toNat length.toNat).length = true) (rest : List Chunk) :
    applyDelta basis (.reusable start length :: rest) out = applyDelta (basis.spend length.toNat) rest
      ⟨out.written ++ basis.readAt start.toNat length.toNat, out.room.spend length.toNat⟩ := by
  simp only [applyDelta, seek, Bool.true_eq_false, if_false, whole ▸ fits, whole, and_self, if_true]
  rw [Sink.put, cut_of_allows fits, whole]

/-- A copy whose seek succeeds and which then falls short, or which the sink has no room for, is IOError. -/
theorem applyDelta_copy_failed {basis : Basis} {start length : Long} {out : Sink} (seek : basis.canSeek start.toNat = true)
    (short : ¬((basis.readAt start.toNat length.toNat).length = length.toNat ∧
      out.room.allows (basis.readAt start.toNat length.toNat).length = true)) (rest : List Chunk) :
    applyDelta basis (.reusable start length :: rest) out =
      ⟨out.put (copied length.toNat (basis.readAt start.toNat length.toNat)), some .io⟩ := by
  simp only [applyDelta, seek, Bool.true_eq_false, if_false, if_neg short]

/-- A read that gives the whole length has met no failure and no end of the basis. -/
theorem readAt_whole {basis : Basis} {start length : Nat} (whole : (basis.readAt start length).length = length) :
    basis.readAt start length = (basis.bytes.drop start).take length ∧ length ≤ basis.bytes.length - start := by
  have not_longer : (basis.readAt start length).length ≤ ((basis.bytes.drop start).take length).length := by
    rw [Basis.readAt]
    cases basis.reads with
    | none => exact Nat.le_refl _
    | some left => exact List.length_take_le' _ _
  have there : length ≤ basis.bytes.length - start := by
    rw [whole, List.length_take, List.length_drop] at not_longer
    omega
  refine ⟨cut_of_length_eq (whole.trans ?_), there⟩
  rw [List.length_take, List.length_drop, Nat.min_eq_left there]

/-- A chunk either is written whole, and the rest of the delta goes on behind it, or it ends the patch with IOError, and the rest
of the delta is not done. -/
theorem applyDelta_cons_cases (basis : Basis) (c : Chunk) (out : Sink) :
    (c.inside basis.bytes ∧ ∀ rest, applyDelta basis (c :: rest) out =
        applyDelta (basis.afterChunk c) rest ⟨out.written ++ c.content basis.bytes, out.room.spend c.size⟩) ∨
      ∃ failed : Sink, out.written <+: failed.written ∧ ∀ rest, applyDelta basis (c :: rest) out = ⟨failed, some .io⟩ := by
  cases c with
  | literal data =>
    cases room : out.room.allows data.length with
    | true => exact .inl ⟨trivial, applyDelta_literal room⟩
    | false => exact .inr ⟨out.put data, put_prefix data out, applyDelta_literal_failed room basis⟩
  | reusable start length =>
    cases seek : basis.canSeek start.toNat with
    | false => exact .inr ⟨out, List.prefix_rfl, applyDelta_seek_failed seek length out⟩
    | true =>
      by_cases fits : (basis.readAt start.toNat length.toNat).length = length.toNat ∧
          out.room.allows (basis.readAt start.toNat length.toNat).length = true
      · obtain ⟨whole, room⟩ := fits
        obtain ⟨content, there⟩ := readAt_whole whole
        have start_inside : start.toNat ≤ basis.bytes.length := of_decide_eq_true (Bool.and_eq_true_iff.1 seek).2
        refine .inl ⟨?_, fun rest => (applyDelta_copy seek whole room rest).trans (by rw [content]; rfl)⟩
        rw [Chunk.inside]
        omega
      · exact .inr ⟨_, put_prefix _ out, applyDelta_copy_failed seek fits⟩

section Unlimited

variable {bytes : List Byte} {start length : Long}

/-- Where no seek fails, the seek of a copy inside the basis succeeds. -/
theorem canSeek_of_inside (inside : start.toNat + length.toNat ≤ bytes.length) :
    Basis.canSeek start.toNat ⟨bytes, none, none⟩ = true := by
  simp only [Basis.canSeek, allows_unlimited, Bool.true_and, decide_eq_true_eq]
  omega

/-- Where no read fails, the read of a copy inside the basis gives its whole length. -/
theorem length_readAt_of_inside (inside : start.toNat + length.toNat ≤ bytes.length) :
    (Basis.readAt start.toNat length.toNat ⟨bytes, none, none⟩).length = length.toNat :=
  length_content (c := .reusable start length) inside

end Unlimited

/-- Where nothing fails, a chunk inside the basis is written whole. -/
theorem applyDelta_cons_unlimited {bytes : List Byte} {c : Chunk} (inside : c.inside bytes) (rest : List Chunk)
    (written : List Byte) :
    applyDelta ⟨bytes, none, none⟩ (c :: rest) ⟨written, none⟩ =
      applyDelta ⟨bytes, none, none⟩ rest ⟨written ++ c.content bytes, none⟩ := by
  cases c with
  | literal => exact applyDelta_literal rfl rest
  | reusable start length =>
    exact applyDelta_copy (canSeek_of_inside inside) (length_readAt_of_inside inside) rfl rest

/-! ## A delta -/

/-- The output keeps what it held. -/
theorem applyDelta_prefix (basis : Basis) (delta : List Chunk) (out : Sink) :
    out.written <+: (applyDelta basis delta out).output.written := by
  induction delta generalizing basis out with
  | nil => exact List.prefix_rfl
  | cons c rest ih =>
    obtain ⟨-, done⟩ | ⟨failed, kept, stop⟩ := applyDelta_cons_cases basis c out
    · exact done rest ▸ (List.prefix_append _ _).trans (ih _ ⟨_, _⟩)
    · exact stop rest ▸ kept

/-- A patch without an error has written the content of every chunk, and every chunk lies inside the basis. -/
theorem applyDelta_complete {basis : Basis} {delta : List Chunk} {out : Sink}
    (complete : (applyDelta basis delta out).error = none) :
    (applyDelta basis delta out).output.written = out.written ++ delta.flatMap (Chunk.content basis.bytes) ∧
      ∀ c ∈ delta, c.inside basis.bytes := by
  induction delta generalizing basis out with
  | nil => exact ⟨(List.append_nil _).symm, fun _ mem => by cases mem⟩
  | cons c rest ih =>
    obtain ⟨inside, done⟩ | ⟨failed, -, stop⟩ := applyDelta_cons_cases basis c out
    · rw [done] at complete ⊢
      obtain ⟨written, inside_rest⟩ := ih complete
      rw [afterChunk_bytes] at written inside_rest
      exact ⟨by rw [written, List.flatMap_cons, List.append_assoc], List.forall_mem_cons.2 ⟨inside, inside_rest⟩⟩
    · rw [stop] at complete
      cases complete

/-- The content of chunks inside the basis is as long as they say. -/
theorem length_flatMap_content {basis : List Byte} {delta : List Chunk} (inside : ∀ c ∈ delta, c.inside basis) :
    (delta.flatMap (Chunk.content basis)).length = (delta.map Chunk.size).sum := by
  rw [List.length_flatMap, List.map_congr_left fun c mem => length_content (inside c mem)]

/-- Where nothing fails, a delta inside the basis is done without an error. -/
theorem applyDelta_unlimited {bytes : List Byte} {delta : List Chunk} (inside : ∀ c ∈ delta, c.inside bytes)
    (written : List Byte) : (applyDelta ⟨bytes, none, none⟩ delta ⟨written, none⟩).error = none := by
  induction delta generalizing written with
  | nil => rfl
  | cons c rest ih =>
    obtain ⟨inside_c, inside_rest⟩ := List.forall_mem_cons.1 inside
    exact applyDelta_cons_unlimited inside_c rest written ▸ ih inside_rest _

/-- A delta in two parts: without an error in the first part the second goes on behind its output, and an error of the first part
is IOError and the end. -/
theorem applyDelta_append_cases (basis : Basis) (before : List Chunk) (out : Sink) :
    ((applyDelta basis before out).error = none ∧ ∃ basis', ∀ after,
        applyDelta basis (before ++ after) out = applyDelta basis' after (applyDelta basis before out).output) ∨
      ((applyDelta basis before out).error = some .io ∧
        ∀ after, applyDelta basis (before ++ after) out = applyDelta basis before out) := by
  induction before generalizing basis out with
  | nil => exact .inl ⟨rfl, basis, fun _ => rfl⟩
  | cons c rest ih =>
    simp only [List.cons_append]
    obtain ⟨-, done⟩ | ⟨failed, -, stop⟩ := applyDelta_cons_cases basis c out
    · simp only [done]
      exact ih _ _
    · exact .inr ⟨congrArg Patched.error (stop rest), fun after => (stop _).trans (stop rest).symm⟩

/-! ## Failures -/

/-- A write of more than the sink has room for leaves the part it had room for. -/
theorem put_short {bytes : List Byte} {left : Nat} (short : left < bytes.length) (written : List Byte) :
    Sink.put bytes ⟨written, some left⟩ = ⟨written ++ bytes.take left, some 0⟩ :=
  congrArg (Sink.mk _ <| some ·) (Nat.sub_eq_zero_of_le short.le)

theorem allows_short {n left : Nat} (short : left < n) : Budget.allows n (some left) = false :=
  decide_eq_false (Nat.not_le.2 short)

theorem applyDelta_literal_short (basis : Basis) {data : List Byte} {left : Nat} (short : left < data.length)
    (written : List Byte) (rest : List Chunk) :
    applyDelta basis (.literal data :: rest) ⟨written, some left⟩ = ⟨⟨written ++ data.take left, some 0⟩, some .io⟩ := by
  rw [applyDelta_literal_failed (allows_short short), put_short short]

theorem applyDelta_copy_short {bytes : List Byte} {start length : Long} {left : Nat}
    (inside : start.toNat + length.toNat ≤ bytes.length) (short : left < length.toNat)
    (written : List Byte) (rest : List Chunk) :
    applyDelta ⟨bytes, none, none⟩ (.reusable start length :: rest) ⟨written, some left⟩ =
      ⟨⟨written ++ (bytes.drop start.toNat).take left, some 0⟩, some .io⟩ := by
  have whole := length_readAt_of_inside inside
  have short_read := short.trans_eq whole.symm
  rw [applyDelta_copy_failed (canSeek_of_inside inside)
      fun fits => Bool.false_ne_true ((allows_short short_read).symm.trans fits.2),
    copied, if_pos whole, put_short short_read, Basis.readAt, cut_unlimited, List.take_take, Nat.min_eq_left short.le]

theorem applyDelta_no_read (bytes : List Byte) (seeks : Budget) {length : Long} (nonempty : length ≠ 0) (rest : List Chunk)
    (out : Sink) : (applyDelta ⟨bytes, seeks, some 0⟩ (.reusable 0 length :: rest) out).error = some .io := by
  cases seek : Basis.canSeek (0 : Long).toNat ⟨bytes, seeks, some 0⟩ with
  | false => rw [applyDelta_seek_failed seek]
  | true =>
    have nothing_read : Basis.readAt (0 : Long).toNat length.toNat ⟨bytes, seeks, some 0⟩ = [] := rfl
    have short : (0 : Nat) ≠ length.toNat := fun eq => nonempty (BitVec.eq_of_toNat_eq eq.symm)
    rw [applyDelta_copy_failed seek (nothing_read ▸ fun fits => short fits.1)]

/-! ## The statement -/

/-- Settles O60: every chunk is written whole or ends the patch, and each failure ends it where it stands. -/
theorem patchCopiesEveryChunkOrFailsWithIoError : Obligations.PatchCopiesEveryChunkOrFailsWithIoError := by
  refine ⟨fun basis delta out => ⟨?_, applyDelta_prefix basis delta out, fun complete => ?_, fun seeks reads room => ?_⟩,
    fun _ _ _ length rest out => applyDelta_seek_failed rfl length out rest, fun basis before after out => ?_,
    fun basis _ written rest _ short => applyDelta_literal_short basis short written rest,
    fun _ written _ _ rest _ inside short => applyDelta_copy_short inside short written rest,
    fun bytes seeks _ rest out nonempty => applyDelta_no_read bytes seeks nonempty rest out⟩
  · exact (applyDelta_append_cases basis delta out).imp And.left And.left
  · obtain ⟨written, inside⟩ := applyDelta_complete complete
    refine ⟨written, ?_⟩
    rw [written, List.length_append, length_flatMap_content inside]
    rfl
  · obtain ⟨bytes, _, _⟩ := basis
    obtain ⟨written, _⟩ := out
    cases seeks
    cases reads
    cases room
    exact ⟨fun complete => forall_inside_iff.1 (applyDelta_complete complete).2,
      fun inside => applyDelta_unlimited (forall_inside_iff.2 inside) written⟩
  · obtain ⟨complete, basis', goes_on⟩ | ⟨failed, stop⟩ := applyDelta_append_cases basis before out
    · exact ⟨fun _ => goes_on after ▸ applyDelta_prefix _ _ _, fun failed => absurd complete failed⟩
    · exact ⟨fun complete => absurd (failed.symm.trans complete) nofun, fun _ => stop after⟩

end Sys2Proof.Machine
end

section
/-! PROOF. Errors (spec/60_exceptions.md): what can raise each code (R91), that taking an error changes nothing else (R92), that an
error stands and drops commands (R93), and the ways it is cleared (R95, R103, R104). -/

namespace Sys2Proof.Machine

variable {s t : State}

/-! ## What raised the recorded error (R91) -/

theorem errorCause_of_noError (no_error : t.err = .noError) : t.errorCause := by
  unfold State.errorCause
  rw [no_error]
  trivial

/-- The cause of an error is a matter of ERR and ERRINFO alone. -/
theorem errorCause_of_sameError (cause : s.errorCause) (same : sameError s t) : t.errorCause := by
  obtain ⟨err_eq, errInfo_eq⟩ := same
  unfold State.errorCause
  rw [err_eq, errInfo_eq]
  exact cause

/-- Only an opcode outside the map decodes to ILLEGAL_OP (R55). -/
theorem fieldOp_of_illegalOp {w : Word} (hd : decode w = .illegalOp) : fieldOp w ∉ opcodes := by
  intro assigned
  obtain ⟨r, hr, hop⟩ : ∃ r ∈ opcodeMap, fieldOp r.1 = fieldOp w := List.mem_map.1 assigned
  obtain ⟨i, decoded⟩ := decode_of_opcode hr hop.symm
  rw [hd] at decoded
  split at decoded <;> cases decoded

/-- Only a word that has an opcode of the map and matches no row decodes to RSVD_FIELD (R55). -/
theorem reserved_of_rsvdField {w : Word} (hd : decode w = .rsvdField) :
    fieldOp w ∈ opcodes ∧ ∀ r ∈ opcodeMap, w &&& r.2 ≠ r.1 := by
  refine ⟨by_contra fun unassigned => ?_, fun r hr matched => ?_⟩
  · cases hd.symm.trans (decode_of_unassigned unassigned)
  · obtain ⟨i, decoded⟩ := decode_of_match hr matched
    cases hd.symm.trans decoded

/-- Only SRC = 0 asks for the block's own digest (R78, R80). -/
theorem src_of_digestMissing {src : Src} (missing : s.digestMissing src = true) : src = .rc := by
  cases src with
  | rc => rfl
  | host => cases missing

open Laws.EncodedAsPrinted in
/-- A command that raises an error records its own word, which R91 names for the code; any other keeps the recorded error. -/
theorem exec_errorCause {i : Instr} (cause : s.errorCause) (h : exec i s = .next t) : t.errorCause := by
  cases i with
  | nop | rcClear | rcFeed | rcRoll | shStart | shFinal | ixClear => cases h; exact cause
  | xfeed x =>
    obtain ⟨-, rfl⟩ | ⟨-, rfl⟩ := execXfeed_cases h
    · exact .inr (masked 0x04 x 0 _ (b1_outside x))
    · exact cause
  | shFeed x =>
    obtain ⟨-, rfl⟩ | ⟨-, rfl⟩ := execShFeed_cases h
    · exact .inl (masked 0x11 x 0 _ (b1_outside x))
    · exact cause
  | ixSetbl chk =>
    obtain ⟨-, rfl⟩ | ⟨-, rfl, -, rfl⟩ | ⟨-, -, rfl⟩ := execIxSetbl_cases h
    · cases chk
      · exact .inl rfl
      · exact .inr rfl
    · exact (rfl : encode (.ixSetbl true) = 0x21010000)
    · exact cause
  | ixAppend src =>
    obtain ⟨missing, rfl⟩ | ⟨-, -, rfl⟩ | ⟨-, -, rfl⟩ := execIxAppend_cases h
    · cases src_of_digestMissing missing
      exact .inl rfl
    · cases src
      · exact .inl rfl
      · exact .inr rfl
    · exact cause
  | ixLookup src =>
    cases h
    exact errorCause_of_sameError cause (by simp [sameError])
  | ixMatch src =>
    obtain ⟨missing, rfl⟩ | ⟨-, rfl⟩ := execIxMatch_cases h
    · cases src_of_digestMissing missing
      exact .inr rfl
    · exact errorCause_of_sameError cause (by simp [sameError])
  | ixRead =>
    obtain ⟨-, rfl⟩ | ⟨-, rfl⟩ := execIxRead_cases h
    · exact (rfl : encode .ixRead = 0x25000000)
    · exact cause

theorem runWord_errorCause {w : Word} (cause : s.errorCause) (h : runWord w s = .next t) : t.errorCause := by
  obtain ⟨-, rfl⟩ | ⟨-, hd, rfl⟩ | ⟨-, hd, rfl⟩ | ⟨i, -, -, he⟩ := runWord_cases h
  · exact cause
  · exact fieldOp_of_illegalOp hd
  · exact reserved_of_rsvdField hd
  · exact exec_errorCause cause he

/-! ## The ways an error is cleared (R95, R103, R104) -/

/-- An event that clears a recorded error: a pulse of the reset input, a STATUS write with bit 31 set, or a CTRL write with bit 0
set. -/
def clearsError (e : Event) : Prop :=
  e = .resetLine ∨ ∃ v w : Word,
    (e = .bus (regAccess .status (.write v)) ∧ v.getLsbD 31 = true) ∨
      (e = .bus (regAccess .ctrl (.write w)) ∧ w.getLsbD 0 = true)

/-- An access keeps ERR and ERRINFO, or it is one that clears both (R32, R104). -/
theorem accessReg_error_cases (r : Reg) (kind : AccessKind) (s : State) :
    sameError s (accessReg r kind s) ∨
      ((accessReg r kind s).err = .noError ∧ (accessReg r kind s).errInfo = 0 ∧
        clearsError (.bus (regAccess r kind))) := by
  cases kind with
  | read => exact .inl ⟨rfl, rfl⟩
  | write v =>
    by_cases status : r = .status
    · subst status
      by_cases errclr : v.getLsbD 31 = true
      · exact .inr ⟨(writeStatus_err v s).trans (if_pos errclr), (writeStatus_errInfo v s).trans (if_pos errclr),
          .inr ⟨v, 0, .inl ⟨rfl, errclr⟩⟩⟩
      · exact .inl ⟨(writeStatus_err v s).trans (if_neg errclr), (writeStatus_errInfo v s).trans (if_neg errclr)⟩
    by_cases ctrl : r = .ctrl
    · subst ctrl
      obtain ⟨reset_eq, w, written, srst⟩ | ⟨x, answered⟩ := accessReg_ctrl_cases (.write v) s
      · rw [reset_eq]
        exact .inr ⟨rfl, rfl, .inr ⟨0, w, .inr ⟨by rw [written], srst⟩⟩⟩
      · rw [answered]
        exact .inl ⟨rfl, rfl⟩
    exact .inl (accessReg_sameFlags_sameError status ctrl (.write v) s).2

theorem takeEvent_error_cases {e : Event} (h : takeEvent e s = .next t) :
    sameError s t ∨ (t.err = .noError ∧ t.errInfo = 0 ∧ clearsError e) := by
  obtain ⟨rfl, rfl⟩ | ⟨a, r, rfl, wf, hr, rfl⟩ := takeEvent_cases h
  · exact .inr ⟨rfl, rfl, .inl rfl⟩
  · rw [eq_regAccess wf hr]
    exact accessReg_error_cases r a.kind s

/-- Settles O51: a word that completes records a word R91 names for its code, and an event keeps the recorded error or clears it. -/
theorem stepKeepsTheErrorCause : Obligations.StepKeepsTheErrorCause := by
  intro s t cause h
  obtain ⟨p, u, -, -, hu, rfl⟩ | ⟨i, rest, -, -, he⟩ | ⟨-, -, rfl⟩ := step_cases h
  · exact (runWord_errorCause cause hu : u.errorCause)
  · obtain same | ⟨no_error, -, -⟩ := takeEvent_error_cases he
    · exact errorCause_of_sameError cause same
    · exact errorCause_of_noError no_error
  · exact cause

/-- While an error stands, a word in flight that nothing overtakes is dropped and retires (R93). -/
theorem step_of_error {p : Pending} (hp : s.pend = some p) (held : s.nextHeld) (error : s.err ≠ .noError) :
    step s = .next s.dropCommand.retire := by
  have dropped : runWord p.word s = .next s.dropCommand := if_pos error
  rw [step_of_nextHeld hp held, completeCommand, dropped, andThen_next]

/-- Settles O42: a word in flight is dropped, and an event that changes ERR or ERRINFO is one of the three that clear them. -/
theorem errorStandsUntilTheHostClearsIt : Obligations.ErrorStandsUntilTheHostClearsIt := by
  intro s t h error
  obtain ⟨p, u, hp, held, -, -⟩ | ⟨i, rest, hi, -, he⟩ | ⟨-, -, rfl⟩ := step_cases h
  · cases (step_of_error hp held error).symm.trans h
    exact .inl ⟨rfl, rfl⟩
  · refine (takeEvent_error_cases he).imp_right fun ⟨no_error, errInfo_eq, clears⟩ => ?_
    exact ⟨no_error, errInfo_eq, i, by simp [hi], clears⟩
  · exact .inl ⟨rfl, rfl⟩

/-! ## Errors are precise (R92) -/

/-- A word that leaves ERR set where it was 0 has recorded its code and itself, and changed nothing else. -/
theorem runWord_eq_raiseError {w : Word} (h : runWord w s = .next t) (no_error : s.err = .noError)
    (error : t.err ≠ .noError) : t = s.raiseError t.err w := by
  obtain ⟨stands, -⟩ | ⟨-, -, rfl⟩ | ⟨-, -, rfl⟩ | ⟨i, -, hd, he⟩ := runWord_cases h
  · exact absurd no_error stands
  · rfl
  · rfl
  · rw [← encode_of_decode hd]
    exact exec_eq_raiseError_of_err_ne he (no_error ▸ error)

/-- Settles O41: the step is the word's completion, and the word has done nothing but raise the error. -/
theorem errorsArePrecise : Obligations.ErrorsArePrecise := by
  intro s t p hp held no_error h error
  rw [step_of_nextHeld hp held] at h
  obtain ⟨u, hu, retired⟩ := andThen_eq_next h
  cases retired
  exact congrArg State.retire (runWord_eq_raiseError hu no_error error)

/-! ## While an error stands, and after it is cleared (R93, R95) -/

/-- Retirement of an idle block changes nothing. -/
theorem retire_of_idle (idle : s.idle) : s.retire = s := by
  obtain ⟨not_busy, no_command⟩ := idle
  rw [State.retire, ← not_busy, ← no_command]

/-- Settles O9: the write to CMD is accepted, and the word dropped at the test of ERR before decoding. -/
theorem commandsAreDroppedWhileErrorStands : Obligations.CommandsAreDroppedWhileErrorStands := by
  intro s w early rest idle error hi held
  refine ⟨accessReg .cmd (.write w) (s.setInputs rest),
    (step_of_no_command idle.2 hi).trans (busAccess_regAccess .cmd ..), ?_⟩
  calc step (accessReg .cmd (.write w) (s.setInputs rest))
      = .next (accessReg .cmd (.write w) (s.setInputs rest)).dropCommand.retire := step_of_error rfl held error
    _ = .next ((s.setInputs rest).dropCommand.respond .ok).retire := rfl
    _ = .next ((s.setInputs rest).dropCommand.respond .ok) := congrArg _ (retire_of_idle idle)

/-- Settles O43: the write to STATUS clears the error and DROPPED, and the command after it meets no error. -/
theorem errorReturnThroughStatus : Obligations.ErrorReturnThroughStatus := by
  rintro s i ⟨-, idle⟩
  have cleared : atomically (AsmLine.wr .status 0x80000020).event s =
      .next (s.clearDropped.clearError.respond .ok) :=
    atomically_regAccess .status (.write 0x80000020) s idle
  obtain ⟨u, hu⟩ := exec_completes i (((s.clearDropped.clearError.respond .ok).accept (encode i)).respond .ok)
  refine ⟨u.retire, u, ?_, ?_, rfl⟩
  · rw [runLines_cons, cleared, andThen_next, runLines_command rfl hu, runLines_nil]
  · have answers : s.responses ++ [.ok, .ok] = s.responses ++ [.ok] ++ [.ok] := by simp
    rw [answers]
    exact hu

end Sys2Proof.Machine
end

section
/-! PROOF. Reset and hazards (spec/70_reset_and_hazards.md): the reset input (R103), the soft reset (R104), and a scan against a
signature never loaded (R105, R112 to R114). -/

namespace Sys2Proof.Machine

variable {s t : State}

/-! ## The two resets (R103, R104) -/

/-- An event that a command in flight does not hold takes effect when none is in flight, or when it comes early (R47). -/
theorem step_of_unheld {early : Bool} {e : Event} {rest : List Input} (hi : s.inputs = ⟨early, e⟩ :: rest)
    (free : s.pend = none ∨ early = true) (now : unheld e = true) : step s = takeEvent e (s.setInputs rest) := by
  obtain idle | rfl := free
  · exact step_of_no_command idle hi
  · exact step_of_overtakes hi now

/-- Settles O47: the pulse is never held, and the reset block accepts a write to CMD. -/
theorem hardwareReset : Obligations.HardwareReset := fun _ _ _ hi free =>
  ⟨step_of_unheld hi free rfl, fun w => ⟨_, busAccess_regAccess .cmd (.write w) _, rfl, rfl⟩⟩

/-- Settles O48: the write to CTRL is never held, and bit 0 decides what it does. -/
theorem softReset : Obligations.SoftReset := by
  intro s v early rest hi free
  have written : step s = .next (((s.setInputs rest).writeCtrl v).respond .ok) :=
    (step_of_unheld hi free (unheld_ctrl_write v)).trans (busAccess_regAccess .ctrl (.write v) _)
  refine ⟨fun srst => ?_, fun no_srst => ?_⟩
  · rw [written, writeCtrl_reset v _ srst]
    rfl
  · rw [written, writeCtrl_ignored v _ no_srst]
    rfl

/-! ## The commands of a scan (R113, R114) -/

/-- No error stands and MAP has no key, so every lookup misses. -/
structure NothingToFind (t : State) : Prop where
  no_error : t.err = .noError
  map : t.map = []

theorem runLines_shDigest_sameIx {window : List Byte} (h : runLines (shDigest window) s = .next t) : sameIx s t := by
  have commands : shDigest window = (Instr.shStart :: window.map .shFeed ++ [Instr.shFinal]).map AsmLine.command := by
    simp [shDigest]
  rw [commands] at h
  refine runLines_commands_sameIx _ (fun i hi => ?_) h
  simp only [List.cons_append, List.mem_cons, List.mem_append, List.mem_map, List.not_mem_nil, or_false] at hi
  rcases hi with rfl | ⟨x, -, rfl⟩ | rfl <;> rfl

/-- Hashing an aligned window leaves a digest to match by, and the signature as it was (R113). -/
theorem runChecked_xInit (idle : s.idle) (nothing : NothingToFind s) {window : List Byte}
    (bound : window.length < 2 ^ 32) :
    ∃ t, runChecked (xInit window) s = .next t ∧ t.shValid = true ∧ NothingToFind t := by
  obtain ⟨t, ht, -, -, valid, -, no_error⟩ := (digestOfAWindow window s idle nothing.no_error bound).2
  obtain ⟨-, -, -, map⟩ := runLines_xInit_sameIx ht
  exact ⟨t, runChecked_of_next ht no_error, valid, no_error, map.trans nothing.map⟩

/-- The state a line `rc.roll out, x` leaves. -/
def State.afterRoll (out x : Byte) (s : State) : State :=
  (((s.accept (encode (.rcRoll out x))).respond .ok).rollRc out x).retire

theorem runLines_rcRoll (no_error : s.err = .noError) (out x : Byte) (ls : List AsmLine) :
    runLines (.command (.rcRoll out x) :: ls) s = runLines ls (s.afterRoll out x) := runLines_command no_error rfl ls

/-- So does sliding the window by a byte and hashing it again (R113). -/
theorem runChecked_rcRoll_shRefeed (nothing : NothingToFind s) (out x : Byte) {window : List Byte}
    (bound : window.length < 2 ^ 32) :
    ∃ t, runChecked (.command (.rcRoll out x) :: shRefeed window) s = .next t ∧ t.shValid = true ∧ NothingToFind t := by
  obtain ⟨t, ht, -, -, valid, no_error⟩ :=
    (digestOfAWindow window (s.afterRoll out x) ⟨rfl, rfl⟩ nothing.no_error bound).1
  obtain ⟨-, -, -, map⟩ := runLines_shDigest_sameIx ht
  exact ⟨t, runChecked_of_next ((runLines_rcRoll nothing.no_error ..).trans ht) no_error, valid, no_error,
    map.trans nothing.map⟩

/-- The state a line `ix.match src=rc` leaves when the lookup misses. -/
def State.afterMiss (s : State) : State :=
  (((s.accept (encode (.ixMatch .rc))).respond .ok).setLookup none fun _ => false).retire

theorem runChecked_ixMatch_miss (valid : s.shValid = true) (nothing : NothingToFind s) :
    runChecked [.command (.ixMatch .rc)] s = .next s.afterMiss := by
  have run := runLines_command (i := .ixMatch .rc) nothing.no_error
    (exec_ixMatch_of_digest (s := (s.accept (encode (.ixMatch .rc))).respond .ok) fun _ => valid) []
  have miss (w : Word) : mapFind w ((s.accept (encode (.ixMatch .rc))).respond .ok).map = none :=
    congrArg (mapFind w) nothing.map
  rw [miss] at run
  exact runChecked_of_next run nothing.no_error

/-- With nothing to find the window is a miss, and its first byte is a Literal (R114). -/
theorem evaluateWindow_miss {sc : Scan} (valid : sc.block.shValid = true) (nothing : NothingToFind sc.block) :
    evaluateWindow sc = .next ⟨sc.block.afterMiss, sc.rest, sc.window, .resync,
      deltaAppend sc.delta (.literal (sc.window.take 1))⟩ := by
  rw [evaluateWindow, runChecked_ixMatch_miss valid nothing]
  rfl

theorem NothingToFind.afterMiss (nothing : NothingToFind s) : NothingToFind s.afterMiss :=
  ⟨nothing.no_error, nothing.map⟩

/-! ## The turns of a scan (R112 to R114) -/

section Turns

variable {blockLength : Nat} {bytes window kept : List Byte} {delta : List Chunk} {out x : Byte}

theorem scanLoop_of_turn {turns : Nat} {sc sc' : Scan} (turn : scanTurn blockLength sc = .next (.inr sc')) :
    scanLoop (turns + 1) blockLength sc = scanLoop turns blockLength sc' := by
  rw [scanLoop, turn, andThen_next]

/-- A turn in aligned mode that reads a window. -/
theorem scanTurn_aligned (idle : s.idle) (nothing : NothingToFind s) (nonempty : bytes.take blockLength ≠ [])
    (short : blockLength < 2 ^ 32) :
    ∃ t : State, scanTurn blockLength ⟨s, ⟨bytes, false⟩, window, .aligned, delta⟩ =
        .next (.inr ⟨t, ⟨bytes.drop blockLength, false⟩, bytes.take blockLength, .resync,
          deltaAppend delta (.literal ((bytes.take blockLength).take 1))⟩) ∧
      NothingToFind t := by
  obtain ⟨u, hu, valid, nothing_u⟩ := runChecked_xInit idle nothing
    ((List.length_take_le blockLength bytes).trans_lt short)
  refine ⟨u.afterMiss, ?_, nothing_u.afterMiss⟩
  simp only [scanTurn, read_clean, andThen_next, if_neg nonempty, hu, evaluateWindow_miss, valid, nothing_u]

/-- A turn in resync mode that reads a byte. -/
theorem scanTurn_resync (nothing : NothingToFind s) (short : (kept ++ [x]).length < 2 ^ 32) :
    ∃ t : State, scanTurn blockLength ⟨s, ⟨x :: bytes, false⟩, out :: kept, .resync, delta⟩ =
        .next (.inr ⟨t, ⟨bytes, false⟩, kept ++ [x], .resync, deltaAppend delta (.literal ((kept ++ [x]).take 1))⟩) ∧
      NothingToFind t := by
  obtain ⟨u, hu, valid, nothing_u⟩ := runChecked_rcRoll_shRefeed nothing out x short
  refine ⟨u.afterMiss, ?_, nothing_u.afterMiss⟩
  simp only [scanTurn, read_clean, List.take_succ_cons, List.drop_succ_cons, List.drop_zero, andThen_next, hu,
    evaluateWindow_miss, valid, nothing_u]

/-- In resync mode, with the Literal so far ending in the first byte of the window, the rest of the window and of the stream
join it. -/
theorem scanLoop_resync {turns : Nat} {done : List Byte} (nothing : NothingToFind s) (enough : bytes.length < turns)
    (short : (out :: kept).length < 2 ^ 32) :
    ∃ sc, scanLoop turns blockLength ⟨s, ⟨bytes, false⟩, out :: kept, .resync, [.literal done]⟩ = .next sc ∧
      sc.block.err = .noError ∧ sc.delta = [.literal (done ++ kept ++ bytes)] := by
  induction bytes generalizing s turns out kept done with
  | nil =>
    obtain ⟨turns, rfl⟩ := Nat.exists_eq_add_one_of_ne_zero (Nat.ne_of_gt enough)
    refine ⟨⟨s, ⟨[], false⟩, out :: kept, .resync, [.literal (done ++ kept)]⟩, rfl, nothing.no_error, ?_⟩
    rw [List.append_nil]
  | cons x bytes ih =>
    obtain ⟨turns, rfl⟩ := Nat.exists_eq_add_one_of_ne_zero (Nat.ne_of_gt (Nat.zero_lt_of_lt enough))
    have same_length : (kept ++ [x]).length < 2 ^ 32 := by simpa using short
    obtain ⟨t, ht, nothing_t⟩ := scanTurn_resync nothing same_length
    obtain ⟨first, others, slid⟩ : ∃ first others, kept ++ [x] = first :: others :=
      List.exists_cons_of_ne_nil (List.concat_ne_nil x kept)
    rw [slid] at ht same_length
    obtain ⟨sc, hsc, no_error, all⟩ := ih (done := done ++ [first]) nothing_t (Nat.lt_of_succ_lt_succ enough) same_length
    refine ⟨sc, (scanLoop_of_turn ht).trans hsc, no_error, ?_⟩
    have joined : done ++ [first] ++ others ++ bytes = done ++ (first :: others) ++ bytes := by simp
    rw [all, joined, ← slid]
    simp

end Turns

/-- Settles O58: the first window is a miss, which turns the scan to resync mode, where every byte joins the one Literal. -/
theorem scanOfAnEmptySignatureIsLiteral : Obligations.ScanOfAnEmptySignatureIsLiteral := by
  intro new s idle no_error empty nonzero
  have scan : computeDelta ⟨new, false⟩ s =
    scanLoop (new.length + 1) s.blockLen.toNat ⟨s, ⟨new, false⟩, [], .aligned, []⟩ := if_neg nonzero
  have pos : 0 < s.blockLen.toNat := by bv_omega
  rw [scan]
  by_cases ended : new = []
  · subst ended
    refine ⟨⟨s, ⟨[], false⟩, [], .aligned, []⟩, ?_, no_error, rfl⟩
    simp [scanLoop, scanTurn, read_clean]
  · have nonempty : new.take s.blockLen.toNat ≠ [] := by simp [ended, pos.ne']
    obtain ⟨t, ht, nothing⟩ := scanTurn_aligned (window := []) (delta := []) idle ⟨no_error, empty⟩ nonempty
      s.blockLen.isLt
    have bound := (List.length_take_le s.blockLen.toNat new).trans_lt s.blockLen.isLt
    have whole := List.take_append_drop s.blockLen.toNat new
    obtain ⟨first, others, window⟩ := List.exists_cons_of_ne_nil nonempty
    rw [window] at ht bound whole
    have enough : (new.drop s.blockLen.toNat).length < new.length := by
      rw [List.length_drop]
      exact Nat.sub_lt (List.length_pos_of_ne_nil ended) pos
    obtain ⟨sc, hsc, no_error_sc, all⟩ := scanLoop_resync (done := [first]) nothing enough bound
    refine ⟨sc, (scanLoop_of_turn ht).trans hsc, no_error_sc, ?_⟩
    rw [if_neg ended, all]
    exact congrArg (fun data => [Chunk.literal data]) whole

end Sys2Proof.Machine
end
